-- ==== Sys2Proof/Word.lean ====
section
/-! DEFINITION. The word types of the first-riscv CORE: bytes, 32-bit words, register indexes, CSR numbers,
and the three access widths. -/

namespace Sys2Proof

/-- A byte (20_memory.md R70: "address is a byte address"). -/
abbrev Byte := BitVec 8

/-- A 32-bit word: registers, the program counter, addresses while they are computed (00_scope.md R10). -/
abbrev Word := BitVec 32

/-- A general register's 5-bit index (10_state.md R30). -/
abbrev RegIdx := BitVec 5

/-- A 12-bit CSR number (10_state.md R40). -/
abbrev CsrNum := BitVec 12

/-- The width selector of a bus transaction (20_memory.md R71). -/
inductive Width where
  | byte
  | half
  | word
  deriving DecidableEq, Repr

end Sys2Proof
end

