-- ==== Sys2Proof/Config.lean ====
section
/-! DEFINITION. What is fixed when the core is constructed (00_scope.md R11), and the model's free values. -/

namespace Sys2Proof

/-- The backing store of the boot region, `BOOT_STORE` (00_scope.md R11). -/
inductive BootStore where
  | rom
  | flash
  deriving DecidableEq, Repr

/-- How a clock tick of POWERUP, TX and RX drives `spi_clk`. "one bit per tick", one edge per tick and "falling edge = write, rising edge =
sample" cannot hold together (20_memory.md R90, R94; log 37): `edgePerTick` is the reading of 90_conflicts.md C10, a tick is one edge and
`spi_clk` toggles every tick, so that bits move on both edges; `cyclePerTick` keeps the edge roles, a tick is a rising and a falling
edge. -/
inductive SpiClocking where
  | edgePerTick
  | cyclePerTick
  deriving DecidableEq, Repr

/-- `CSR_ADDR`: the CSR numbers, a parameter of the model (10_state.md R40). -/
structure CsrAddr where
  mstatus  : CsrNum
  mtvec    : CsrNum
  mepc     : CsrNum
  mcause   : CsrNum
  mtval    : CsrNum
  minstret : CsrNum
  deriving DecidableEq, Repr

/-- The standard machine-mode numbers (10_state.md R40, the spec's decision D1; log 2). -/
def CsrAddr.standard : CsrAddr :=
  { mstatus := 0x300, mtvec := 0x305, mepc := 0x341, mcause := 0x342, mtval := 0x343, minstret := 0xB02 }

/-- The construction parameters that are not store contents (00_scope.md R11). `ROM_IMAGE`, `FLASH_IMAGE` and `RAM_INIT`
are the contents of State's stores; `HALT` is an argument of `runUntil`. Carried in State and changed by no
step (log 31). -/
structure Config where
  /-- `BOOT_STORE`. -/
  bootStore : BootStore
  /-- `FLASH_BASE`: the region_base that 20_memory.md R93 adds to a boot-region offset. -/
  flashBase : BitVec 24
  /-- `RAM_WORDS` (20_memory.md R80). -/
  ramWords  : Nat
  /-- `CSR_ADDR`. -/
  csrAddr   : CsrAddr
  /-- What the 2-bit wait counter of FETCH_WAIT counts to: not in the source (91_not_in_source.md N7; log 36). Only
  `tick` reads it. -/
  waitTicks : BitVec 2
  /-- How the SPIFlashController clocks the flash (90_conflicts.md C10; log 37). Only `tick` reads it. -/
  spiClock  : SpiClocking
  deriving DecidableEq, Repr

/-- The parameters of State.reset: a ROM boot store, 1024 RAM words (20_memory.md R80), the standard CSR numbers.
DESIGN CHOICE where the spec leaves the value to the host (log 31). -/
def Config.default : Config :=
  { bootStore := .rom, flashBase := 0, ramWords := 1024, csrAddr := CsrAddr.standard, waitTicks := 1,
    spiClock := .edgePerTick }

/-- FREE VALUE. The bits that the ROM or RAM shifts in at the top of the word it returns for the given address:
"The bits shifted in at the top are not stated" (20_memory.md R86; 91_not_in_source.md N10: a cycle-level
model must not assume zero fill). No load keeps them. Only `tick` reads it (log 38). -/
opaque Config.shiftFill : Word → Word

/-- FREE VALUE. What the SPIFlashController's RESET state loads into the output data register at its first tick, applied to what the
register held: 70_reset_and_hazards.md R371 lists it as loaded there, and no rule gives the value. RX starts from 0 (20_memory.md
R94), so no flash read returns it. Only `tick` reads it (log 50). -/
opaque Config.spiResetData : Word → Word

end Sys2Proof
end

