-- ==== Sys2Proof/Syntax.lean ====
section
/-! DEFINITION. The instructions: one constructor per row of spec/opcode_table.json, in the table's order. -/

namespace Sys2Proof

/-- One constructor per row of spec/opcode_table.json. Operand fields are the encoding's own bits (30_encoding.md R132 to
R139): `imm` is the 12-bit I or S immediate or the 20-bit U immediate before extension, `offset` the 13-bit B
or 21-bit J byte offset, whose bit 0 must be 0 (WellFormed.lean). Fields the hardware does not examine are
kept, so that no bit of a word is lost. -/
inductive Instr where
  /-- LUI (R194). -/
  | lui (rd : RegIdx) (imm : BitVec 20)
  /-- AUIPC (R195). -/
  | auipc (rd : RegIdx) (imm : BitVec 20)
  /-- JAL (R242). -/
  | jal (rd : RegIdx) (offset : BitVec 21)
  /-- JALR (R243). -/
  | jalr (rd rs1 : RegIdx) (imm : BitVec 12)
  /-- BEQ (R244). -/
  | beq (rs1 rs2 : RegIdx) (offset : BitVec 13)
  /-- BNE (R245). -/
  | bne (rs1 rs2 : RegIdx) (offset : BitVec 13)
  /-- BLT (R246). -/
  | blt (rs1 rs2 : RegIdx) (offset : BitVec 13)
  /-- BGE (R247). -/
  | bge (rs1 rs2 : RegIdx) (offset : BitVec 13)
  /-- BLTU (R248). -/
  | bltu (rs1 rs2 : RegIdx) (offset : BitVec 13)
  /-- BGEU (R249). -/
  | bgeu (rs1 rs2 : RegIdx) (offset : BitVec 13)
  /-- LB (R265). -/
  | lb (rd rs1 : RegIdx) (imm : BitVec 12)
  /-- LH (R266). -/
  | lh (rd rs1 : RegIdx) (imm : BitVec 12)
  /-- LW (R267). -/
  | lw (rd rs1 : RegIdx) (imm : BitVec 12)
  /-- LBU (R268). -/
  | lbu (rd rs1 : RegIdx) (imm : BitVec 12)
  /-- LHU (R269). -/
  | lhu (rd rs1 : RegIdx) (imm : BitVec 12)
  /-- SB (R270). -/
  | sb (rs1 rs2 : RegIdx) (imm : BitVec 12)
  /-- SH (R271). -/
  | sh (rs1 rs2 : RegIdx) (imm : BitVec 12)
  /-- SW (R272). -/
  | sw (rs1 rs2 : RegIdx) (imm : BitVec 12)
  /-- ADDI (R196). -/
  | addi (rd rs1 : RegIdx) (imm : BitVec 12)
  /-- SLTI (R197). -/
  | slti (rd rs1 : RegIdx) (imm : BitVec 12)
  /-- SLTIU (R198). -/
  | sltiu (rd rs1 : RegIdx) (imm : BitVec 12)
  /-- XORI (R199). -/
  | xori (rd rs1 : RegIdx) (imm : BitVec 12)
  /-- ORI (R200). -/
  | ori (rd rs1 : RegIdx) (imm : BitVec 12)
  /-- ANDI (R201). -/
  | andi (rd rs1 : RegIdx) (imm : BitVec 12)
  /-- SLLI (R202). -/
  | slli (rd rs1 : RegIdx) (shamt : BitVec 5)
  /-- SRLI (R203). -/
  | srli (rd rs1 : RegIdx) (shamt : BitVec 5)
  /-- SRAI (R204). -/
  | srai (rd rs1 : RegIdx) (shamt : BitVec 5)
  /-- ADD (R205). -/
  | add (rd rs1 rs2 : RegIdx)
  /-- SUB (R206). -/
  | sub (rd rs1 rs2 : RegIdx)
  /-- SLL (R207). -/
  | sll (rd rs1 rs2 : RegIdx)
  /-- SLT (R208). -/
  | slt (rd rs1 rs2 : RegIdx)
  /-- SLTU (R209). -/
  | sltu (rd rs1 rs2 : RegIdx)
  /-- XOR (R210). -/
  | xor (rd rs1 rs2 : RegIdx)
  /-- SRL (R211). -/
  | srl (rd rs1 rs2 : RegIdx)
  /-- SRA (R212). -/
  | sra (rd rs1 rs2 : RegIdx)
  /-- OR (R213). -/
  | or (rd rs1 rs2 : RegIdx)
  /-- AND (R214). -/
  | and (rd rs1 rs2 : RegIdx)
  /-- FENCE (R273); no field is examined. -/
  | fence (fm pred succ : BitVec 4) (rs1 rd : RegIdx)
  /-- ECALL (R304); neither field is examined. -/
  | ecall (rd rs1 : RegIdx)
  /-- EBREAK (R305); neither field is examined. -/
  | ebreak (rd rs1 : RegIdx)
  /-- MRET (R306); neither field is examined. -/
  | mret (rd rs1 : RegIdx)
  /-- CSRRW (R297). -/
  | csrrw (rd : RegIdx) (csr : CsrNum) (rs1 : RegIdx)
  /-- CSRRS (R298). -/
  | csrrs (rd : RegIdx) (csr : CsrNum) (rs1 : RegIdx)
  /-- CSRRC (R299). -/
  | csrrc (rd : RegIdx) (csr : CsrNum) (rs1 : RegIdx)
  /-- CSRRWI (R300). -/
  | csrrwi (rd : RegIdx) (csr : CsrNum) (zimm : BitVec 5)
  /-- CSRRSI (R301). -/
  | csrrsi (rd : RegIdx) (csr : CsrNum) (zimm : BitVec 5)
  /-- CSRRCI (R302). -/
  | csrrci (rd : RegIdx) (csr : CsrNum) (zimm : BitVec 5)
  /-- csr_read_f000 (R303), funct3 000; rs1 is not used. -/
  | csrReadF000 (rd : RegIdx) (csr : CsrNum) (rs1 : RegIdx)
  /-- csr_read_f100 (R303), funct3 100; rs1 is not used. -/
  | csrReadF100 (rd : RegIdx) (csr : CsrNum) (rs1 : RegIdx)
  deriving DecidableEq, Repr

end Sys2Proof
end

