-- ==== Sys2Proof/WellFormed.lean ====
section
/-! DEFINITION. Which instruction terms are spelled by some word: branch and jump offsets are even, and the CSR-read form
of funct3 000 names none of the three numbers that ECALL, EBREAK and MRET take. -/

namespace Sys2Proof

/-- "a multiple of 2": bit 0 of a branch or jump offset is 0 (30_encoding.md R135, R137). -/
def evenOffset {n : Nat} (offset : BitVec n) : Bool := !offset.getLsbD 0

/-- The numbers that `inst[31:20]` selects ECALL, EBREAK and MRET by (30_encoding.md R147). -/
def isTrapSelector (csr : CsrNum) : Bool := csr == 0x000 || csr == 0x001 || csr == 0x302

/-- The check. Every other operand is a bit field of the width its encoding has. -/
def Instr.wellFormed : Instr → Bool
  | .jal _ offset => evenOffset offset
  | .beq _ _ offset | .bne _ _ offset | .blt _ _ offset
  | .bge _ _ offset | .bltu _ _ offset | .bgeu _ _ offset => evenOffset offset
  | .csrReadF000 _ csr _ => !isTrapSelector csr
  | .lui .. | .auipc .. | .jalr .. | .lb .. | .lh .. | .lw .. | .lbu .. | .lhu .. | .sb .. | .sh .. | .sw ..
  | .addi .. | .slti .. | .sltiu .. | .xori .. | .ori .. | .andi .. | .slli .. | .srli .. | .srai ..
  | .add .. | .sub .. | .sll .. | .slt .. | .sltu .. | .xor .. | .srl .. | .sra .. | .or .. | .and ..
  | .fence .. | .ecall .. | .ebreak .. | .mret ..
  | .csrrw .. | .csrrs .. | .csrrc .. | .csrrwi .. | .csrrsi .. | .csrrci .. | .csrReadF100 .. => true

end Sys2Proof
end

