-- ==== Sys2Proof/Decode.lean ====
section
/-! DEFINITION. The decoder, total on every word, refusing by stage; the encoder; the opcode table as rows of mask and match;
and the byte and table-word forms of the decoder. -/

namespace Sys2Proof

/-- Where decoding of a refused word stops (30_encoding.md R151). -/
inductive Stage where
  | opcode
  | funct3
  | funct7
  | shamt
  deriving DecidableEq, Repr

/-- A field laid at bit `lo` of an otherwise zero word of m bits: `{..}` of 00_scope.md R13 is the OR of its parts, each at
its place. -/
def place {n : Nat} (m lo : Nat) (v : BitVec n) : BitVec m := v.setWidth m <<< lo

/-! The fixed field positions (30_encoding.md R131, R139). `w.extractLsb' lo n` is the n bits of w from bit lo up
(00_scope.md R12). -/

/-- opcode[6:0]. -/
def opcodeOf (w : Word) : BitVec 7 := w.extractLsb' 0 7
/-- rd[11:7]. -/
def rdOf (w : Word) : RegIdx := w.extractLsb' 7 5
/-- funct3[14:12]. -/
def funct3Of (w : Word) : BitVec 3 := w.extractLsb' 12 3
/-- rs1[19:15]; the zimm field of the immediate CSR forms. -/
def rs1Of (w : Word) : RegIdx := w.extractLsb' 15 5
/-- rs2[24:20]; the shamt field of the immediate shifts. -/
def rs2Of (w : Word) : RegIdx := w.extractLsb' 20 5
/-- funct7[31:25]. -/
def funct7Of (w : Word) : BitVec 7 := w.extractLsb' 25 7
/-- csr = inst[31:20]. -/
def csrOf (w : Word) : CsrNum := w.extractLsb' 20 12

/-! The immediate bits of each format (30_encoding.md R132 to R137), before extension. -/

/-- inst[31:20]. -/
def immIOf (w : Word) : BitVec 12 := w.extractLsb' 20 12
/-- inst[31:25], inst[11:7]. -/
def immSOf (w : Word) : BitVec 12 := place 12 5 (w.extractLsb' 25 7) ||| place 12 0 (w.extractLsb' 7 5)
/-- inst[31], inst[7], inst[30:25], inst[11:8], 0. -/
def immBOf (w : Word) : BitVec 13 :=
  place 13 12 (w.extractLsb' 31 1) ||| place 13 11 (w.extractLsb' 7 1) ||| place 13 5 (w.extractLsb' 25 6)
    ||| place 13 1 (w.extractLsb' 8 4)
/-- inst[31:12]. -/
def immUOf (w : Word) : BitVec 20 := w.extractLsb' 12 20
/-- inst[31], inst[19:12], inst[20], inst[30:21], 0. -/
def immJOf (w : Word) : BitVec 21 :=
  place 21 20 (w.extractLsb' 31 1) ||| place 21 12 (w.extractLsb' 12 8) ||| place 21 11 (w.extractLsb' 20 1)
    ||| place 21 1 (w.extractLsb' 21 10)

/-- BRANCH by funct3 (30_encoding.md R143). -/
def decodeBranch (w : Word) : Except Stage Instr :=
  match funct3Of w with
  | 0b000#3 => .ok (.beq (rs1Of w) (rs2Of w) (immBOf w))
  | 0b001#3 => .ok (.bne (rs1Of w) (rs2Of w) (immBOf w))
  | 0b100#3 => .ok (.blt (rs1Of w) (rs2Of w) (immBOf w))
  | 0b101#3 => .ok (.bge (rs1Of w) (rs2Of w) (immBOf w))
  | 0b110#3 => .ok (.bltu (rs1Of w) (rs2Of w) (immBOf w))
  | 0b111#3 => .ok (.bgeu (rs1Of w) (rs2Of w) (immBOf w))
  | _ => .error .funct3

/-- LOAD by funct3 (30_encoding.md R144). -/
def decodeLoad (w : Word) : Except Stage Instr :=
  match funct3Of w with
  | 0b000#3 => .ok (.lb (rdOf w) (rs1Of w) (immIOf w))
  | 0b001#3 => .ok (.lh (rdOf w) (rs1Of w) (immIOf w))
  | 0b010#3 => .ok (.lw (rdOf w) (rs1Of w) (immIOf w))
  | 0b100#3 => .ok (.lbu (rdOf w) (rs1Of w) (immIOf w))
  | 0b101#3 => .ok (.lhu (rdOf w) (rs1Of w) (immIOf w))
  | _ => .error .funct3

/-- STORE by funct3 (30_encoding.md R145). -/
def decodeStore (w : Word) : Except Stage Instr :=
  match funct3Of w with
  | 0b000#3 => .ok (.sb (rs1Of w) (rs2Of w) (immSOf w))
  | 0b001#3 => .ok (.sh (rs1Of w) (rs2Of w) (immSOf w))
  | 0b010#3 => .ok (.sw (rs1Of w) (rs2Of w) (immSOf w))
  | _ => .error .funct3

/-- OP-IMM by funct3; for the shifts, by `inst[31:25]` too (30_encoding.md R141). -/
def decodeOpImm (w : Word) : Except Stage Instr :=
  match funct3Of w with
  | 0b000#3 => .ok (.addi (rdOf w) (rs1Of w) (immIOf w))
  | 0b010#3 => .ok (.slti (rdOf w) (rs1Of w) (immIOf w))
  | 0b011#3 => .ok (.sltiu (rdOf w) (rs1Of w) (immIOf w))
  | 0b100#3 => .ok (.xori (rdOf w) (rs1Of w) (immIOf w))
  | 0b110#3 => .ok (.ori (rdOf w) (rs1Of w) (immIOf w))
  | 0b111#3 => .ok (.andi (rdOf w) (rs1Of w) (immIOf w))
  | 0b001#3 =>
    match funct7Of w with
    | 0b0000000#7 => .ok (.slli (rdOf w) (rs1Of w) (rs2Of w))
    | _ => .error .shamt
  | _ =>
    match funct7Of w with
    | 0b0000000#7 => .ok (.srli (rdOf w) (rs1Of w) (rs2Of w))
    | 0b0100000#7 => .ok (.srai (rdOf w) (rs1Of w) (rs2Of w))
    | _ => .error .shamt

/-- OP by funct7 and funct3 (30_encoding.md R142). -/
def decodeOp (w : Word) : Except Stage Instr :=
  match funct7Of w with
  | 0b0000000#7 =>
    match funct3Of w with
    | 0b000#3 => .ok (.add (rdOf w) (rs1Of w) (rs2Of w))
    | 0b001#3 => .ok (.sll (rdOf w) (rs1Of w) (rs2Of w))
    | 0b010#3 => .ok (.slt (rdOf w) (rs1Of w) (rs2Of w))
    | 0b011#3 => .ok (.sltu (rdOf w) (rs1Of w) (rs2Of w))
    | 0b100#3 => .ok (.xor (rdOf w) (rs1Of w) (rs2Of w))
    | 0b101#3 => .ok (.srl (rdOf w) (rs1Of w) (rs2Of w))
    | 0b110#3 => .ok (.or (rdOf w) (rs1Of w) (rs2Of w))
    | _ => .ok (.and (rdOf w) (rs1Of w) (rs2Of w))
  | 0b0100000#7 =>
    match funct3Of w with
    | 0b000#3 => .ok (.sub (rdOf w) (rs1Of w) (rs2Of w))
    | 0b101#3 => .ok (.sra (rdOf w) (rs1Of w) (rs2Of w))
    | _ => .error .funct7
  | _ => .error .funct7

/-- MISC-MEM: funct3 000 is FENCE, its other fields ignored (30_encoding.md R146). -/
def decodeMiscMem (w : Word) : Except Stage Instr :=
  match funct3Of w with
  | 0b000#3 => .ok (.fence (w.extractLsb' 28 4) (w.extractLsb' 24 4) (w.extractLsb' 20 4) (rs1Of w) (rdOf w))
  | _ => .error .funct3

/-- SYSTEM (30_encoding.md R147): no word of it is refused (R151). -/
def decodeSystem (w : Word) : Instr :=
  match funct3Of w with
  | 0b000#3 =>
    match csrOf w with
    | 0x000#12 => .ecall (rdOf w) (rs1Of w)
    | 0x001#12 => .ebreak (rdOf w) (rs1Of w)
    | 0x302#12 => .mret (rdOf w) (rs1Of w)
    | _ => .csrReadF000 (rdOf w) (csrOf w) (rs1Of w)
  | 0b001#3 => .csrrw (rdOf w) (csrOf w) (rs1Of w)
  | 0b010#3 => .csrrs (rdOf w) (csrOf w) (rs1Of w)
  | 0b011#3 => .csrrc (rdOf w) (csrOf w) (rs1Of w)
  | 0b100#3 => .csrReadF100 (rdOf w) (csrOf w) (rs1Of w)
  | 0b101#3 => .csrrwi (rdOf w) (csrOf w) (rs1Of w)
  | 0b110#3 => .csrrsi (rdOf w) (csrOf w) (rs1Of w)
  | _ => .csrrci (rdOf w) (csrOf w) (rs1Of w)

/-- The decoder, by major opcode (30_encoding.md R140), total on every word. A word outside R140 to R147 is refused by the
stage that R151 names. -/
def decodeWord (w : Word) : Except Stage Instr :=
  match opcodeOf w with
  | 0b0110111#7 => .ok (.lui (rdOf w) (immUOf w))
  | 0b0010111#7 => .ok (.auipc (rdOf w) (immUOf w))
  | 0b0010011#7 => decodeOpImm w
  | 0b0110011#7 => decodeOp w
  | 0b1101111#7 => .ok (.jal (rdOf w) (immJOf w))
  | 0b1100111#7 =>
    match funct3Of w with
    | 0b000#3 => .ok (.jalr (rdOf w) (rs1Of w) (immIOf w))
    | _ => .error .funct3
  | 0b1100011#7 => decodeBranch w
  | 0b0000011#7 => decodeLoad w
  | 0b0100011#7 => decodeStore w
  | 0b0001111#7 => decodeMiscMem w
  | 0b1110011#7 => .ok (decodeSystem w)
  | _ => .error .opcode

/-! The encoder, from the six formats (30_encoding.md R132). -/

/-- R format. -/
def encodeR (funct7 : BitVec 7) (funct3 : BitVec 3) (opcode : BitVec 7) (rd rs1 rs2 : RegIdx) : Word :=
  place 32 25 funct7 ||| place 32 20 rs2 ||| place 32 15 rs1 ||| place 32 12 funct3 ||| place 32 7 rd ||| place 32 0 opcode

/-- I format. -/
def encodeI (funct3 : BitVec 3) (opcode : BitVec 7) (rd rs1 : RegIdx) (imm : BitVec 12) : Word :=
  place 32 20 imm ||| place 32 15 rs1 ||| place 32 12 funct3 ||| place 32 7 rd ||| place 32 0 opcode

/-- S format: imm[11:5] at 31:25, imm[4:0] at 11:7. -/
def encodeS (funct3 : BitVec 3) (opcode : BitVec 7) (rs1 rs2 : RegIdx) (imm : BitVec 12) : Word :=
  place 32 25 (imm.extractLsb' 5 7) ||| place 32 20 rs2 ||| place 32 15 rs1 ||| place 32 12 funct3
    ||| place 32 7 (imm.extractLsb' 0 5) ||| place 32 0 opcode

/-- B format: imm[12] at 31, imm[10:5] at 30:25, imm[4:1] at 11:8, imm[11] at 7. -/
def encodeB (funct3 : BitVec 3) (opcode : BitVec 7) (rs1 rs2 : RegIdx) (offset : BitVec 13) : Word :=
  place 32 31 (offset.extractLsb' 12 1) ||| place 32 25 (offset.extractLsb' 5 6) ||| place 32 20 rs2 ||| place 32 15 rs1
    ||| place 32 12 funct3 ||| place 32 8 (offset.extractLsb' 1 4) ||| place 32 7 (offset.extractLsb' 11 1)
    ||| place 32 0 opcode

/-- U format. -/
def encodeU (opcode : BitVec 7) (rd : RegIdx) (imm : BitVec 20) : Word :=
  place 32 12 imm ||| place 32 7 rd ||| place 32 0 opcode

/-- J format: imm[20] at 31, imm[10:1] at 30:21, imm[11] at 20, imm[19:12] at 19:12. -/
def encodeJ (opcode : BitVec 7) (rd : RegIdx) (offset : BitVec 21) : Word :=
  place 32 31 (offset.extractLsb' 20 1) ||| place 32 21 (offset.extractLsb' 1 10) ||| place 32 20 (offset.extractLsb' 11 1)
    ||| place 32 12 (offset.extractLsb' 12 8) ||| place 32 7 rd ||| place 32 0 opcode

/-- The word of an instruction (30_encoding.md R140 to R147). It spells the instruction back only for a well-formed one:
bit 0 of a branch or jump offset has no place in a word. -/
def encode : Instr → Word
  | .lui rd imm => encodeU 0b0110111 rd imm
  | .auipc rd imm => encodeU 0b0010111 rd imm
  | .jal rd offset => encodeJ 0b1101111 rd offset
  | .jalr rd rs1 imm => encodeI 0b000 0b1100111 rd rs1 imm
  | .beq rs1 rs2 offset => encodeB 0b000 0b1100011 rs1 rs2 offset
  | .bne rs1 rs2 offset => encodeB 0b001 0b1100011 rs1 rs2 offset
  | .blt rs1 rs2 offset => encodeB 0b100 0b1100011 rs1 rs2 offset
  | .bge rs1 rs2 offset => encodeB 0b101 0b1100011 rs1 rs2 offset
  | .bltu rs1 rs2 offset => encodeB 0b110 0b1100011 rs1 rs2 offset
  | .bgeu rs1 rs2 offset => encodeB 0b111 0b1100011 rs1 rs2 offset
  | .lb rd rs1 imm => encodeI 0b000 0b0000011 rd rs1 imm
  | .lh rd rs1 imm => encodeI 0b001 0b0000011 rd rs1 imm
  | .lw rd rs1 imm => encodeI 0b010 0b0000011 rd rs1 imm
  | .lbu rd rs1 imm => encodeI 0b100 0b0000011 rd rs1 imm
  | .lhu rd rs1 imm => encodeI 0b101 0b0000011 rd rs1 imm
  | .sb rs1 rs2 imm => encodeS 0b000 0b0100011 rs1 rs2 imm
  | .sh rs1 rs2 imm => encodeS 0b001 0b0100011 rs1 rs2 imm
  | .sw rs1 rs2 imm => encodeS 0b010 0b0100011 rs1 rs2 imm
  | .addi rd rs1 imm => encodeI 0b000 0b0010011 rd rs1 imm
  | .slti rd rs1 imm => encodeI 0b010 0b0010011 rd rs1 imm
  | .sltiu rd rs1 imm => encodeI 0b011 0b0010011 rd rs1 imm
  | .xori rd rs1 imm => encodeI 0b100 0b0010011 rd rs1 imm
  | .ori rd rs1 imm => encodeI 0b110 0b0010011 rd rs1 imm
  | .andi rd rs1 imm => encodeI 0b111 0b0010011 rd rs1 imm
  | .slli rd rs1 shamt => encodeR 0b0000000 0b001 0b0010011 rd rs1 shamt
  | .srli rd rs1 shamt => encodeR 0b0000000 0b101 0b0010011 rd rs1 shamt
  | .srai rd rs1 shamt => encodeR 0b0100000 0b101 0b0010011 rd rs1 shamt
  | .add rd rs1 rs2 => encodeR 0b0000000 0b000 0b0110011 rd rs1 rs2
  | .sub rd rs1 rs2 => encodeR 0b0100000 0b000 0b0110011 rd rs1 rs2
  | .sll rd rs1 rs2 => encodeR 0b0000000 0b001 0b0110011 rd rs1 rs2
  | .slt rd rs1 rs2 => encodeR 0b0000000 0b010 0b0110011 rd rs1 rs2
  | .sltu rd rs1 rs2 => encodeR 0b0000000 0b011 0b0110011 rd rs1 rs2
  | .xor rd rs1 rs2 => encodeR 0b0000000 0b100 0b0110011 rd rs1 rs2
  | .srl rd rs1 rs2 => encodeR 0b0000000 0b101 0b0110011 rd rs1 rs2
  | .sra rd rs1 rs2 => encodeR 0b0100000 0b101 0b0110011 rd rs1 rs2
  | .or rd rs1 rs2 => encodeR 0b0000000 0b110 0b0110011 rd rs1 rs2
  | .and rd rs1 rs2 => encodeR 0b0000000 0b111 0b0110011 rd rs1 rs2
  | .fence fm pred succ rs1 rd => encodeI 0b000 0b0001111 rd rs1 (place 12 8 fm ||| place 12 4 pred ||| place 12 0 succ)
  | .ecall rd rs1 => encodeI 0b000 0b1110011 rd rs1 0x000
  | .ebreak rd rs1 => encodeI 0b000 0b1110011 rd rs1 0x001
  | .mret rd rs1 => encodeI 0b000 0b1110011 rd rs1 0x302
  | .csrrw rd csr rs1 => encodeI 0b001 0b1110011 rd rs1 csr
  | .csrrs rd csr rs1 => encodeI 0b010 0b1110011 rd rs1 csr
  | .csrrc rd csr rs1 => encodeI 0b011 0b1110011 rd rs1 csr
  | .csrrwi rd csr zimm => encodeI 0b101 0b1110011 rd zimm csr
  | .csrrsi rd csr zimm => encodeI 0b110 0b1110011 rd zimm csr
  | .csrrci rd csr zimm => encodeI 0b111 0b1110011 rd zimm csr
  | .csrReadF000 rd csr rs1 => encodeI 0b000 0b1110011 rd rs1 csr
  | .csrReadF100 rd csr rs1 => encodeI 0b100 0b1110011 rd rs1 csr

/-! The opcode table itself: spec/opcode_table.json's mask and match, in its order. The decoder above does not use it: a
statement says that the two agree (30_encoding.md R149). -/

/-- One row of spec/opcode_table.json: `(word & mask) = pattern`. -/
structure Row where
  mnemonic : String
  mask     : Word
  pattern  : Word
  deriving DecidableEq, Repr

/-- Rows lui to bgeu. -/
def tableTransfers : List Row :=
  [⟨"lui", 0x0000007F, 0x00000037⟩, ⟨"auipc", 0x0000007F, 0x00000017⟩, ⟨"jal", 0x0000007F, 0x0000006F⟩,
   ⟨"jalr", 0x0000707F, 0x00000067⟩, ⟨"beq", 0x0000707F, 0x00000063⟩, ⟨"bne", 0x0000707F, 0x00001063⟩,
   ⟨"blt", 0x0000707F, 0x00004063⟩, ⟨"bge", 0x0000707F, 0x00005063⟩, ⟨"bltu", 0x0000707F, 0x00006063⟩,
   ⟨"bgeu", 0x0000707F, 0x00007063⟩]

/-- Rows lb to sw. -/
def tableMemory : List Row :=
  [⟨"lb", 0x0000707F, 0x00000003⟩, ⟨"lh", 0x0000707F, 0x00001003⟩, ⟨"lw", 0x0000707F, 0x00002003⟩,
   ⟨"lbu", 0x0000707F, 0x00004003⟩, ⟨"lhu", 0x0000707F, 0x00005003⟩, ⟨"sb", 0x0000707F, 0x00000023⟩,
   ⟨"sh", 0x0000707F, 0x00001023⟩, ⟨"sw", 0x0000707F, 0x00002023⟩]

/-- Rows addi to srai. -/
def tableOpImm : List Row :=
  [⟨"addi", 0x0000707F, 0x00000013⟩, ⟨"slti", 0x0000707F, 0x00002013⟩, ⟨"sltiu", 0x0000707F, 0x00003013⟩,
   ⟨"xori", 0x0000707F, 0x00004013⟩, ⟨"ori", 0x0000707F, 0x00006013⟩, ⟨"andi", 0x0000707F, 0x00007013⟩,
   ⟨"slli", 0xFE00707F, 0x00001013⟩, ⟨"srli", 0xFE00707F, 0x00005013⟩, ⟨"srai", 0xFE00707F, 0x40005013⟩]

/-- Rows add to and. -/
def tableOp : List Row :=
  [⟨"add", 0xFE00707F, 0x00000033⟩, ⟨"sub", 0xFE00707F, 0x40000033⟩, ⟨"sll", 0xFE00707F, 0x00001033⟩,
   ⟨"slt", 0xFE00707F, 0x00002033⟩, ⟨"sltu", 0xFE00707F, 0x00003033⟩, ⟨"xor", 0xFE00707F, 0x00004033⟩,
   ⟨"srl", 0xFE00707F, 0x00005033⟩, ⟨"sra", 0xFE00707F, 0x40005033⟩, ⟨"or", 0xFE00707F, 0x00006033⟩,
   ⟨"and", 0xFE00707F, 0x00007033⟩]

/-- Rows fence to csr_read_f100. -/
def tableSystem : List Row :=
  [⟨"fence", 0x0000707F, 0x0000000F⟩, ⟨"ecall", 0xFFF0707F, 0x00000073⟩, ⟨"ebreak", 0xFFF0707F, 0x00100073⟩,
   ⟨"mret", 0xFFF0707F, 0x30200073⟩, ⟨"csrrw", 0x0000707F, 0x00001073⟩, ⟨"csrrs", 0x0000707F, 0x00002073⟩,
   ⟨"csrrc", 0x0000707F, 0x00003073⟩, ⟨"csrrwi", 0x0000707F, 0x00005073⟩, ⟨"csrrsi", 0x0000707F, 0x00006073⟩,
   ⟨"csrrci", 0x0000707F, 0x00007073⟩, ⟨"csr_read_f000", 0x0000707F, 0x00000073⟩,
   ⟨"csr_read_f100", 0x0000707F, 0x00004073⟩]

/-- spec/opcode_table.json, its 49 rows in its order. -/
def opcodeTable : List Row := tableTransfers ++ tableMemory ++ tableOpImm ++ tableOp ++ tableSystem

/-- "(word & mask) = match" (30_encoding.md R149). -/
def Row.covers (r : Row) (w : Word) : Bool := (w &&& r.mask) == r.pattern

/-- The mnemonic of the first row that covers the word (30_encoding.md R149). -/
def firstRow (w : Word) : Option String := (opcodeTable.find? (·.covers w)).map (·.mnemonic)

/-- A constructor's mnemonic in spec/opcode_table.json. -/
def Instr.mnemonic : Instr → String
  | .lui .. => "lui" | .auipc .. => "auipc" | .jal .. => "jal" | .jalr .. => "jalr"
  | .beq .. => "beq" | .bne .. => "bne" | .blt .. => "blt" | .bge .. => "bge" | .bltu .. => "bltu" | .bgeu .. => "bgeu"
  | .lb .. => "lb" | .lh .. => "lh" | .lw .. => "lw" | .lbu .. => "lbu" | .lhu .. => "lhu"
  | .sb .. => "sb" | .sh .. => "sh" | .sw .. => "sw"
  | .addi .. => "addi" | .slti .. => "slti" | .sltiu .. => "sltiu" | .xori .. => "xori" | .ori .. => "ori" | .andi .. => "andi"
  | .slli .. => "slli" | .srli .. => "srli" | .srai .. => "srai"
  | .add .. => "add" | .sub .. => "sub" | .sll .. => "sll" | .slt .. => "slt" | .sltu .. => "sltu" | .xor .. => "xor"
  | .srl .. => "srl" | .sra .. => "sra" | .or .. => "or" | .and .. => "and"
  | .fence .. => "fence" | .ecall .. => "ecall" | .ebreak .. => "ebreak" | .mret .. => "mret"
  | .csrrw .. => "csrrw" | .csrrs .. => "csrrs" | .csrrc .. => "csrrc"
  | .csrrwi .. => "csrrwi" | .csrrsi .. => "csrrsi" | .csrrci .. => "csrrci"
  | .csrReadF000 .. => "csr_read_f000" | .csrReadF100 .. => "csr_read_f100"

/-! Words as bytes: "An instruction's bit 0 is bit 0 of the byte at the lowest address" (20_memory.md R103). -/

/-- The four bytes of a word, least significant first. -/
def wordBytes (w : Word) : List Byte :=
  [w.extractLsb' 0 8, w.extractLsb' 8 8, w.extractLsb' 16 8, w.extractLsb' 24 8]

/-- The word whose least significant byte is `b0`. -/
def wordOfBytes (b0 b1 b2 b3 : Byte) : Word :=
  place 32 24 b3 ||| place 32 16 b2 ||| place 32 8 b1 ||| place 32 0 b0

/-- Why a byte sequence gives no instruction. -/
inductive DecodeError where
  /-- Fewer than the four bytes every instruction has (30_encoding.md R130). -/
  | truncated
  /-- A word that is no row (30_encoding.md R151). -/
  | unenumerated (stage : Stage)
  deriving DecidableEq, Repr

/-- The decoder on bytes: the first four spell the instruction, the rest is returned (30_encoding.md R130). -/
def decodeBytes : List Byte → Except DecodeError (Instr × List Byte)
  | b0 :: b1 :: b2 :: b3 :: rest =>
    match decodeWord (wordOfBytes b0 b1 b2 b3) with
    | .ok i => .ok (i, rest)
    | .error stage => .error (.unenumerated stage)
  | _ => .error .truncated

/-- The instruction the decoder reads from a table row's bits: `w` below bit `nbits`, 0 above, laid out as the hardware
stores it. -/
def decodeTableWord (nbits w : Nat) : Option Instr :=
  match decodeBytes (wordBytes (BitVec.ofNat 32 (w % 2 ^ nbits))) with
  | .ok (i, _) => some i
  | .error _ => none

end Sys2Proof
end

