-- ==== Sys2Proof/Machine/State.lean ====
section
/-! DEFINITION. The state of the core as plain data, all the spec gives it, and the state after reset. Also the reasons a step
can stop. -/

namespace Sys2Proof.Machine

/-! ## Stores -/

/-- The bytes of a store, by address: addresses strictly rising, no entry equal to what an unlisted address reads as
(`Memory.wf`). -/
abbrev Memory := List Host.Cell

/-! ## The CSR bank, field by field (10_state.md R41 to R47) -/

/-- mstatus (R42). -/
structure Mstatus where
  /-- bit 3, RW. -/
  mie  : BitVec 1
  /-- bit 7, RO: nothing writes it. -/
  mpie : BitVec 1
  deriving DecidableEq, Repr

/-- mtvec (R43). -/
structure Mtvec where
  /-- bit 0, RW: 0 direct, 1 vectored. -/
  mode : BitVec 1
  /-- bits 31:2, RW: the handler address divided by 4. -/
  base : BitVec 30
  deriving DecidableEq, Repr

/-- mepc (R44). -/
structure Mepc where
  /-- bits 31:2, RW: a word address; bits 1:0 are hardwired 0. -/
  epc : BitVec 30
  deriving DecidableEq, Repr

/-- mcause (R45). -/
structure Mcause where
  /-- bit 31, RW. -/
  interrupt : BitVec 1
  /-- bits 30:0, RW. -/
  ecode     : BitVec 31
  deriving DecidableEq, Repr

/-- mtval (R46). -/
structure Mtval where
  /-- bits 31:0, RW. -/
  einfo : BitVec 32
  deriving DecidableEq, Repr

/-- minstret (R47). -/
structure Minstret where
  /-- bits 15:0, RW: counts instruction fetches. -/
  instrs : BitVec 16
  deriving DecidableEq, Repr

/-- The six registers of the CSRFile (R40). -/
structure CsrBank where
  mstatus  : Mstatus
  mtvec    : Mtvec
  mepc     : Mepc
  mcause   : Mcause
  mtval    : Mtval
  minstret : Minstret
  deriving DecidableEq, Repr

/-! ## Traps -/

/-- The cause codes the hardware defines (60_exceptions.md R331, R332). -/
inductive Cause where
  /-- code 1, raised by FETCH. -/
  | instructionAddressMisaligned
  /-- code 2, "defined but never raised" (R332). -/
  | illegalInstruction
  /-- code 3, raised by EBREAK. -/
  | breakpoint
  /-- code 4, raised by LH, LHU, LW. -/
  | loadAddressMisaligned
  /-- code 6, raised by SH, SW. -/
  | storeAddressMisaligned
  /-- code 11, raised by ECALL. -/
  | environmentCall
  deriving DecidableEq, Repr

/-- What the ExecutionUnit carries to TRAP_ENTRY (10_state.md R52, 60_exceptions.md R335). -/
structure TrapContext where
  cause      : Cause
  faultingPc : Word
  deriving DecidableEq, Repr

/-! ## Microarchitectural state (10_state.md section 6) -/

/-- The ExecutionUnit's states (40_execution_cycle.md R170). The trap context exists only in TRAP_ENTRY, which consumes
it. -/
inductive EuState where
  | fetch
  | fetchWait
  | decodeExecute
  | memWait
  | trapEntry (context : TrapContext)
  deriving DecidableEq, Repr

/-- The ExecutionUnit's own registers, beside pc and the register file (10_state.md R52). -/
structure ExecUnit where
  state   : EuState
  /-- the instruction latch. -/
  ir      : Word
  /-- the 2-bit wait counter. -/
  waitCnt : BitVec 2
  deriving DecidableEq, Repr

/-- The two buses (20_memory.md R71). -/
inductive BusName where
  | instruction
  | data
  deriving DecidableEq, Repr

/-- The signals of one bus (20_memory.md R71). The ExecutionUnit drives all but `acknowledge` and `dataOut`, which the
store drives; `dataIn` is the store data, `dataOut` the word read. -/
structure Bus where
  cycle       : Bool
  strobe      : Bool
  acknowledge : Bool
  writeEnable : Bool
  address     : Word
  dataIn      : Word
  dataOut     : Word
  width       : Width
  deriving DecidableEq, Repr

/-- The SPIFlashController's states (20_memory.md R90). -/
inductive SpiState where
  | reset
  | powerup
  | waiting
  | tx
  | rx
  deriving DecidableEq, Repr

/-- The SPIFlashController (10_state.md R53). -/
structure SpiController where
  state     : SpiState
  /-- the 32-bit shift-out register. -/
  shift     : Word
  /-- the tick counter. -/
  countdown : Nat
  /-- the output data register. -/
  data      : Word
  /-- `spi_cs`: true means the flash is selected (20_memory.md R90). -/
  cs        : Bool
  /-- `spi_clk`: low while the controller does not clock (log 37). -/
  clk       : Bool
  /-- `spi_mosi`. -/
  mosi      : Bool
  deriving DecidableEq, Repr

/-- The serial flash device as far as its answers need it (20_memory.md R96): the bits it has received since it was
selected. The MODEL's own state of a device outside the core (log 39). -/
structure FlashDevice where
  /-- the last 32 bits received. -/
  command : Word
  /-- serial clock ticks since it was selected. -/
  bits    : Nat
  deriving DecidableEq, Repr

/-- State no program can observe but through timing (10_state.md R52, R53, 70_reset_and_hazards.md R371). -/
structure Micro where
  eu       : ExecUnit
  ibus     : Bus
  dbus     : Bus
  /-- the RAM's acknowledge counter, 0 idle (20_memory.md R84). -/
  ramAck   : Nat
  /-- the ROM's acknowledge counter, 0 idle (20_memory.md R88). -/
  romAck   : Nat
  spi      : SpiController
  flashDev : FlashDevice
  deriving DecidableEq, Repr

/-! ## The state -/

/-- The whole state. INVENTORY.md lists every piece with its rule and its reset value. -/
structure State where
  /-- x0 to x31 (10_state.md R30); read and written only by `getReg` and `setReg`. -/
  regs   : Vector Word 32
  /-- the program counter (R35). -/
  pc     : Word
  /-- the CSR bank (R40). -/
  csr    : CsrBank
  /-- the ROM image and the RAM, by bus address (20_memory.md R75). -/
  mem    : Memory
  /-- the flash device's bytes, by 24-bit flash address (20_memory.md R97). -/
  flash  : Memory
  /-- the construction parameters (00_scope.md R11). -/
  config : Config
  /-- microarchitectural state (10_state.md section 6). -/
  micro  : Micro
  deriving DecidableEq, Repr

/-! ## How a step can stop (00_scope.md R17, R18) -/

/-- The machine stops. -/
inductive Fault where
  /-- `Hang(NoResponder)`, exact: raised by a fetch, load or store at 0x40000000 or above, where "no acknowledge ever
  arrives" and the core waits for ever (20_memory.md R79). A stuck state: safe (log 28). -/
  | hangNoResponder
  /-- `ModelFault(RamOutOfRange)`: raised by a fetch, load or store past the RAM array (R83). Safe (log 13). -/
  | ramOutOfRange
  /-- `ModelFault(RomOutOfRange)`: raised by a fetch or load past the ROM image (R87). Safe (log 14). -/
  | romOutOfRange
  /-- `ModelFault(FlashOutOfRange)`: raised by a fetch or load past the flash image (R97). Safe (log 23). -/
  | flashOutOfRange
  /-- `ModelFault(StoreToBootStore)`: raised by a store to the boot region (R89). Safe (log 15). -/
  | storeToBootStore
  /-- `ModelFault(SpiCycleWithdrawn)`: raised only by `tick`, where the bus cycle is withdrawn during a flash read (R98);
  the ExecutionUnit never does so. Safe (log 17). -/
  | spiCycleWithdrawn
  deriving DecidableEq, Repr

/-- The model gives the instruction no meaning. -/
inductive Refusal where
  /-- An instruction of the table that has no meaning yet: raised by no arm of `exec` here. Safe. -/
  | notModelled (mnemonic : String)
  /-- `Refused(Unenumerated(stage))`: raised by a fetched word that is no row of the table (30_encoding.md R151). Safe
  (log 6). -/
  | unenumerated (stage : Stage)
  deriving DecidableEq, Repr

/-- What a step or an instruction ends in. -/
abbrev Result := Host.Outcome State Fault Refusal

/-! ## Reset (70_reset_and_hazards.md R371) -/

/-- Every CSR field 0 (R371, the spec's decision D2; log 1). -/
def CsrBank.reset : CsrBank :=
  { mstatus := { mie := 0, mpie := 0 }, mtvec := { mode := 0, base := 0 }, mepc := { epc := 0 },
    mcause := { interrupt := 0, ecode := 0 }, mtval := { einfo := 0 }, minstret := { instrs := 0 } }

/-- No transaction outstanding (R371). The other lines DESIGN CHOICE 0 (log 33). -/
def Bus.idle : Bus :=
  { cycle := false, strobe := false, acknowledge := false, writeEnable := false, address := 0, dataIn := 0, dataOut := 0,
    width := .word }

/-- RESET, chip-select asserted (R371). The registers that RESET's first tick loads: DESIGN CHOICE 0 (log 33). -/
def SpiController.reset : SpiController :=
  { state := .reset, shift := 0, countdown := 0, data := 0, cs := true, clk := false, mosi := false }

/-- A flash device that has received nothing (log 39). -/
def FlashDevice.idle : FlashDevice := { command := 0, bits := 0 }

/-- FETCH, no trap pending, buses and counters idle (R371). `ir` DESIGN CHOICE 0 (log 33). -/
def Micro.reset : Micro :=
  { eu := { state := .fetch, ir := 0, waitCnt := 0 }, ibus := .idle, dbus := .idle, ramAck := 0, romAck := 0,
    spi := .reset, flashDev := .idle }

/-- The machine right after reset: pc and every general register 0 (10_state.md R34, R38), the rest as R371 says, with the
default parameters (log 31), no ROM or flash image loaded (log 30) and no RAM byte listed (log 29). -/
def State.reset : State :=
  { regs := Vector.replicate 32 0, pc := 0, csr := .reset, mem := [], flash := [], config := .default, micro := .reset }

end Sys2Proof.Machine
end

