-- ==== Sys2Proof/Machine/Ops.lean ====
section
/-! DEFINITION. The shared operations: registers, the stores and their bytes, the router, `MemRead`, `MemWrite` and `Fetch`,
taking a trap and returning from one. -/

namespace Sys2Proof.Machine

/-! ## Registers (10_state.md R31, 00_scope.md R14) -/

/-- `x[i]`: "register index 0 always reads 0". -/
def getReg (s : State) (i : RegIdx) : Word := if i = 0 then 0 else s.regs[i.toNat]'i.isLt

/-- `x[i] <- v`: "writes to index 0 are silently discarded". -/
def setReg (s : State) (i : RegIdx) (v : Word) : State :=
  if i = 0 then s else { s with regs := s.regs.set i.toNat v i.isLt }

/-- `pc <- t`. -/
def setPc (s : State) (t : Word) : State := { s with pc := t }

/-- `pc <- pc + 4`, modulo 2^32 (R36). -/
def advance (s : State) : State := setPc s (s.pc + 4)

/-! ## Bytes in a store -/

/-- The base of the RAM region (20_memory.md R75). -/
def ramBase : Nat := 0x20000000

/-- The first address that no region holds (20_memory.md R75). -/
def regionsEnd : Nat := 0x40000000

/-- What an address that a store does not list reads as: 0 in the RAM region (DESIGN CHOICE, log 29), no value elsewhere,
so that a read past the ROM or flash image faults (log 30). -/
def Memory.unlisted (a : Nat) : Option Byte := if ramBase ≤ a ∧ a < regionsEnd then some 0 else none

/-- The canonical form: addresses strictly rising, no entry equal to what its address reads as unlisted. -/
abbrev Memory.wf (m : Memory) : Prop :=
  m.Pairwise (fun c d => c.1 < d.1) ∧ ∀ c ∈ m, Memory.unlisted c.1 ≠ some c.2

/-- The byte at an address, if it has a value. -/
def Memory.readByte : Memory → Nat → Option Byte
  | [], a => Memory.unlisted a
  | (k, b) :: rest, a => if k = a then some b else Memory.readByte rest a

/-- List a byte at an address, in order. -/
def Memory.put : Memory → Nat → Byte → Memory
  | [], a, b => [(a, b)]
  | (k, c) :: rest, a, b =>
    if a < k then (a, b) :: (k, c) :: rest
    else if a = k then (a, b) :: rest
    else (k, c) :: Memory.put rest a b

/-- Take an address off the list. -/
def Memory.remove : Memory → Nat → Memory
  | [], _ => []
  | (k, c) :: rest, a => if k = a then rest else (k, c) :: Memory.remove rest a

/-- Write one byte, keeping the canonical form. -/
def Memory.writeByte (m : Memory) (a : Nat) (b : Byte) : Memory :=
  if Memory.unlisted a = some b then m.remove a else m.put a b

/-- Write bytes at successive addresses from `a`. -/
def Memory.writeBytes : Memory → Nat → List Byte → Memory
  | m, _, [] => m
  | m, a, b :: rest => Memory.writeBytes (m.writeByte a b) (a + 1) rest

/-- The word whose bytes, least significant first, are at the four addresses (20_memory.md R103). -/
def Memory.wordAt (m : Memory) (a0 a1 a2 a3 : Nat) : Option Word :=
  match m.readByte a0, m.readByte a1, m.readByte a2, m.readByte a3 with
  | some b0, some b1, some b2, some b3 => some (wordOfBytes b0 b1 b2 b3)
  | _, _, _, _ => none

/-- The word at four successive addresses. -/
def Memory.wordFrom (m : Memory) (a : Nat) : Option Word := m.wordAt a (a + 1) (a + 2) (a + 3)

/-! ## The MemoryRouter (20_memory.md R75 to R79) -/

/-- What a region's accesses go to. -/
inductive RegionStore where
  | boot
  | ram
  deriving DecidableEq, Repr

/-- One row of the router's "ordered table of (base address, size, store)" (R76). -/
structure Region where
  base  : Nat
  size  : Nat
  store : RegionStore
  deriving DecidableEq, Repr

/-- The table of each bus; both hold the same two regions (R75, R76, the spec's decision D16; log 16). -/
def regionTable : BusName → List Region
  | .instruction => [⟨0x00000000, 0x20000000, .boot⟩, ⟨0x20000000, 0x20000000, .ram⟩]
  | .data => [⟨0x00000000, 0x20000000, .boot⟩, ⟨0x20000000, 0x20000000, .ram⟩]

/-- The bus slave that serves a region (R75, `BOOT_STORE`). -/
inductive Backing where
  | rom
  | flash
  | ram
  deriving DecidableEq, Repr

/-- The slave behind a region's store. -/
def backing (c : Config) : RegionStore → Backing
  | .ram => .ram
  | .boot => match c.bootStore with
    | .rom => .rom
    | .flash => .flash

/-- `route(bus, address)`: the slave and the local offset, for the region with `base <= address < base + size` (R77). -/
def route (c : Config) (bus : BusName) (a : Word) : Option (Backing × Nat) :=
  ((regionTable bus).find? fun r => decide (r.base ≤ a.toNat ∧ a.toNat < r.base + r.size)).map
    fun r => (backing c r.store, a.toNat - r.base)

/-! ## Reading a store -/

/-- Bytes in an access of a width (R73). -/
def Width.bytes : Width → Nat
  | .byte => 1
  | .half => 2
  | .word => 4

/-- `A`: the 24-bit flash address of a boot-region offset (R93, R97). -/
def flashAddress (c : Config) (offset : Nat) : Nat := (offset + c.flashBase.toNat) % 2 ^ 24

/-- The word at a flash address: four successive bytes, each address modulo 2^24, the first in bits 7:0 (R96, R97). -/
def flashWord (flash : Memory) (A : Nat) : Option Word :=
  flash.wordAt (A % 2 ^ 24) ((A + 1) % 2 ^ 24) ((A + 2) % 2 ^ 24) ((A + 3) % 2 ^ 24)

/-- The whole store word that holds a local offset: RAM word `o >> 2` below `RAM_WORDS` (R80, R83), ROM word `o >> 2` of
the image (R86, R87), or the flash word from the offset itself (R97, R99). -/
def storeWord (s : State) : Backing → Nat → Except Fault Word
  | .ram, o =>
    if s.config.ramWords ≤ o / 4 then .error .ramOutOfRange
    else match s.mem.wordFrom (ramBase + o / 4 * 4) with
      | some w => .ok w
      | none => .error .ramOutOfRange
  | .rom, o => match s.mem.wordFrom (o / 4 * 4) with
    | some w => .ok w
    | none => .error .romOutOfRange
  | .flash, o => match flashWord s.flash (flashAddress s.config o) with
    | some w => .ok w
    | none => .error .flashOutOfRange

/-- How far a slave shifts the word down, so that the addressed byte is in lane 0: the RAM and the ROM by
`8 * (o & 3)` (R81, R86), the flash not at all (R99). -/
def laneShift : Backing → Nat → Nat
  | .ram, o | .rom, o => 8 * (o % 4)
  | .flash, _ => 0

/-- `w[8n-1:0]`, zero above. -/
def lowBytes : Width → Word → Word
  | .byte, w => (w.extractLsb' 0 8).setWidth 32
  | .half, w => (w.extractLsb' 0 16).setWidth 32
  | .word, w => w

/-- `MemRead(addr, n)` through a bus (R100; R102 for the instruction bus). -/
def memRead (bus : BusName) (a : Word) (n : Width) (s : State) : Except Fault Word :=
  match route s.config bus a with
  | none => .error .hangNoResponder
  | some (k, o) => match storeWord s k o with
    | .error f => .error f
    | .ok w => .ok (lowBytes n (w >>> laneShift k o))

/-- `Fetch(addr)`, the aligned instruction word (R102). -/
def fetch (s : State) : Except Fault Word := memRead .instruction s.pc .word s

/-- The SPI controller after it has served a word: "which returns to WAITING" (R106, R95), the command shifted out, the
word in the output data register, the flash deselected (log 35). -/
def SpiController.served (w : Word) : SpiController :=
  { state := .waiting, shift := 0, countdown := 39, data := w, cs := false, clk := false, mosi := false }

/-- The state after a completed read at an address: only a flash read moves state, the SPI controller's (R106). -/
def afterRead (bus : BusName) (a : Word) (s : State) : State :=
  match route s.config bus a with
  | some (.flash, o) => match storeWord s .flash o with
    | .ok w => { s with micro := { s.micro with spi := .served w, flashDev := .idle } }
    | .error _ => s
  | _ => s

/-! ## Writing a store -/

/-- The low bytes of a store's data, least significant first (R82). -/
def storeBytes : Width → Word → List Byte
  | .byte, v => [v.extractLsb' 0 8]
  | .half, v => [v.extractLsb' 0 8, v.extractLsb' 8 8]
  | .word, v => wordBytes v

/-- `MemWrite(addr, n, v)` (R101): the addressed lanes of the RAM word are replaced, the others kept. Nothing changes where
it stops. -/
def memWrite (a : Word) (n : Width) (v : Word) (s : State) : Except Fault State :=
  match route s.config .data a with
  | none => .error .hangNoResponder
  | some (.ram, o) =>
    if s.config.ramWords ≤ o / 4 then .error .ramOutOfRange
    else .ok { s with mem := s.mem.writeBytes a.toNat (storeBytes n v) }
  | some (.rom, _) => .error .storeToBootStore
  | some (.flash, _) => .error .storeToBootStore

/-! ## Alignment (20_memory.md R104, R105) -/

/-- `aligned(a, n)`: a byte always; a halfword unless both low address bits are 1; a word only if both are 0. -/
def aligned (a : Word) : Width → Bool
  | .byte => true
  | .half => a.extractLsb' 0 2 != 3#2
  | .word => a.extractLsb' 0 2 == 0#2

/-! ## Traps (60_exceptions.md R331, R336, R337) -/

/-- The cause codes (R331, R332). -/
def Cause.code : Cause → BitVec 31
  | .instructionAddressMisaligned => 1
  | .illegalInstruction => 2
  | .breakpoint => 3
  | .loadAddressMisaligned => 4
  | .storeAddressMisaligned => 6
  | .environmentCall => 11

/-- `trap_vector(cause)`: the handler's word address, plus the cause in vectored mode, times 4 modulo 2^32 (R337). -/
def trapVector (cause : Cause) (v : Mtvec) : Word :=
  (v.base.setWidth 32 + (if v.mode = 1 then cause.code.setWidth 32 else 0)) <<< 2

/-- TRAP ENTRY, the one operation every trap is taken by (R336). -/
def takeTrap (cause : Cause) (faultingPc : Word) (s : State) : State :=
  { s with
    csr := { s.csr with
      mcause := { interrupt := 0, ecode := cause.code }
      mepc := { epc := (faultingPc >>> 2).setWidth 30 }
      mstatus := { s.csr.mstatus with mie := 0 } }
    pc := trapVector cause s.csr.mtvec
    micro := { s.micro with eu := { s.micro.eu with state := .fetch } } }

/-- TRAP RETURN: `mstatus.mie <- 1`, `pc <- mepc.epc << 2` (44_system.md R306, 60_exceptions.md R342). -/
def trapReturn (s : State) : State :=
  { s with
    csr := { s.csr with mstatus := { s.csr.mstatus with mie := 1 } }
    pc := place 32 2 s.csr.mepc.epc }

/-! ## Fetch bookkeeping (40_execution_cycle.md R173, R179) -/

/-- `ir <- w`, then `minstret.instrs <- (minstret.instrs + 1) mod 2^16`. -/
def latch (w : Word) (s : State) : State :=
  { s with
    csr := { s.csr with minstret := { instrs := s.csr.minstret.instrs + 1 } }
    micro := { s.micro with eu := { s.micro.eu with ir := w } } }

/-- The ExecutionUnit back in FETCH with no transaction outstanding, as it is between instructions (R170, R74; log 35). -/
def quiesce (s : State) : State :=
  { s with
    micro := { s.micro with
      eu := { s.micro.eu with state := .fetch, waitCnt := 0 }, ibus := .idle, dbus := .idle, ramAck := 0, romAck := 0 } }

end Sys2Proof.Machine
end

