-- ==== Sys2Proof/Machine/Alu.lean ====
section
/-! DEFINITION. The ALU (41_integer.md R190 to R193). -/

namespace Sys2Proof.Machine

/-- The ALU's operations (R191). -/
inductive AluOp where
  | add
  | sub
  | slt
  | sltu
  | xor
  | srl
  | sra
  | or
  | and
  deriving DecidableEq, Repr

/-- The 4-bit function code, "3 selector bits + 1 modifier bit" (30_encoding.md R148, 41_integer.md R191). Selector 001 is
no ALU operation (R192), and no admitted instruction asks modifier 1 of the others. -/
def aluOpOf (sel : BitVec 3) (modifier : BitVec 1) : Option AluOp :=
  match sel, modifier with
  | 0b000#3, 0#1 => some .add
  | 0b000#3, 1#1 => some .sub
  | 0b010#3, 0#1 => some .slt
  | 0b011#3, 0#1 => some .sltu
  | 0b100#3, 0#1 => some .xor
  | 0b101#3, 0#1 => some .srl
  | 0b101#3, 1#1 => some .sra
  | 0b110#3, 0#1 => some .or
  | 0b111#3, 0#1 => some .and
  | _, _ => none

/-- `zext_32(bool(c))`. -/
def boolWord (c : Bool) : Word := if c then 1 else 0

/-- `B[4:0]`: shift amounts are "masked to 5 bits" (R191). -/
def shiftAmount (b : Word) : Nat := (b.extractLsb' 0 5).toNat

/-- `alu(sel, mod, A, B)` (R191). SUB is "A + two's-complement negation of B". -/
def alu : AluOp → Word → Word → Word
  | .add, a, b => a + b
  | .sub, a, b => a + (~~~b + 1)
  | .slt, a, b => boolWord (a.slt b)
  | .sltu, a, b => boolWord (a.ult b)
  | .xor, a, b => a ^^^ b
  | .srl, a, b => a >>> shiftAmount b
  | .sra, a, b => a.sshiftRight (shiftAmount b)
  | .or, a, b => a ||| b
  | .and, a, b => a &&& b

/-- `rev(v)[i] = v[31-i]` (00_scope.md R13). -/
def rev (v : Word) : Word := v.reverse

/-- Left shift, as the caller of the ALU makes it: operand A reversed, SRL, the result reversed (R192, 90_conflicts.md C4). -/
def shiftLeft (a b : Word) : Word := rev (alu .srl (rev a) b)

end Sys2Proof.Machine
end

