-- ==== Sys2Proof/Machine/Operands.lean ====
section
/-! DEFINITION. Every operand form: the immediates extended (30_encoding.md R133 to R139), the effective address
(43_load_store.md R260), the extension of a loaded value (R262). -/

namespace Sys2Proof.Machine

/-- `imm_i = sext_32(inst[31:20])` (R133). -/
def immI (imm : BitVec 12) : Word := imm.signExtend 32

/-- `imm_s`, sign-extended (R134). -/
def immS (imm : BitVec 12) : Word := imm.signExtend 32

/-- `imm_b`, sign-extended (R135). -/
def immB (offset : BitVec 13) : Word := offset.signExtend 32

/-- `imm_u = {inst[31:12], 0x000}` (R136). -/
def immU (imm : BitVec 20) : Word := place 32 12 imm

/-- `imm_j`, sign-extended (R137). -/
def immJ (offset : BitVec 21) : Word := offset.signExtend 32

/-- `zext_32(shamt)` (R138). -/
def shamtWord (shamt : BitVec 5) : Word := shamt.setWidth 32

/-- `zimm = zext_32(inst[19:15])` (R139). -/
def zimmWord (zimm : BitVec 5) : Word := zimm.setWidth 32

/-- A load's effective address, `x[rs1] + imm_i` modulo 2^32 (43_load_store.md R260). -/
def loadAddress (s : State) (rs1 : RegIdx) (imm : BitVec 12) : Word := getReg s rs1 + immI imm

/-- A store's effective address, `x[rs1] + imm_s` modulo 2^32 (43_load_store.md R260). -/
def storeAddress (s : State) (rs1 : RegIdx) (imm : BitVec 12) : Word := getReg s rs1 + immS imm

/-- The loaded value extended to 32 bits; for a word the identity (43_load_store.md R262). -/
def extendLoad (signed : Bool) : Width → Word → Word
  | .byte, v => if signed then (v.extractLsb' 0 8).signExtend 32 else (v.extractLsb' 0 8).setWidth 32
  | .half, v => if signed then (v.extractLsb' 0 16).signExtend 32 else (v.extractLsb' 0 16).setWidth 32
  | .word, v => v

end Sys2Proof.Machine
end

