-- ==== Sys2Proof/Machine/Flags.lean ====
section
/-! DEFINITION. There are no status flags (10_state.md R39). The only condition is a branch's, from the ALU's zero
indication, which no state keeps (42_control_transfer.md R241). -/

namespace Sys2Proof.Machine

/-- "alu_result_zero" (41_integer.md R190). -/
def aluZero (r : Word) : Bool := r == 0

/-- The ALU operation a branch asks for, by funct3 bits 14 and 13 (30_encoding.md R148, 42_control_transfer.md R241). -/
def branchOp (funct3 : BitVec 3) : AluOp :=
  if funct3.getLsbD 2 then (if funct3.getLsbD 1 then .sltu else .slt) else .sub

/-- "branch condition = (alu_result_zero XOR funct3_bit12) != funct3_bit14" (R241). Instruction bits 12 and 14 are bits 0
and 2 of funct3. -/
def branchTaken (funct3 : BitVec 3) (a b : Word) : Bool :=
  (aluZero (alu (branchOp funct3) a b) ^^ funct3.getLsbD 0) != funct3.getLsbD 2

end Sys2Proof.Machine
end

