-- ==== Sys2Proof/Machine/ControlTransfer.lean ====
section
/-! DEFINITION. The control-transfer instructions (42_control_transfer.md R240 to R249). No target is checked: a misaligned
one traps at the next fetch (R240). -/

namespace Sys2Proof.Machine

/-- `x[rd] <- pc + 4; pc <- t`, both from the state before (R242, R243, 40_execution_cycle.md R180). -/
def jumpAndLink (rd : RegIdx) (t : Word) (s : State) : Result := .next (setPc (setReg s rd (s.pc + 4)) t)

/-- JAL (R242). -/
def execJal (rd : RegIdx) (offset : BitVec 21) (s : State) : Result := jumpAndLink rd (s.pc + immJ offset) s

/-- JALR: bit 0 of the target is NOT cleared (R243). -/
def execJalr (rd rs1 : RegIdx) (imm : BitVec 12) (s : State) : Result := jumpAndLink rd (getReg s rs1 + immI imm) s

/-- `if taken: pc <- pc + imm_b else: pc <- pc + 4` (42_control_transfer.md section 3). -/
def branch (funct3 : BitVec 3) (rs1 rs2 : RegIdx) (offset : BitVec 13) (s : State) : Result :=
  .next (if branchTaken funct3 (getReg s rs1) (getReg s rs2) then setPc s (s.pc + immB offset) else advance s)

/-- BEQ (R244). -/
def execBeq (rs1 rs2 : RegIdx) (offset : BitVec 13) (s : State) : Result := branch 0b000 rs1 rs2 offset s
/-- BNE (R245). -/
def execBne (rs1 rs2 : RegIdx) (offset : BitVec 13) (s : State) : Result := branch 0b001 rs1 rs2 offset s
/-- BLT (R246). -/
def execBlt (rs1 rs2 : RegIdx) (offset : BitVec 13) (s : State) : Result := branch 0b100 rs1 rs2 offset s
/-- BGE (R247). -/
def execBge (rs1 rs2 : RegIdx) (offset : BitVec 13) (s : State) : Result := branch 0b101 rs1 rs2 offset s
/-- BLTU (R248). -/
def execBltu (rs1 rs2 : RegIdx) (offset : BitVec 13) (s : State) : Result := branch 0b110 rs1 rs2 offset s
/-- BGEU (R249). -/
def execBgeu (rs1 rs2 : RegIdx) (offset : BitVec 13) (s : State) : Result := branch 0b111 rs1 rs2 offset s

end Sys2Proof.Machine
end

