-- ==== Sys2Proof/Machine/Integer.lean ====
section
/-! DEFINITION. The integer computational instructions (41_integer.md R194 to R214). -/

namespace Sys2Proof.Machine

/-- `x[rd] <- v; pc <- pc + 4`, the write skipped for rd = 0 (40_execution_cycle.md R175, R176). -/
def commit (rd : RegIdx) (v : Word) (s : State) : Result := .next (advance (setReg s rd v))

/-- LUI (R194). -/
def execLui (rd : RegIdx) (imm : BitVec 20) (s : State) : Result := commit rd (immU imm) s

/-- AUIPC: `pc` is the AUIPC's own address (R195; log 42). -/
def execAuipc (rd : RegIdx) (imm : BitVec 20) (s : State) : Result := commit rd (s.pc + immU imm) s

/-- `x[rd] <- alu(op, x[rs1], imm_i)` (41_integer.md section 3). -/
def aluImm (op : AluOp) (rd rs1 : RegIdx) (imm : BitVec 12) (s : State) : Result :=
  commit rd (alu op (getReg s rs1) (immI imm)) s

/-- `x[rd] <- alu(op, x[rs1], x[rs2])` (41_integer.md section 4). -/
def aluReg (op : AluOp) (rd rs1 rs2 : RegIdx) (s : State) : Result :=
  commit rd (alu op (getReg s rs1) (getReg s rs2)) s

/-- ADDI (R196). -/
def execAddi (rd rs1 : RegIdx) (imm : BitVec 12) (s : State) : Result := aluImm .add rd rs1 imm s
/-- SLTI (R197). -/
def execSlti (rd rs1 : RegIdx) (imm : BitVec 12) (s : State) : Result := aluImm .slt rd rs1 imm s
/-- SLTIU: the immediate is sign-extended first, then compared as unsigned (R198). -/
def execSltiu (rd rs1 : RegIdx) (imm : BitVec 12) (s : State) : Result := aluImm .sltu rd rs1 imm s
/-- XORI (R199). -/
def execXori (rd rs1 : RegIdx) (imm : BitVec 12) (s : State) : Result := aluImm .xor rd rs1 imm s
/-- ORI (R200). -/
def execOri (rd rs1 : RegIdx) (imm : BitVec 12) (s : State) : Result := aluImm .or rd rs1 imm s
/-- ANDI (R201). -/
def execAndi (rd rs1 : RegIdx) (imm : BitVec 12) (s : State) : Result := aluImm .and rd rs1 imm s

/-- SLLI, by reversal (R202, R192). -/
def execSlli (rd rs1 : RegIdx) (shamt : BitVec 5) (s : State) : Result :=
  commit rd (shiftLeft (getReg s rs1) (shamtWord shamt)) s
/-- SRLI (R203). -/
def execSrli (rd rs1 : RegIdx) (shamt : BitVec 5) (s : State) : Result :=
  commit rd (alu .srl (getReg s rs1) (shamtWord shamt)) s
/-- SRAI (R204). -/
def execSrai (rd rs1 : RegIdx) (shamt : BitVec 5) (s : State) : Result :=
  commit rd (alu .sra (getReg s rs1) (shamtWord shamt)) s

/-- ADD (R205). -/
def execAdd (rd rs1 rs2 : RegIdx) (s : State) : Result := aluReg .add rd rs1 rs2 s
/-- SUB (R206). -/
def execSub (rd rs1 rs2 : RegIdx) (s : State) : Result := aluReg .sub rd rs1 rs2 s
/-- SLL, by reversal (R207, R192). -/
def execSll (rd rs1 rs2 : RegIdx) (s : State) : Result := commit rd (shiftLeft (getReg s rs1) (getReg s rs2)) s
/-- SLT (R208). -/
def execSlt (rd rs1 rs2 : RegIdx) (s : State) : Result := aluReg .slt rd rs1 rs2 s
/-- SLTU (R209). -/
def execSltu (rd rs1 rs2 : RegIdx) (s : State) : Result := aluReg .sltu rd rs1 rs2 s
/-- XOR (R210). -/
def execXor (rd rs1 rs2 : RegIdx) (s : State) : Result := aluReg .xor rd rs1 rs2 s
/-- SRL (R211). -/
def execSrl (rd rs1 rs2 : RegIdx) (s : State) : Result := aluReg .srl rd rs1 rs2 s
/-- SRA (R212). -/
def execSra (rd rs1 rs2 : RegIdx) (s : State) : Result := aluReg .sra rd rs1 rs2 s
/-- OR (R213). -/
def execOr (rd rs1 rs2 : RegIdx) (s : State) : Result := aluReg .or rd rs1 rs2 s
/-- AND (R214). -/
def execAnd (rd rs1 rs2 : RegIdx) (s : State) : Result := aluReg .and rd rs1 rs2 s

end Sys2Proof.Machine
end

