-- ==== Sys2Proof/Machine/LoadStore.lean ====
section
/-! DEFINITION. Loads, stores and FENCE (43_load_store.md R260 to R273). -/

namespace Sys2Proof.Machine

/-- A load at address `a`: the alignment check before the bus (R261), the read, the extension, `x[rd]` and `pc + 4`
(R262). The read is made also for rd = 0. -/
def load (n : Width) (signed : Bool) (rd : RegIdx) (a : Word) (s : State) : Result :=
  if aligned a n then
    match memRead .data a n s with
    | .ok v => .next (advance (setReg (afterRead .data a s) rd (extendLoad signed n v)))
    | .error f => .fault f
  else .next (takeTrap .loadAddressMisaligned s.pc s)

/-- A store of `v` at address `a`: the alignment check before the bus (R261), the write, `pc + 4` (R263). -/
def store (n : Width) (a v : Word) (s : State) : Result :=
  if aligned a n then
    match memWrite a n v s with
    | .ok t => .next (advance t)
    | .error f => .fault f
  else .next (takeTrap .storeAddressMisaligned s.pc s)

/-- LB (R265). -/
def execLb (rd rs1 : RegIdx) (imm : BitVec 12) (s : State) : Result := load .byte true rd (loadAddress s rs1 imm) s
/-- LH (R266). -/
def execLh (rd rs1 : RegIdx) (imm : BitVec 12) (s : State) : Result := load .half true rd (loadAddress s rs1 imm) s
/-- LW (R267). -/
def execLw (rd rs1 : RegIdx) (imm : BitVec 12) (s : State) : Result := load .word true rd (loadAddress s rs1 imm) s
/-- LBU (R268). -/
def execLbu (rd rs1 : RegIdx) (imm : BitVec 12) (s : State) : Result := load .byte false rd (loadAddress s rs1 imm) s
/-- LHU (R269). -/
def execLhu (rd rs1 : RegIdx) (imm : BitVec 12) (s : State) : Result := load .half false rd (loadAddress s rs1 imm) s

/-- SB (R270). -/
def execSb (rs1 rs2 : RegIdx) (imm : BitVec 12) (s : State) : Result := store .byte (storeAddress s rs1 imm) (getReg s rs2) s
/-- SH (R271). -/
def execSh (rs1 rs2 : RegIdx) (imm : BitVec 12) (s : State) : Result := store .half (storeAddress s rs1 imm) (getReg s rs2) s
/-- SW (R272). -/
def execSw (rs1 rs2 : RegIdx) (imm : BitVec 12) (s : State) : Result := store .word (storeAddress s rs1 imm) (getReg s rs2) s

/-- FENCE: a no-op, whatever its fields (R273). -/
def execFence (_fm _pred _succ : BitVec 4) (_rs1 _rd : RegIdx) (s : State) : Result := .next (advance s)

end Sys2Proof.Machine
end

