-- ==== Sys2Proof/Machine/CsrFile.lean ====
section
/-! DEFINITION. The CSRFile: its field table (10_state.md R50), `CSR.read` and `CSR.apply` (44_system.md R290 to R294). -/

namespace Sys2Proof.Machine

/-- The six registers the bank holds (10_state.md R40). -/
inductive CsrName where
  | mstatus
  | mtvec
  | mepc
  | mcause
  | mtval
  | minstret
  deriving DecidableEq, Repr

/-- The register a number names; "all others read 0 / ignore writes" (10_state.md R40). -/
def csrNamed (m : CsrAddr) (a : CsrNum) : Option CsrName :=
  if a = m.mstatus then some .mstatus
  else if a = m.mtvec then some .mtvec
  else if a = m.mepc then some .mepc
  else if a = m.mcause then some .mcause
  else if a = m.mtval then some .mtval
  else if a = m.minstret then some .minstret
  else none

/-- A field's access kind (10_state.md R41); a bit in no row is unlisted. -/
inductive Access where
  | rw
  | ro
  | zero
  deriving DecidableEq, Repr

/-- One row of the field table. -/
structure FieldRow where
  csr    : CsrName
  hi     : Nat
  lo     : Nat
  access : Access
  deriving DecidableEq, Repr

/-- The field table (10_state.md R50). -/
def csrFields : List FieldRow :=
  [⟨.mstatus, 3, 3, .rw⟩, ⟨.mstatus, 7, 7, .ro⟩, ⟨.mtvec, 0, 0, .rw⟩, ⟨.mtvec, 31, 2, .rw⟩, ⟨.mepc, 31, 2, .rw⟩,
   ⟨.mepc, 1, 0, .zero⟩, ⟨.mcause, 31, 31, .rw⟩, ⟨.mcause, 30, 0, .rw⟩, ⟨.mtval, 31, 0, .rw⟩, ⟨.minstret, 15, 0, .rw⟩]

/-- Whether a bit of a register lies in an RW field of the table. -/
def csrWritable (n : CsrName) (bit : Nat) : Bool :=
  csrFields.any fun r => decide (r.csr = n ∧ r.access = .rw ∧ r.lo ≤ bit ∧ bit ≤ r.hi)

/-- A register's value: the OR over its fields, each at its lowest bit; ZERO and unlisted bits contribute 0
(10_state.md R48). -/
def csrValue (c : CsrBank) : CsrName → Word
  | .mstatus => place 32 3 c.mstatus.mie ||| place 32 7 c.mstatus.mpie
  | .mtvec => place 32 0 c.mtvec.mode ||| place 32 2 c.mtvec.base
  | .mepc => place 32 2 c.mepc.epc
  | .mcause => place 32 31 c.mcause.interrupt ||| place 32 0 c.mcause.ecode
  | .mtval => place 32 0 c.mtval.einfo
  | .minstret => place 32 0 c.minstret.instrs

/-- Store into each RW field its bits of the new value; RO, ZERO and unlisted bits stay (10_state.md R48). -/
def csrStore (c : CsrBank) (v : Word) : CsrName → CsrBank
  | .mstatus => { c with mstatus := { c.mstatus with mie := v.extractLsb' 3 1 } }
  | .mtvec => { c with mtvec := { mode := v.extractLsb' 0 1, base := v.extractLsb' 2 30 } }
  | .mepc => { c with mepc := { epc := v.extractLsb' 2 30 } }
  | .mcause => { c with mcause := { interrupt := v.extractLsb' 31 1, ecode := v.extractLsb' 0 31 } }
  | .mtval => { c with mtval := { einfo := v } }
  | .minstret => { c with minstret := { instrs := v.extractLsb' 0 16 } }

/-- `CSR.read(a)`: "Unknown CSR address: read returns 0" (R290). -/
def csrRead (m : CsrAddr) (c : CsrBank) (a : CsrNum) : Word :=
  match csrNamed m a with
  | some n => csrValue c n
  | none => 0

/-- The write function, funct3 bits 13:12 (R291). -/
inductive CsrFn where
  | read
  | write
  | set
  | clear
  deriving DecidableEq, Repr

/-- The 2-bit function code (R291). -/
def csrFnOf : BitVec 2 → CsrFn
  | 0b00#2 => .read
  | 0b01#2 => .write
  | 0b10#2 => .set
  | _ => .clear

/-- The new value to store, if one is stored: SET and CLEAR with operand 0, and READ, store none (R291). -/
def csrNew (fn : CsrFn) (op current : Word) : Option Word :=
  match fn with
  | .read => none
  | .write => some op
  | .set => if op = 0 then none else some (op ||| current)
  | .clear => if op = 0 then none else some (~~~op &&& current)

/-- `CSR.apply(a, fn, op)`: the bank after it (R292). "any write is a no-op" at an unknown number. -/
def csrApply (m : CsrAddr) (c : CsrBank) (a : CsrNum) (fn : CsrFn) (op : Word) : CsrBank :=
  match csrNamed m a with
  | none => c
  | some n => match csrNew fn op (csrValue c n) with
    | none => c
    | some v => csrStore c v n

/-- `CSR.apply`'s returned "new stored value" (R292); no instruction uses it. -/
def csrApplyValue (m : CsrAddr) (c : CsrBank) (a : CsrNum) (fn : CsrFn) (op : Word) : Word :=
  csrRead m (csrApply m c a fn op) a

end Sys2Proof.Machine
end

