-- ==== Sys2Proof/Machine/System.lean ====
section
/-! DEFINITION. The CSR instructions, the CSR-read forms, ECALL, EBREAK and MRET (44_system.md R296 to R308). -/

namespace Sys2Proof.Machine

/-- The sequence of every CSR instruction (R296): `old` is read before anything is written, `op` was taken before rd is. -/
def csrInstruction (fn : CsrFn) (rd : RegIdx) (csr : CsrNum) (op : Word) (s : State) : Result :=
  let old := csrRead s.config.csrAddr s.csr csr
  let applied := csrApply s.config.csrAddr s.csr csr fn op
  .next (advance (setReg { s with csr := applied } rd old))

/-- CSRRW (R297). -/
def execCsrrw (rd : RegIdx) (csr : CsrNum) (rs1 : RegIdx) (s : State) : Result :=
  csrInstruction .write rd csr (getReg s rs1) s
/-- CSRRS (R298). -/
def execCsrrs (rd : RegIdx) (csr : CsrNum) (rs1 : RegIdx) (s : State) : Result :=
  csrInstruction .set rd csr (getReg s rs1) s
/-- CSRRC (R299). -/
def execCsrrc (rd : RegIdx) (csr : CsrNum) (rs1 : RegIdx) (s : State) : Result :=
  csrInstruction .clear rd csr (getReg s rs1) s
/-- CSRRWI (R300). -/
def execCsrrwi (rd : RegIdx) (csr : CsrNum) (zimm : BitVec 5) (s : State) : Result :=
  csrInstruction .write rd csr (zimmWord zimm) s
/-- CSRRSI (R301). -/
def execCsrrsi (rd : RegIdx) (csr : CsrNum) (zimm : BitVec 5) (s : State) : Result :=
  csrInstruction .set rd csr (zimmWord zimm) s
/-- CSRRCI (R302). -/
def execCsrrci (rd : RegIdx) (csr : CsrNum) (zimm : BitVec 5) (s : State) : Result :=
  csrInstruction .clear rd csr (zimmWord zimm) s

/-- The read form of funct3 000, WFI and SRET words among them: function 00, no write; rs1 is not used (R303). -/
def execCsrReadF000 (rd : RegIdx) (csr : CsrNum) (_rs1 : RegIdx) (s : State) : Result :=
  csrInstruction .read rd csr 0 s
/-- The read form of funct3 100 (R303). -/
def execCsrReadF100 (rd : RegIdx) (csr : CsrNum) (_rs1 : RegIdx) (s : State) : Result :=
  csrInstruction .read rd csr 0 s

/-- ECALL: trap 11, the faulting pc its own address (R304). -/
def execEcall (_rd _rs1 : RegIdx) (s : State) : Result := .next (takeTrap .environmentCall s.pc s)
/-- EBREAK: trap 3, the faulting pc its own address (R305). -/
def execEbreak (_rd _rs1 : RegIdx) (s : State) : Result := .next (takeTrap .breakpoint s.pc s)
/-- MRET (R306). -/
def execMret (_rd _rs1 : RegIdx) (s : State) : Result := .next (trapReturn s)

end Sys2Proof.Machine
end

