-- ==== Sys2Proof/Machine/Cycle.lean ====
section
/-! DEFINITION. The architectural step's parts: fetch, decode, execute, from whichever ExecutionUnit state the machine is in
(40_execution_cycle.md R171 to R179), and placing an instruction word where the next fetch reads it. -/

namespace Sys2Proof.Machine

/-- Decode the latched word and execute it; a word that is no row is refused (R175, 30_encoding.md R151). -/
def executeLatched (s : State) : Result :=
  match decodeWord s.micro.eu.ir with
  | .error stage => .refused (.unenumerated stage)
  | .ok i => exec i (quiesce s)

/-- `w <- Fetch(pc)`, count it, latch it, execute it (R172, R173, R179). -/
def fetchAndExecute (s : State) : Result :=
  match fetch s with
  | .error f => .fault f
  | .ok w => executeLatched (latch w (afterRead .instruction s.pc s))

/-- One architectural step. From FETCH it is R179: the alignment check "before any bus activity" (R171), then fetch and
execute. From any other state of the ExecutionUnit it completes the instruction in flight, up to its retirement (log 34):
in FETCH_WAIT with the bus cycle held the fetch is still to complete, without it the word is latched and counted. -/
def runToRetire (s : State) : Result :=
  match s.micro.eu.state with
  | .fetch =>
    if aligned s.pc .word then fetchAndExecute s
    else .next (takeTrap .instructionAddressMisaligned s.pc s)
  | .fetchWait => if s.micro.ibus.cycle then fetchAndExecute s else executeLatched s
  | .decodeExecute => executeLatched s
  | .memWait => executeLatched s
  | .trapEntry c => .next (takeTrap c.cause c.faultingPc (quiesce s))

/-- Write a word's four bytes at a flash address, each address modulo 2^24. -/
def writeFlashWord (flash : Memory) (A : Nat) (w : Word) : Memory :=
  (((flash.writeByte (A % 2 ^ 24) (w.extractLsb' 0 8)).writeByte ((A + 1) % 2 ^ 24) (w.extractLsb' 8 8)).writeByte
    ((A + 2) % 2 ^ 24) (w.extractLsb' 16 8)).writeByte ((A + 3) % 2 ^ 24) (w.extractLsb' 24 8)

/-- The state with a word stored where the instruction bus reads `pc`, the ExecutionUnit in FETCH: the load of a program from
outside (log 32). -/
def placeInstruction (w : Word) (s : State) : State :=
  let t := { s with micro := { s.micro with eu := { s.micro.eu with state := .fetch } } }
  match route s.config .instruction s.pc with
  | some (.flash, o) => { t with flash := writeFlashWord s.flash (flashAddress s.config o) w }
  | some (.rom, _) => { t with mem := s.mem.writeBytes s.pc.toNat (wordBytes w) }
  | some (.ram, _) => { t with mem := s.mem.writeBytes s.pc.toNat (wordBytes w) }
  | none => t

end Sys2Proof.Machine
end

