-- ==== Sys2Proof/Machine/Step.lean ====
section
/-! DEFINITION. The step function, and the state with a table word placed where it fetches. -/

namespace Sys2Proof.Machine

/-- One architectural step: one instruction retired or one trap taken, or a stop (40_execution_cycle.md R179). -/
def step (s : State) : Host.Outcome State Fault Refusal := runToRetire s

/-- `s` with the table word `w` (its bits from `nbits` up 0) stored where `step` fetches its next instruction. -/
def State.withFetchWord (s : State) (nbits w : Nat) : State := placeInstruction (BitVec.ofNat 32 (w % 2 ^ nbits)) s

end Sys2Proof.Machine
end

