-- ==== Sys2Proof/Machine/HostInterface.lean ====
section
/-! DEFINITION. The host's side (70_reset_and_hazards.md R370, R384 to R386): construction, the reset signal, observation, the
end of a run. -/

namespace Sys2Proof.Machine

/-- A RAM that holds `init i` in each word `i` below `n` (20_memory.md R85, `RAM_INIT`). -/
def ramContents (m : Memory) (init : Nat → Word) : Nat → Memory
  | 0 => m
  | n + 1 => (ramContents m init n).writeBytes (ramBase + 4 * n) (wordBytes (init n))

/-- The machine as the host constructs it (00_scope.md R11, R384): ROM word i at byte address 4i (20_memory.md R86) or the
flash bytes at their flash addresses (R96), and the initial RAM. -/
def construct (c : Config) (romImage : List Word) (flashImage : List Byte) (ramInit : Nat → Word) : State :=
  { State.reset with
    config := c
    mem := ramContents (Memory.writeBytes [] 0 (romImage.flatMap wordBytes)) ramInit c.ramWords
    flash := Memory.writeBytes [] 0 flashImage }

/-- The reset signal: one event at any time, which abandons an in-flight transaction and keeps the RAM, the images and the
parameters (R370, R371). -/
def assertReset (s : State) : State :=
  { State.reset with mem := s.mem, flash := s.flash, config := s.config }

/-- What the host reads after each retire step, but the RAM (R384, R385). -/
structure Observation where
  pc        : Word
  registers : List Word
  minstret  : BitVec 16
  deriving DecidableEq, Repr

/-- `PC`, `RegisterFile[i]` and `minstret` (R385). -/
def observe (s : State) : Observation :=
  { pc := s.pc
    registers := (List.range 32).map fun i => getReg s (BitVec.ofNat 5 i)
    minstret := s.csr.minstret.instrs }

/-- `RAM[address]`, the RAM word at a bus address (R385). -/
def ramWordAt (s : State) (a : Word) : Option Word :=
  match route s.config .data a with
  | some (.ram, o) => (storeWord s .ram o).toOption
  | _ => none

/-- A run until the host's predicate `HALT` holds, evaluated after each retire step (R386), or for at most `n` steps. -/
def runUntil (halt : State → Bool) : Nat → State → Result
  | 0, s => .next s
  | n + 1, s => match step s with
    | .next t => if halt t then .next t else runUntil halt n t
    | .fault f => .fault f
    | .refused r => .refused r

end Sys2Proof.Machine
end

