-- ==== Sys2Proof/Machine/Spi.lean ====
section
/-! DEFINITION. The SPIFlashController and the serial flash device, one clock tick at a time (20_memory.md R90 to R98). A tick of
POWERUP, TX or RX is one bit; `Config.spiClock` says whether it is one edge of `spi_clk`, or a rising one, which samples, and then a
falling one, which writes (90_conflicts.md C10; log 37). -/

namespace Sys2Proof.Machine

/-- `cycle & strobe asserted, not yet acknowledged` (R93). -/
def Bus.requests (b : Bus) : Bool := b.cycle && b.strobe && !b.acknowledge

/-- The bus of a name. -/
def busOf (s : State) : BusName → Bus
  | .instruction => s.micro.ibus
  | .data => s.micro.dbus

/-- Drive a bus. -/
def setBus (n : BusName) (b : Bus) (s : State) : State :=
  match n with
  | .instruction => { s with micro := { s.micro with ibus := b } }
  | .data => { s with micro := { s.micro with dbus := b } }

/-- The store asserts acknowledge with the word it returns (R74). -/
def respond (n : BusName) (w : Word) (s : State) : State :=
  setBus n { busOf s n with acknowledge := true, dataOut := w } s

/-- The bus that has a request outstanding at a slave, and the local offset. At most one transaction is ever active
(R72). -/
def requester (k : Backing) (s : State) : Option (BusName × Nat) :=
  match s.micro.ibus.requests, route s.config .instruction s.micro.ibus.address,
      s.micro.dbus.requests, route s.config .data s.micro.dbus.address with
  | true, some (k', o), dreq, dr =>
    if k' = k then some (.instruction, o)
    else match dreq, dr with
      | true, some (k'', o') => if k'' = k then some (.data, o') else none
      | _, _ => none
  | _, _, true, some (k', o) => if k' = k then some (.data, o) else none
  | _, _, _, _ => none

/-- The command word `0x03000000 | A` of a read at a boot-region offset (R93). -/
def readCommand (c : Config) (offset : Nat) : Word := 0x03000000 ||| BitVec.ofNat 32 (flashAddress c offset)

/-! ## The flash device (R96; log 39) -/

/-- One clocked bit into a selected device: a command bit until it has 32, then only the count goes on. -/
def FlashDevice.clock (d : FlashDevice) (mosi : Bool) : FlashDevice :=
  if d.bits < 32 then { command := d.command <<< 1 ||| (BitVec.ofBool mosi).setWidth 32, bits := d.bits + 1 }
  else { d with bits := d.bits + 1 }

/-- The bit a device drives on `spi_miso`: after a read command 0x03 the bytes at successive addresses, each most significant
bit first; none past its image. -/
def FlashDevice.miso (d : FlashDevice) (flash : Memory) : Option Bool :=
  if d.command.extractLsb' 24 8 = 0x03#8 then
    let k := d.bits - 32
    (flash.readByte (((d.command.extractLsb' 0 24).toNat + k / 8) % 2 ^ 24)).map fun b => b.getLsbD (7 - k % 8)
  else none

/-! ## The controller -/

/-- RESET: "assert chip-select, load the flash 'release power-down' command" (R91). The countdown covers POWERUP's 30 ticks
(R92; log 37); the output data register is loaded with a free value (70_reset_and_hazards.md R371; log 50). -/
def SpiController.resetTick (c : SpiController) : SpiController :=
  { state := .powerup, shift := 0xAB000000, countdown := 30, data := Config.spiResetData c.data, cs := true, clk := false,
    mosi := true }

/-- One edge of `spi_clk` while the controller sends: "falling edge = write" puts the next bit on `spi_mosi`, a rising edge leaves it to
be sampled (R90). DESIGN CHOICE: 0 is shifted in at the low end (log 53). -/
def SpiController.sendEdge (c : SpiController) : SpiController :=
  if c.clk then { c with clk := false, shift := c.shift <<< 1, mosi := (c.shift <<< 1).msb } else { c with clk := true }

/-- The word with one bit replaced. -/
def withBit (w : Word) (i : Nat) (b : Bool) : Word :=
  (w &&& ~~~(1#32 <<< i)) ||| ((BitVec.ofBool b).setWidth 32 <<< i)

/-- One edge of `spi_clk` while the controller receives: "rising edge = sample" stores `spi_miso` at the position equal to the countdown,
on a falling edge the device writes the next bit (R90, R95). -/
def SpiController.receiveEdge (c : SpiController) (miso : Bool) : SpiController :=
  if c.clk then { c with clk := false } else { c with clk := true, data := withBit c.data c.countdown miso }

/-- A tick that sends: one bit shifted out. With `edgePerTick` the tick is one edge, "The serial clock toggles every tick"
(90_conflicts.md C10), and the next bit is written at it whichever edge it is (DESIGN CHOICE, log 37). With both clockings 0 is shifted
in at the low end, so that `spi_mosi` is 0 once the 32 bits are out (DESIGN CHOICE, log 53). -/
def SpiController.sendTick (m : SpiClocking) (c : SpiController) : SpiController :=
  match m with
  | .edgePerTick => { c with clk := !c.clk, shift := c.shift <<< 1, mosi := (c.shift <<< 1).msb }
  | .cyclePerTick => c.sendEdge.sendEdge

/-- A tick that receives: one bit stored. With `edgePerTick` it is sampled at the tick's one edge (DESIGN CHOICE, log 37). -/
def SpiController.receiveTick (m : SpiClocking) (c : SpiController) (miso : Bool) : SpiController :=
  match m with
  | .edgePerTick => { c with clk := !c.clk, data := withBit c.data c.countdown miso }
  | .cyclePerTick => (c.receiveEdge miso).receiveEdge miso

/-- POWERUP: "shift out the wake command bit by bit; after 8 bits de-assert chip-select (keep clocking); after 30 ticks →
WAITING" (R92; log 37). -/
def SpiController.powerupTick (m : SpiClocking) (c : SpiController) : SpiController :=
  { c.sendTick m with
    state := if decide (c.countdown ≤ 1) then .waiting else .powerup
    countdown := c.countdown - 1
    cs := decide (23 < c.countdown) }

/-- WAITING, on a new request: latch the command, assert chip-select, "set a 31-tick countdown → TX" (R93). -/
def SpiController.startRead (c : SpiController) (command : Word) : SpiController :=
  { c with state := .tx, shift := command, countdown := 31, cs := true, mosi := command.msb }

/-- TX: one command bit per tick, MSB first; "when countdown reaches 0, reset a receive countdown to 7 and clear the output
data register → RX" (R94). -/
def SpiController.txTick (m : SpiClocking) (c : SpiController) : SpiController :=
  let sent := c.sendTick m
  if c.countdown = 0 then { sent with state := .rx, countdown := 7, data := 0 }
  else { sent with countdown := c.countdown - 1 }

/-- The fourth byte's last bit is received at countdown 24 (R95). -/
def SpiController.lastBit (c : SpiController) : Bool := decide (24 ≤ c.countdown ∧ c.countdown % 8 = 0)

/-- The receive countdown after a bit: one less, "wraps by +15 after every completed byte", the fourth too (R95). -/
def nextPlace (c : Nat) : Nat := if c % 8 = 0 then c + 15 else c - 1

/-- RX: each received bit is stored at the position equal to the countdown; "after the 4th byte, de-assert chip-select" → WAITING
(R95). -/
def SpiController.rxTick (m : SpiClocking) (c : SpiController) (bit : Bool) : SpiController :=
  let received := { c.receiveTick m bit with countdown := nextPlace c.countdown }
  if c.lastBit then { received with state := .waiting, cs := false } else received

/-- The device at one edge of `spi_clk`, with the pins as they are before it: "rising edge = sample" (R90). -/
def FlashDevice.edge (d : FlashDevice) (c : SpiController) : FlashDevice := if c.clk then d else d.clock c.mosi

/-- The device over one clocked tick: with `edgePerTick` it takes the bit on `spi_mosi` at the tick's one edge (DESIGN CHOICE, log 37);
with `cyclePerTick` it sees both edges, `mid` being the pins between them. -/
def FlashDevice.overTick (m : SpiClocking) (d : FlashDevice) (c mid : SpiController) : FlashDevice :=
  match m with
  | .edgePerTick => d.clock c.mosi
  | .cyclePerTick => (d.edge c).edge mid

/-- The device's next state: clocked while it is selected and the controller clocks, forgetting when deselected (PRESUMED, log 39). -/
def FlashDevice.next (m : SpiClocking) (d : FlashDevice) (c : SpiController) : FlashDevice :=
  if !c.cs then .idle
  else match c.state with
    | .powerup | .tx => d.overTick m c c.sendEdge
    | .rx => d.overTick m c (c.receiveEdge false)
    | .reset | .waiting => d

/-- One tick of the controller and the device, whatever the boot store (70_reset_and_hazards.md R379; log 49). A cycle withdrawn during TX
or RX has no behaviour (R98). -/
def spiTick (s : State) : Except Fault State :=
  let c := s.micro.spi
  let m := s.config.spiClock
  let put := fun (c' : SpiController) (t : State) =>
    { t with micro := { t.micro with spi := c', flashDev := s.micro.flashDev.next m c } }
  match c.state, requester .flash s with
  | .reset, _ => .ok (put c.resetTick s)
  | .powerup, _ => .ok (put (c.powerupTick m) s)
  | .waiting, none => .ok (put c s)
  | .waiting, some (n, o) =>
    if (busOf s n).writeEnable then .error .storeToBootStore
    else .ok (put (c.startRead (readCommand s.config o)) s)
  | .tx, none => .error .spiCycleWithdrawn
  | .tx, some _ => .ok (put (c.txTick m) s)
  | .rx, none => .error .spiCycleWithdrawn
  | .rx, some (n, _) => match s.micro.flashDev.miso s.flash with
    | none => .error .flashOutOfRange
    | some bit =>
      let c' := c.rxTick m bit
      .ok (if c.lastBit then respond n c'.data (put c' s) else put c' s)

end Sys2Proof.Machine
end

