-- ==== Sys2Proof/Machine/Tick.lean ====
section
/-! DEFINITION. One clock tick of the whole core: RAM, ROM, SPI controller, buses and ExecutionUnit in lock-step
(40_execution_cycle.md R170 to R178, 70_reset_and_hazards.md R379). Every next value is computed from the state before the tick
(00_scope.md R16). `step` is normative (R9); a statement says that ticks carry it out. -/

namespace Sys2Proof.Machine

/-! ## RAM and ROM (20_memory.md R80 to R88) -/

/-- The word a ROM or RAM returns: shifted down by `shift`, the bits shifted in at the top free (R86; log 38). -/
def shiftedOut (a : Word) (shift : Nat) (w : Word) : Word :=
  if shift = 0 then w
  else (w >>> shift) ||| (Config.shiftFill a &&& ~~~((BitVec.allOnes 32) >>> shift))

/-- "Acknowledge is asserted exactly 2 clock cycles after the transaction's cycle signal is first observed asserted" (R84,
R88): the acknowledge counter's last value before it (log 40). -/
def ackLatency : Nat := 2

/-- One tick of the RAM. DESIGN CHOICE: a write is acknowledged with data_out as it was; R74 speaks of a read's only (log 51). -/
def ramTick (s : State) : Except Fault State :=
  match requester .ram s with
  | none => .ok { s with micro := { s.micro with ramAck := 0 } }
  | some (n, o) =>
    if s.micro.ramAck + 1 < ackLatency then .ok { s with micro := { s.micro with ramAck := s.micro.ramAck + 1 } }
    else
      let b := busOf s n
      let t := { s with micro := { s.micro with ramAck := 0 } }
      if b.writeEnable then match memWrite b.address b.width b.dataIn t with
        | .error f => .error f
        | .ok t' => .ok (respond n b.dataOut t')
      else match storeWord s .ram o with
        | .error f => .error f
        | .ok w => .ok (respond n (shiftedOut b.address (laneShift .ram o) w) t)

/-- One tick of the ROM. -/
def romTick (s : State) : Except Fault State :=
  match requester .rom s with
  | none => .ok { s with micro := { s.micro with romAck := 0 } }
  | some (n, o) =>
    if s.micro.romAck + 1 < ackLatency then .ok { s with micro := { s.micro with romAck := s.micro.romAck + 1 } }
    else
      let b := busOf s n
      let t := { s with micro := { s.micro with romAck := 0 } }
      if b.writeEnable then .error .storeToBootStore
      else match storeWord s .rom o with
        | .error f => .error f
        | .ok w => .ok (respond n (shiftedOut b.address (laneShift .rom o) w) t)

/-- The three slaves in one tick; each reads only its own request, so their order does not matter. -/
def storesTick (s : State) : Except Fault State :=
  match ramTick s with
  | .error f => .error f
  | .ok t => match romTick t with
    | .error f => .error f
    | .ok u => spiTick u

/-! ## The ExecutionUnit (40_execution_cycle.md R170) -/

/-- The ExecutionUnit's next state. -/
def setEu (e : EuState) (s : State) : State := { s with micro := { s.micro with eu := { s.micro.eu with state := e } } }

/-- The wait counter. -/
def setWaitCnt (c : BitVec 2) (s : State) : State :=
  { s with micro := { s.micro with eu := { s.micro.eu with waitCnt := c } } }

/-- "master asserts cycle and strobe together" (20_memory.md R71): a read. DESIGN CHOICE: its data_in is 0, no rule says what it carries
(log 51); its width is the load's own, where R73 has width qualify stores only (log 52). -/
def readRequest (n : Width) (a : Word) : Bus := { Bus.idle with cycle := true, strobe := true, address := a, width := n }

/-- The same for a store, with its width and data (R73). -/
def writeRequest (n : Width) (a v : Word) : Bus := { readRequest n a with writeEnable := true, dataIn := v }

/-- The data access a LOAD or STORE makes. -/
inductive MemAccess where
  | load (n : Width) (signed : Bool) (rd : RegIdx) (a : Word)
  | store (n : Width) (a v : Word)
  deriving DecidableEq, Repr

/-- The access of an instruction; none for every class but LOAD and STORE. -/
def memAccess (i : Instr) (s : State) : Option MemAccess :=
  match i with
  | .lb rd rs1 imm => some (.load .byte true rd (loadAddress s rs1 imm))
  | .lh rd rs1 imm => some (.load .half true rd (loadAddress s rs1 imm))
  | .lw rd rs1 imm => some (.load .word true rd (loadAddress s rs1 imm))
  | .lbu rd rs1 imm => some (.load .byte false rd (loadAddress s rs1 imm))
  | .lhu rd rs1 imm => some (.load .half false rd (loadAddress s rs1 imm))
  | .sb rs1 rs2 imm => some (.store .byte (storeAddress s rs1 imm) (getReg s rs2))
  | .sh rs1 rs2 imm => some (.store .half (storeAddress s rs1 imm) (getReg s rs2))
  | .sw rs1 rs2 imm => some (.store .word (storeAddress s rs1 imm) (getReg s rs2))
  | .lui .. | .auipc .. | .jal .. | .jalr .. | .beq .. | .bne .. | .blt .. | .bge .. | .bltu .. | .bgeu ..
  | .addi .. | .slti .. | .sltiu .. | .xori .. | .ori .. | .andi .. | .slli .. | .srli .. | .srai ..
  | .add .. | .sub .. | .sll .. | .slt .. | .sltu .. | .xor .. | .srl .. | .sra .. | .or .. | .and ..
  | .fence .. | .ecall .. | .ebreak .. | .mret .. | .csrrw .. | .csrrs .. | .csrrc ..
  | .csrrwi .. | .csrrsi .. | .csrrci .. | .csrReadF000 .. | .csrReadF100 .. => none

/-- The trap that DECODE_EXECUTE itself raises: ECALL's and EBREAK's (R170). -/
def decodedTrap (i : Instr) (s : State) : Option TrapContext :=
  match i with
  | .ecall _ _ => some ⟨.environmentCall, s.pc⟩
  | .ebreak _ _ => some ⟨.breakpoint, s.pc⟩
  | .lui .. | .auipc .. | .jal .. | .jalr .. | .beq .. | .bne .. | .blt .. | .bge .. | .bltu .. | .bgeu ..
  | .lb .. | .lh .. | .lw .. | .lbu .. | .lhu .. | .sb .. | .sh .. | .sw ..
  | .addi .. | .slti .. | .sltiu .. | .xori .. | .ori .. | .andi .. | .slli .. | .srli .. | .srai ..
  | .add .. | .sub .. | .sll .. | .slt .. | .sltu .. | .xor .. | .srl .. | .sra .. | .or .. | .and ..
  | .fence .. | .mret .. | .csrrw .. | .csrrs .. | .csrrc ..
  | .csrrwi .. | .csrrsi .. | .csrrci .. | .csrReadF000 .. | .csrReadF100 .. => none

/-- FETCH (R170, R171, R172). `s` is the state before the tick, `t` the stores' part of the state after it. -/
def fetchTick (s t : State) : State :=
  if aligned s.pc .word then setEu .fetchWait (setBus .instruction (readRequest .word s.pc) t)
  else setEu (.trapEntry ⟨.instructionAddressMisaligned, s.pc⟩) t

/-- FETCH_WAIT (R173): "hold the instruction-bus cycle asserted until acknowledge; on acknowledge, latch the fetched word
and advance a 2-bit wait counter", then DECODE_EXECUTE when the counter is done (log 36). DESIGN CHOICE: in the tick in which the
master sees acknowledge, acknowledge, data_out, the address and every other line of the bus go back to `Bus.idle` (log 47). -/
def fetchWaitTick (s t : State) : State :=
  if s.micro.ibus.cycle then
    if s.micro.ibus.acknowledge then setWaitCnt 1 (setBus .instruction .idle (latch s.micro.ibus.dataOut t))
    else t
  else if s.micro.eu.waitCnt < s.config.waitTicks then setWaitCnt (s.micro.eu.waitCnt + 1) t
  else setEu .decodeExecute (setWaitCnt 0 t)

/-- DECODE_EXECUTE (R175): LOAD and STORE go to MEM_WAIT, ECALL and EBREAK to TRAP_ENTRY, the rest commit. -/
def decodeTick (s t : State) : Result :=
  match decodeWord s.micro.eu.ir with
  | .error stage => .refused (.unenumerated stage)
  | .ok i => match memAccess i s, decodedTrap i s with
    | some _, _ => .next (setEu .memWait t)
    | none, some c => .next (setEu (.trapEntry c) t)
    | none, none => exec i (setEu .fetch t)

/-- MEM_WAIT with its access (R177, 43_load_store.md R261 to R264): check alignment "before activating the data bus", issue
the transaction, stall until acknowledge, commit. DESIGN CHOICE: the bus goes back to `Bus.idle`, acknowledge and data_out with it, in
the tick in which the master sees acknowledge (log 47). -/
def memWaitTick (m : MemAccess) (s t : State) : State :=
  match m with
  | .load n signed rd a =>
    if s.micro.dbus.cycle then
      if s.micro.dbus.acknowledge then
        advance (setReg (setEu .fetch (setBus .data .idle t)) rd (extendLoad signed n s.micro.dbus.dataOut))
      else t
    else if aligned a n then setBus .data (readRequest n a) t
    else setEu (.trapEntry ⟨.loadAddressMisaligned, s.pc⟩) t
  | .store n a v =>
    if s.micro.dbus.cycle then
      if s.micro.dbus.acknowledge then advance (setEu .fetch (setBus .data .idle t)) else t
    else if aligned a n then setBus .data (writeRequest n a v) t
    else setEu (.trapEntry ⟨.storeAddressMisaligned, s.pc⟩) t

/-- One tick of the ExecutionUnit (R170). DESIGN CHOICE: FETCH, DECODE_EXECUTE and TRAP_ENTRY take one tick each; the source gives no
count (70_reset_and_hazards.md R381, 91_not_in_source.md N37; log 48). -/
def euTick (s t : State) : Result :=
  match s.micro.eu.state with
  | .fetch => .next (fetchTick s t)
  | .fetchWait => .next (fetchWaitTick s t)
  | .decodeExecute => decodeTick s t
  | .memWait => match decodeWord s.micro.eu.ir with
    | .error stage => .refused (.unenumerated stage)
    | .ok i => match memAccess i s with
      | some m => .next (memWaitTick m s t)
      | none => exec i (setEu .fetch t)
  | .trapEntry c => .next (takeTrap c.cause c.faultingPc t)

/-- One clock tick (70_reset_and_hazards.md R379). -/
def tick (s : State) : Result :=
  match storesTick s with
  | .error f => .fault f
  | .ok t => euTick s t

/-- `n` ticks, stopping at the first stop. -/
def ticks : Nat → State → Result
  | 0, s => .next s
  | n + 1, s => match tick s with
    | .next t => ticks n t
    | .fault f => .fault f
    | .refused r => .refused r

/-- A tick retires an instruction or takes a trap when the machine returns to FETCH (R170). -/
def retires (s t : State) : Prop := s.micro.eu.state ≠ .fetch ∧ t.micro.eu.state = .fetch

end Sys2Proof.Machine
end

