-- ==== Sys2Proof/Safety.lean ====
section
/-! DEFINITION. The terms that statements use: the invariant of a run, what an instruction may change, what a program can see, and
where the cycle-level machine stands between instructions. -/

namespace Sys2Proof.Machine

/-! ## The invariant -/

/-- What every step keeps: both stores in canonical form, every listed address one that its store can have, and the slot
behind the hardwired x0 still 0 (10_state.md R31, 20_memory.md R75, R97). -/
def RunInv (s : State) : Prop :=
  s.mem.wf ∧ s.flash.wf ∧ (∀ c ∈ s.mem, c.1 < regionsEnd) ∧ (∀ c ∈ s.flash, c.1 < 2 ^ 24) ∧ s.regs[0] = 0

/-! ## What an instruction names -/

/-- The general register an instruction names as its destination: "LUI, AUIPC, the OP-IMM and OP instructions, JAL, JALR, the
loads and the CSR instructions" (10_state.md R33). -/
def dest : Instr → Option RegIdx
  | .lui rd _ | .auipc rd _ | .jal rd _ | .jalr rd _ _ => some rd
  | .lb rd _ _ | .lh rd _ _ | .lw rd _ _ | .lbu rd _ _ | .lhu rd _ _ => some rd
  | .addi rd _ _ | .slti rd _ _ | .sltiu rd _ _ | .xori rd _ _ | .ori rd _ _ | .andi rd _ _ => some rd
  | .slli rd _ _ | .srli rd _ _ | .srai rd _ _ => some rd
  | .add rd _ _ | .sub rd _ _ | .sll rd _ _ | .slt rd _ _ | .sltu rd _ _ => some rd
  | .xor rd _ _ | .srl rd _ _ | .sra rd _ _ | .or rd _ _ | .and rd _ _ => some rd
  | .csrrw rd _ _ | .csrrs rd _ _ | .csrrc rd _ _ | .csrrwi rd _ _ | .csrrsi rd _ _ | .csrrci rd _ _ => some rd
  | .csrReadF000 rd _ _ | .csrReadF100 rd _ _ => some rd
  | .beq .. | .bne .. | .blt .. | .bge .. | .bltu .. | .bgeu .. | .sb .. | .sh .. | .sw .. | .fence ..
  | .ecall .. | .ebreak .. | .mret .. => none

/-- The CSR number that an instruction may write (44_system.md R297 to R302). -/
def csrWritten : Instr → Option CsrNum
  | .csrrw _ csr _ | .csrrs _ csr _ | .csrrc _ csr _ | .csrrwi _ csr _ | .csrrsi _ csr _ | .csrrci _ csr _ => some csr
  | .lui .. | .auipc .. | .jal .. | .jalr .. | .beq .. | .bne .. | .blt .. | .bge .. | .bltu .. | .bgeu ..
  | .lb .. | .lh .. | .lw .. | .lbu .. | .lhu .. | .sb .. | .sh .. | .sw ..
  | .addi .. | .slti .. | .sltiu .. | .xori .. | .ori .. | .andi .. | .slli .. | .srli .. | .srai ..
  | .add .. | .sub .. | .sll .. | .slt .. | .sltu .. | .xor .. | .srl .. | .sra .. | .or .. | .and ..
  | .fence .. | .ecall .. | .ebreak .. | .mret .. | .csrReadF000 .. | .csrReadF100 .. => none

/-- The bytes an instruction stores to: the effective address and the width in bytes (43_load_store.md R260, R270 to
R272). -/
def storesTo (i : Instr) (s : State) : Option (Word × Nat) :=
  match i with
  | .sb rs1 _ imm => some (storeAddress s rs1 imm, 1)
  | .sh rs1 _ imm => some (storeAddress s rs1 imm, 2)
  | .sw rs1 _ imm => some (storeAddress s rs1 imm, 4)
  | .lui .. | .auipc .. | .jal .. | .jalr .. | .beq .. | .bne .. | .blt .. | .bge .. | .bltu .. | .bgeu ..
  | .lb .. | .lh .. | .lw .. | .lbu .. | .lhu ..
  | .addi .. | .slti .. | .sltiu .. | .xori .. | .ori .. | .andi .. | .slli .. | .srli .. | .srai ..
  | .add .. | .sub .. | .sll .. | .slt .. | .sltu .. | .xor .. | .srl .. | .sra .. | .or .. | .and ..
  | .fence .. | .ecall .. | .ebreak .. | .mret .. | .csrrw .. | .csrrs .. | .csrrc ..
  | .csrrwi .. | .csrrsi .. | .csrrci .. | .csrReadF000 .. | .csrReadF100 .. => none

/-- JAL, JALR and the branches: the instructions that set the pc to a target of their own (10_state.md R36). -/
def isTransfer : Instr → Bool
  | .jal .. | .jalr .. | .beq .. | .bne .. | .blt .. | .bge .. | .bltu .. | .bgeu .. => true
  | .lui .. | .auipc .. | .lb .. | .lh .. | .lw .. | .lbu .. | .lhu .. | .sb .. | .sh .. | .sw ..
  | .addi .. | .slti .. | .sltiu .. | .xori .. | .ori .. | .andi .. | .slli .. | .srli .. | .srai ..
  | .add .. | .sub .. | .sll .. | .slt .. | .sltu .. | .xor .. | .srl .. | .sra .. | .or .. | .and ..
  | .fence .. | .ecall .. | .ebreak .. | .mret .. | .csrrw .. | .csrrs .. | .csrrc ..
  | .csrrwi .. | .csrrsi .. | .csrrci .. | .csrReadF000 .. | .csrReadF100 .. => false

/-! ## Frames -/

/-- The bits of a register that a CSR instruction can write (10_state.md R50). -/
def csrMask : CsrName → Word
  | .mstatus => 0x00000008
  | .mtvec => 0xFFFFFFFD
  | .mepc => 0xFFFFFFFC
  | .mcause => 0xFFFFFFFF
  | .mtval => 0xFFFFFFFF
  | .minstret => 0x0000FFFF

/-- No byte of either store changes: every address reads as before. -/
def SameBytes (s t : State) : Prop :=
  ∀ a, t.mem.readByte a = s.mem.readByte a ∧ t.flash.readByte a = s.flash.readByte a

/-- Register `rd` holds `v`, unless it is x0, which reads 0; every other register is as before (10_state.md R31). -/
def RegisterWritten (rd : RegIdx) (v : Word) (s t : State) : Prop :=
  (∀ j, j ≠ rd → getReg t j = getReg s j) ∧ getReg t rd = if rd = 0 then 0 else v

/-- Every general register is as before. -/
def SameRegisters (s t : State) : Prop := ∀ j, getReg t j = getReg s j

/-- Every CSR number reads as before. -/
def SameCsrs (s t : State) : Prop :=
  ∀ a, csrRead t.config.csrAddr t.csr a = csrRead s.config.csrAddr s.csr a

/-- `i` at `s` completes: `rd` gets `v`, the pc becomes `target`, and every other register, every CSR, every byte of memory
and every construction parameter stays. -/
def WritesRegister (i : Instr) (s : State) (rd : RegIdx) (v target : Word) : Prop :=
  ∃ t, exec i s = .next t ∧ RegisterWritten rd v s t ∧ t.pc = target ∧ SameCsrs s t ∧ SameBytes s t ∧ t.config = s.config

/-- `i` at `s` completes: the pc becomes `target` and every register, every CSR, every byte of memory and every construction
parameter stays. -/
def OnlyMovesPc (i : Instr) (s : State) (target : Word) : Prop :=
  ∃ t, exec i s = .next t ∧ t.pc = target ∧ SameRegisters s t ∧ SameCsrs s t ∧ SameBytes s t ∧ t.config = s.config

/-- `i` at `s` completes and stores `bytes` from address `a` up: each byte reads so, every address outside them reads as before, and
every register, every CSR, the flash image and the parameters stay. -/
def StoresBytes (i : Instr) (s : State) (a : Word) (bytes : List Byte) : Prop :=
  ∃ t, exec i s = .next t ∧
    (∀ k (h : k < bytes.length), t.mem.readByte (a.toNat + k) = some bytes[k]) ∧
    (∀ x, x < a.toNat ∨ a.toNat + bytes.length ≤ x → t.mem.readByte x = s.mem.readByte x) ∧
    (∀ x, t.flash.readByte x = s.flash.readByte x) ∧ t.pc = s.pc + 4 ∧ SameRegisters s t ∧ SameCsrs s t ∧
    t.config = s.config

/-- The state after a trap of cause `cause`, whose code is `code`, with the recorded address `faultingPc` (60_exceptions.md R336,
R338): mcause, mepc and mie written, the pc at the trap vector, the ExecutionUnit in FETCH, nothing else changed. -/
def TrapTaken (cause : Cause) (code : Nat) (faultingPc : Word) (s t : State) : Prop :=
  t.csr.mcause.interrupt = 0 ∧ t.csr.mcause.ecode.toNat = code ∧
  t.csr.mepc.epc.toNat = faultingPc.toNat / 4 ∧ csrValue t.csr .mepc = faultingPc &&& 0xFFFFFFFC ∧
  t.csr.mstatus.mie = 0 ∧ t.csr.mstatus.mpie = s.csr.mstatus.mpie ∧
  t.csr.mtvec = s.csr.mtvec ∧ t.csr.mtval = s.csr.mtval ∧ t.csr.minstret = s.csr.minstret ∧
  t.pc = trapVector cause s.csr.mtvec ∧
  t.micro = { s.micro with eu := { s.micro.eu with state := .fetch } } ∧
  SameRegisters s t ∧ SameBytes s t ∧ t.config = s.config

/-- `i` at `s` completes as a CSR instruction on the register `n`: `rd` gets the old value, the writable bits of `n` become those of
`new`, and every other bit of `n`, every other CSR, every other register and every byte of memory stays (44_system.md R292,
R293, R296). -/
def AppliesCsr (i : Instr) (s : State) (rd : RegIdx) (n : CsrName) (new : Word) : Prop :=
  ∃ t, exec i s = .next t ∧ RegisterWritten rd (csrValue s.csr n) s t ∧ t.pc = s.pc + 4 ∧
    csrValue t.csr n = (csrValue s.csr n &&& ~~~csrMask n) ||| (new &&& csrMask n) ∧
    (∀ m, m ≠ n → csrValue t.csr m = csrValue s.csr m) ∧ SameBytes s t ∧ t.config = s.config

/-! ## Encodings -/

/-- The word of `i` has the opcode and, where the class has one, the funct3 that a rule's Encoding clause gives, the named row of
the opcode table covers it first, and it decodes to `i`. -/
def SpelledAs (i : Instr) (row : String) (opcode : BitVec 7) (funct3 : Option (BitVec 3)) : Prop :=
  opcodeOf (encode i) = opcode ∧ (∀ f, funct3 = some f → funct3Of (encode i) = f) ∧ firstRow (encode i) = some row ∧
  decodeWord (encode i) = .ok i

/-- The same for the classes that funct7, or the funct7-like selector of the shifts, selects in too. -/
def SpelledAs7 (i : Instr) (row : String) (opcode : BitVec 7) (funct3 : BitVec 3) (funct7 : BitVec 7) : Prop :=
  SpelledAs i row opcode (some funct3) ∧ funct7Of (encode i) = funct7

/-! ## Memory as a program sees it -/

/-- The byte a program sees at a bus address: the RAM's or the ROM image's at that address, or the flash device's at the flash
address of the boot-region offset (20_memory.md R75, R80, R86, R97). -/
def byteSeen (s : State) (a : Word) : Option Byte :=
  match route s.config .data a with
  | some (.ram, _) => s.mem.readByte a.toNat
  | some (.rom, _) => s.mem.readByte a.toNat
  | some (.flash, o) => s.flash.readByte (flashAddress s.config o)
  | none => none

/-- The store behind a bus address has a word there: the address is mapped and inside its RAM array, ROM image or flash
image (20_memory.md R79, R83, R87, R97). -/
def Answers (s : State) (a : Word) : Prop :=
  ∃ k o w, route s.config .data a = some (k, o) ∧ storeWord s k o = .ok w

/-- A bus address inside the RAM array (20_memory.md R75, R83). -/
def InRam (s : State) (a : Word) : Prop :=
  ramBase ≤ a.toNat ∧ a.toNat < regionsEnd ∧ (a.toNat - ramBase) / 4 < s.config.ramWords

/-- The stop for an address inside a region but past what its store holds: RamOutOfRange past RAM_WORDS, RomOutOfRange past the ROM
image, FlashOutOfRange for a flash read that needs a byte past the flash image (20_memory.md R83, R87, R97; logs 13, 14, 23). -/
def outOfRange (s : State) (a : Word) : Option Fault :=
  if regionsEnd ≤ a.toNat then none
  else if ramBase ≤ a.toNat then
    if s.config.ramWords ≤ (a.toNat - ramBase) / 4 then some .ramOutOfRange else none
  else match s.config.bootStore with
    | .rom => if s.mem.wordFrom (a.toNat / 4 * 4) = none then some .romOutOfRange else none
    | .flash => if flashWord s.flash (flashAddress s.config a.toNat) = none then some .flashOutOfRange else none

/-! ## What a program can see of the machine -/

/-- The state with its microarchitectural part forgotten (10_state.md section 6: "None of these is readable by a program"). -/
def arch (s : State) : State := { s with micro := .reset }

/-- Two outcomes that differ at most in the microarchitectural part of a next state. -/
def SameOutcome (r r' : Result) : Prop :=
  match r, r' with
  | .next t, .next t' => arch t = arch t'
  | .fault f, .fault f' => f = f'
  | .refused x, .refused x' => x = x'
  | _, _ => False

/-- Two machines that differ only in their boot store, a ROM behind the first and a serial flash behind the second, the flash holding
every byte of the ROM image at its flash address (20_memory.md R99). -/
def Twin (s f : State) : Prop :=
  s.config.bootStore = .rom ∧ f.config = { s.config with bootStore := .flash } ∧
  f.regs = s.regs ∧ f.pc = s.pc ∧ f.csr = s.csr ∧
  (∀ a, ramBase ≤ a → f.mem.readByte a = s.mem.readByte a) ∧
  (∀ o b, o < ramBase → s.mem.readByte o = some b → f.flash.readByte (flashAddress f.config o) = some b)

/-- The ExecutionUnit is in FETCH with no transaction outstanding, as it is between instructions (40_execution_cycle.md R170,
20_memory.md R74). -/
def Idle (s : State) : Prop :=
  s.micro.eu.state = .fetch ∧ s.micro.eu.waitCnt = 0 ∧ s.micro.ibus = .idle ∧ s.micro.dbus = .idle ∧
  s.micro.ramAck = 0 ∧ s.micro.romAck = 0

/-! ## The machine between ticks -/

/-- The bus request that a data access makes (20_memory.md R71, R73). -/
def MemAccess.request : MemAccess → Bus
  | .load n _ _ a => readRequest n a
  | .store n a v => writeRequest n a v

/-- Whether a data access passes the alignment check of MEM_WAIT (20_memory.md R104). -/
def MemAccess.isAligned : MemAccess → Bool
  | .load n _ _ a => aligned a n
  | .store n a _ => aligned a n

/-- The word `w` answers the request `r`: its low bytes are the value that the read gives, or the write has taken effect "no later than
its acknowledge" (20_memory.md R74). -/
def Answered (s : State) (n : BusName) (r : Bus) (w : Word) : Prop :=
  if r.writeEnable then memWrite r.address r.width r.dataIn s = .ok s
  else memRead n r.address r.width s = .ok (lowBytes r.width w)

/-- The bus carries the request `r`, not yet acknowledged, or acknowledged with its answer. -/
def Carries (s : State) (n : BusName) (r : Bus) : Prop :=
  busOf s n = r ∨ ∃ w, busOf s n = { r with acknowledge := true, dataOut := w } ∧ Answered s n r w

/-- What the buses carry in each state of the ExecutionUnit: at most one transaction, the fetch's in FETCH_WAIT and the latched
instruction's in MEM_WAIT (20_memory.md R72, 40_execution_cycle.md R171 to R177). -/
def BusesFollow (s : State) : Prop :=
  match s.micro.eu.state with
  | .fetch | .decodeExecute | .trapEntry _ => s.micro.ibus = .idle ∧ s.micro.dbus = .idle
  | .fetchWait => s.micro.dbus = .idle ∧
      (s.micro.ibus = .idle ∨ aligned s.pc .word = true ∧ Carries s .instruction (readRequest .word s.pc))
  | .memWait => s.micro.ibus = .idle ∧ ∃ i m, decodeWord s.micro.eu.ir = .ok i ∧ memAccess i s = some m ∧
      (s.micro.dbus = .idle ∨ m.isAligned = true ∧ Carries s .data m.request)

/-- Where the j-th received bit is stored: "7,6,...,0, then 15,...,8, then 23,...,16, then 31,...,24" (20_memory.md R95). -/
def bitPlace (j : Nat) : Nat := 8 * (j / 8) + (7 - j % 8)

/-- `spi_clk` after `j` clocked ticks from low: toggled by each (90_conflicts.md C10), or low again after each whole cycle (log 37). -/
def clkAt (m : SpiClocking) (j : Nat) : Bool :=
  match m with
  | .edgePerTick => decide (j % 2 = 1)
  | .cyclePerTick => false

/-- What the SPIFlashController and the flash device hold in each state, up to the bit: in POWERUP, the settling ticks left; in TX, `j` bits of
the command sent; in RX, `k` bits of the word received, for a read that is still requested; and `spi_clk` (20_memory.md R90 to R98; logs
37, 39). -/
def SpiFollows (s : State) : Prop :=
  match s.micro.spi.state with
  | .reset => True
  | .powerup => s.micro.spi.clk = clkAt s.config.spiClock (30 - s.micro.spi.countdown) ∧
      1 ≤ s.micro.spi.countdown ∧ s.micro.spi.countdown ≤ 30 ∧ s.micro.spi.cs = decide (23 ≤ s.micro.spi.countdown)
  | .waiting => s.micro.spi.clk = false ∧ s.micro.spi.cs = false
  | .tx => ∃ n o j, s.micro.spi.clk = clkAt s.config.spiClock j ∧
      requester .flash s = some (n, o) ∧ (busOf s n).writeEnable = false ∧ s.micro.spi.cs = true ∧ j ≤ 31 ∧
      s.micro.spi.countdown = 31 - j ∧ s.micro.spi.shift = readCommand s.config o <<< j ∧
      s.micro.spi.mosi = s.micro.spi.shift.msb ∧
      s.micro.flashDev = { command := readCommand s.config o >>> (32 - j), bits := j }
  | .rx => ∃ n o k, s.micro.spi.clk = clkAt s.config.spiClock (32 + k) ∧
      requester .flash s = some (n, o) ∧ (busOf s n).writeEnable = false ∧ s.micro.spi.cs = true ∧ k ≤ 31 ∧
      s.micro.spi.countdown = bitPlace k ∧ s.micro.flashDev = { command := readCommand s.config o, bits := 32 + k } ∧
      ∀ j, j < k → ∃ b, s.flash.readByte ((flashAddress s.config o + j / 8) % 2 ^ 24) = some b ∧
        s.micro.spi.data.getLsbD (bitPlace j) = b.getLsbD (7 - j % 8)

/-- What every tick keeps: the buses carry what the ExecutionUnit's state says, and the SPI controller is where its read stands. The idle bus
after an acknowledge, the device's registers, the clock readings, data_in and the width on a read and the zeros shifted in behind the command
are the model's choices (logs 37, 39, 47, 49, 51 to 53). -/
def MicroInv (s : State) : Prop := BusesFollow s ∧ SpiFollows s

end Sys2Proof.Machine
end

