-- ==== Sys2Proof/Certificates/Slice0/Obligations.lean ====
section
/-! DEFINITION. The statements for the provers. OBLIGATIONS.json says of each which rule of spec/ it formalises. -/

open Sys2Proof Sys2Proof.Machine

/-! ## Encoding -/

/-- No bit of an encoding is dropped: every well-formed instruction is read back from its word (30_encoding.md R131 to R147). The numeric
encodings are the spec's decision D5 (log 5). -/
def Obligations.DecodeOfEncode : Prop :=
  ∀ i : Instr, i.wellFormed = true → decodeWord (encode i) = .ok i

/-- A word has one spelling: the decoded instruction is well-formed and its word is the word decoded. -/
def Obligations.EncodeOfDecode : Prop :=
  ∀ (w : Word) (i : Instr), decodeWord w = .ok i → i.wellFormed = true ∧ encode i = w

/-- The decoder is the opcode table (30_encoding.md R149): the first row that covers a word, in the table's order, is the decoded
instruction's, and no row covers a refused word. -/
def Obligations.DecoderFollowsTheTable : Prop :=
  ∀ w : Word, firstRow w = (decodeWord w).toOption.map Instr.mnemonic

/-- Two different rows cover one word only where the order of the table decides: the read form of funct3 000 beside ECALL, EBREAK
or MRET (30_encoding.md R149, an inference the spec marks as derived). -/
def Obligations.OnlyReadFormRowOverlaps : Prop :=
  ∀ (w : Word), ∀ r ∈ opcodeTable, ∀ r' ∈ opcodeTable, r.covers w = true → r'.covers w = true → r ≠ r' →
    (r.mnemonic = "csr_read_f000" ∧ r'.mnemonic ∈ ["ecall", "ebreak", "mret"]) ∨
    (r'.mnemonic = "csr_read_f000" ∧ r.mnemonic ∈ ["ecall", "ebreak", "mret"])

/-- The refused words, stage by stage (30_encoding.md R151, the spec's decision D6; log 6). R151's list for STORE begins at funct3 100;
funct3 011 is outside R145 as well and is refused with it. No SYSTEM word is refused: its opcode stands in no case. -/
def Obligations.RefusedWordsByStage : Prop :=
  ∀ (w : Word) (stage : Stage), decodeWord w = .error stage ↔
    match stage with
    | .opcode => opcodeOf w ∉
        [0b0110111, 0b0010111, 0b0010011, 0b0110011, 0b1101111, 0b1100111, 0b1100011, 0b0000011, 0b0100011, 0b0001111, 0b1110011]
    | .funct3 =>
      (opcodeOf w = 0b1100111 ∧ funct3Of w ≠ 0b000) ∨
      (opcodeOf w = 0b1100011 ∧ funct3Of w ∈ [0b010, 0b011]) ∨
      (opcodeOf w = 0b0000011 ∧ funct3Of w ∈ [0b011, 0b110, 0b111]) ∨
      (opcodeOf w = 0b0100011 ∧ funct3Of w ∈ [0b011, 0b100, 0b101, 0b110, 0b111]) ∨
      (opcodeOf w = 0b0001111 ∧ funct3Of w ≠ 0b000)
    | .funct7 => opcodeOf w = 0b0110011 ∧ funct7Of w ≠ 0b0000000 ∧
        ¬(funct7Of w = 0b0100000 ∧ funct3Of w ∈ [0b000, 0b101])
    | .shamt => opcodeOf w = 0b0010011 ∧
        ((funct3Of w = 0b001 ∧ funct7Of w ≠ 0b0000000) ∨
         (funct3Of w = 0b101 ∧ funct7Of w ≠ 0b0000000 ∧ funct7Of w ≠ 0b0100000))

/-- Words that the spec's worked examples spell (R194, R195, R242, R243, R245, R266, R271, R202, R204, R206, R273, R297, R301, R304 to
R306, R303), one or more of each family. The encodings are the spec's decisions D5 and D8 (logs 5, 8). -/
def Obligations.SampleWordsDecode : Prop :=
  decodeWord 0x123452B7 = .ok (.lui 5 0x12345) ∧
  decodeWord 0x00001297 = .ok (.auipc 5 0x00001) ∧
  decodeWord 0x008000EF = .ok (.jal 1 8) ∧
  decodeWord 0x004280E7 = .ok (.jalr 1 5 4) ∧
  decodeWord 0xFE209CE3 = .ok (.bne 1 2 0x1FF8) ∧
  decodeWord 0x00509283 = .ok (.lh 5 1 5) ∧
  decodeWord 0x007092A3 = .ok (.sh 1 7 5) ∧
  decodeWord 0xFFF00093 = .ok (.addi 1 0 0xFFF) ∧
  decodeWord 0x01F11093 = .ok (.slli 1 2 31) ∧
  decodeWord 0x40415093 = .ok (.srai 1 2 4) ∧
  decodeWord 0x402081B3 = .ok (.sub 3 1 2) ∧
  decodeWord 0x0FF0000F = .ok (.fence 0 15 15 0 0) ∧
  decodeWord 0x305312F3 = .ok (.csrrw 5 0x305 6) ∧
  decodeWord 0x300462F3 = .ok (.csrrsi 5 0x300 8) ∧
  decodeWord 0x00000073 = .ok (.ecall 0 0) ∧
  decodeWord 0x00100073 = .ok (.ebreak 0 0) ∧
  decodeWord 0x30200073 = .ok (.mret 0 0) ∧
  decodeWord 0x10500073 = .ok (.csrReadF000 0 0x105 0) ∧
  decodeWord 0x300042F3 = .ok (.csrReadF100 5 0x300 0)

/-- The ALU function code is read from the word (30_encoding.md R148, the spec's decision D7; log 7): the selector is funct3, the modifier
bit 30 for OP and for the OP-IMM shifts and 0 for the other OP-IMM forms, and what the instruction computes is that operation. -/
def Obligations.AluFunctionCode : Prop :=
  ∀ (w : Word) (i : Instr) (op : AluOp) (s : State), decodeWord w = .ok i →
    (opcodeOf w = 0b0110011 → aluOpOf (funct3Of w) (w.extractLsb' 30 1) = some op →
      WritesRegister i s (rdOf w) (alu op (getReg s (rs1Of w)) (getReg s (rs2Of w))) (s.pc + 4)) ∧
    (opcodeOf w = 0b0010011 → funct3Of w = 0b101 → aluOpOf (funct3Of w) (w.extractLsb' 30 1) = some op →
      WritesRegister i s (rdOf w) (alu op (getReg s (rs1Of w)) ((rs2Of w).setWidth 32)) (s.pc + 4)) ∧
    (opcodeOf w = 0b0010011 → funct3Of w ≠ 0b101 → aluOpOf (funct3Of w) 0 = some op →
      WritesRegister i s (rdOf w) (alu op (getReg s (rs1Of w)) ((immIOf w).signExtend 32)) (s.pc + 4))

/-! ## Reset and construction -/

/-- After reset every general register holds 0 and the pc is 0 (10_state.md R34, R38). -/
def Obligations.ResetRegistersAndPc : Prop :=
  (∀ j, getReg State.reset j = 0) ∧ State.reset.pc = 0x00000000

/-- After reset every CSR number reads 0. The zero is the spec's decision D2 (log 1), not the source's. -/
def Obligations.ResetCsrsReadZero : Prop :=
  ∀ a, csrRead State.reset.config.csrAddr State.reset.csr a = 0

/-- The reset signal, whenever it comes (70_reset_and_hazards.md R370, R371, the spec's decisions D2, D24 and D26; logs 1, 24, 26): registers,
pc and CSRs 0, no transaction in flight, the SPI controller in RESET with chip-select asserted, and RAM, images and parameters
kept. -/
def Obligations.AssertedReset : Prop :=
  ∀ s : State,
    (∀ j, getReg (assertReset s) j = 0) ∧ (assertReset s).pc = 0 ∧
    (∀ a, csrRead s.config.csrAddr (assertReset s).csr a = 0) ∧
    Idle (assertReset s) ∧ (assertReset s).micro.spi.state = .reset ∧ (assertReset s).micro.spi.cs = true ∧
    SameBytes s (assertReset s) ∧ (assertReset s).config = s.config ∧ (RunInv s → RunInv (assertReset s)) ∧
    MicroInv (assertReset s)

/-- The reset state satisfies both invariants: the one every step keeps and the one every tick keeps. -/
def Obligations.ResetSatisfiesInv : Prop := RunInv State.reset ∧ MicroInv State.reset

/-- What construction puts in the stores (00_scope.md R11, 20_memory.md R85, R86, R87, R96): ROM word i at offset 4i and nothing past the
image, `RAM_INIT` in every RAM word and no RAM past `RAM_WORDS`, flash byte j at flash address j and nothing past the image. The
bounds are the sizes of the two regions and of the 24-bit flash address; that a read past the contents stops is the spec's decisions D13,
D14 and D23 (logs 13, 14, 23). -/
def Obligations.ConstructedStores : Prop :=
  ∀ (c : Config) (rom : List Word) (flash : List Byte) (init : Nat → Word),
    4 * rom.length ≤ ramBase → 4 * c.ramWords ≤ ramBase → flash.length ≤ 2 ^ 24 →
    (∀ i (h : i < rom.length), storeWord (construct c rom flash init) .rom (4 * i) = .ok rom[i]) ∧
    (∀ o, 4 * rom.length ≤ o → o < ramBase → storeWord (construct c rom flash init) .rom o = .error .romOutOfRange) ∧
    (∀ i, i < c.ramWords → storeWord (construct c rom flash init) .ram (4 * i) = .ok (init i)) ∧
    (∀ o, 4 * c.ramWords ≤ o → storeWord (construct c rom flash init) .ram o = .error .ramOutOfRange) ∧
    (∀ j (h : j < flash.length), (construct c rom flash init).flash.readByte j = some flash[j]) ∧
    (∀ j, flash.length ≤ j → j < 2 ^ 24 → (construct c rom flash init).flash.readByte j = none) ∧
    RunInv (construct c rom flash init) ∧ MicroInv (construct c rom flash init)

/-! ## The step -/

/-- A step runs the instruction that the bytes at the pc spell (40_execution_cycle.md R179, 20_memory.md R102, R103): it is `exec` of
the decoded instruction in a state that differs from this one by the count of the fetch and by the microarchitectural part, which is
idle with the word latched (log 35). -/
def Obligations.StepRunsDecodedInstruction : Prop :=
  ∀ (s : State) (b0 b1 b2 b3 : Byte) (i : Instr) (rest : List Byte),
    s.micro.eu.state = .fetch → s.pc.toNat % 4 = 0 → Answers s s.pc →
    byteSeen s s.pc = some b0 → byteSeen s (s.pc + 1) = some b1 → byteSeen s (s.pc + 2) = some b2 →
    byteSeen s (s.pc + 3) = some b3 → decodeBytes (b0 :: b1 :: b2 :: b3 :: rest) = .ok (i, rest) →
    ∃ u, step s = exec i u ∧ u.regs = s.regs ∧ u.pc = s.pc ∧ u.mem = s.mem ∧ u.flash = s.flash ∧ u.config = s.config ∧
      u.csr = { s.csr with minstret := { instrs := s.csr.minstret.instrs + 1 } } ∧
      u.micro.eu.ir = wordOfBytes b0 b1 b2 b3 ∧ Idle u

/-- A word placed where the machine fetches is what the next step runs, from ROM, flash or RAM (log 32): the model's own loader. -/
def Obligations.PlacedWordRuns : Prop :=
  ∀ (s : State) (w : Word) (i : Instr) (k : Backing) (o : Nat),
    RunInv s → s.pc.toNat % 4 = 0 → route s.config .instruction s.pc = some (k, o) → (k = .ram → o / 4 < s.config.ramWords) →
    decodeWord w = .ok i →
    ∃ u, step (s.withFetchWord 32 w.toNat) = exec i u ∧ u.regs = s.regs ∧ u.pc = s.pc ∧ u.config = s.config ∧
      u.csr = { s.csr with minstret := { instrs := s.csr.minstret.instrs + 1 } } ∧ u.micro.eu.ir = w

/-- A misaligned fetch takes trap 1 with the pc as faulting pc, before any bus activity and without a count (40_execution_cycle.md
R171). -/
def Obligations.MisalignedFetchTraps : Prop :=
  ∀ s : State, s.micro.eu.state = .fetch → s.pc.toNat % 4 ≠ 0 →
    ∃ t, step s = .next t ∧ TrapTaken .instructionAddressMisaligned 1 s.pc s t ∧
      t.micro.ibus = s.micro.ibus ∧ t.micro.dbus = s.micro.dbus ∧ t.csr.minstret = s.csr.minstret

/-- minstret counts every fetched instruction, trapping ones too, once, modulo 2^16, and no misaligned fetch (40_execution_cycle.md R173,
R174, the spec's decision D4; log 4); the one exception is an instruction that itself writes minstret. -/
def Obligations.MinstretCountsFetches : Prop :=
  ∀ s t : State, s.micro.eu.state = .fetch → step s = .next t →
    (s.pc.toNat % 4 ≠ 0 → t.csr.minstret = s.csr.minstret) ∧
    (s.pc.toNat % 4 = 0 → ∃ w i, fetch s = .ok w ∧ decodeWord w = .ok i ∧
      ((∀ a, csrWritten i = some a → csrNamed s.config.csrAddr a ≠ some .minstret) →
        t.csr.minstret.instrs.toNat = (s.csr.minstret.instrs.toNat + 1) % 2 ^ 16))

/-- An access at 0x40000000 or above hangs: fetch, load or store (20_memory.md R79); the endless wait is a fault of the model's own name
(log 28). -/
def Obligations.UnmappedAccessHangs : Prop :=
  ∀ (s : State) (r rs1 rs2 : RegIdx) (imm : BitVec 12),
    (s.micro.eu.state = .fetch → s.pc.toNat % 4 = 0 → 0x40000000 ≤ s.pc.toNat → step s = .fault .hangNoResponder) ∧
    (0x40000000 ≤ (loadAddress s rs1 imm).toNat →
      exec (.lb r rs1 imm) s = .fault .hangNoResponder ∧ exec (.lbu r rs1 imm) s = .fault .hangNoResponder ∧
      ((loadAddress s rs1 imm).toNat % 4 ≠ 3 →
        exec (.lh r rs1 imm) s = .fault .hangNoResponder ∧ exec (.lhu r rs1 imm) s = .fault .hangNoResponder) ∧
      ((loadAddress s rs1 imm).toNat % 4 = 0 → exec (.lw r rs1 imm) s = .fault .hangNoResponder)) ∧
    (0x40000000 ≤ (storeAddress s rs1 imm).toNat →
      exec (.sb rs1 rs2 imm) s = .fault .hangNoResponder ∧
      ((storeAddress s rs1 imm).toNat % 4 ≠ 3 → exec (.sh rs1 rs2 imm) s = .fault .hangNoResponder) ∧
      ((storeAddress s rs1 imm).toNat % 4 = 0 → exec (.sw rs1 rs2 imm) s = .fault .hangNoResponder))

/-- Where the source has no behaviour the model stops, by name (20_memory.md R83, R87, R89, R97, the spec's decisions D13, D14, D15, D23;
logs 13, 14, 15, 23): every fetch and load past the RAM array or an image, every store past the RAM array and every store to the boot
region that passes its alignment check. -/
def Obligations.OutOfRangeAccessFaults : Prop :=
  ∀ (s : State) (r rs1 rs2 : RegIdx) (imm : BitVec 12) (f : Fault),
    (s.micro.eu.state = .fetch → s.pc.toNat % 4 = 0 → outOfRange s s.pc = some f → step s = .fault f) ∧
    (outOfRange s (loadAddress s rs1 imm) = some f →
      exec (.lb r rs1 imm) s = .fault f ∧ exec (.lbu r rs1 imm) s = .fault f ∧
      ((loadAddress s rs1 imm).toNat % 4 ≠ 3 → exec (.lh r rs1 imm) s = .fault f ∧ exec (.lhu r rs1 imm) s = .fault f) ∧
      ((loadAddress s rs1 imm).toNat % 4 = 0 → exec (.lw r rs1 imm) s = .fault f)) ∧
    (ramBase ≤ (storeAddress s rs1 imm).toNat → (storeAddress s rs1 imm).toNat < regionsEnd →
      ¬InRam s (storeAddress s rs1 imm) →
      exec (.sb rs1 rs2 imm) s = .fault .ramOutOfRange ∧
      ((storeAddress s rs1 imm).toNat % 4 ≠ 3 → exec (.sh rs1 rs2 imm) s = .fault .ramOutOfRange) ∧
      ((storeAddress s rs1 imm).toNat % 4 = 0 → exec (.sw rs1 rs2 imm) s = .fault .ramOutOfRange)) ∧
    ((storeAddress s rs1 imm).toNat < ramBase →
      exec (.sb rs1 rs2 imm) s = .fault .storeToBootStore ∧
      ((storeAddress s rs1 imm).toNat % 4 ≠ 3 → exec (.sh rs1 rs2 imm) s = .fault .storeToBootStore) ∧
      ((storeAddress s rs1 imm).toNat % 4 = 0 → exec (.sw rs1 rs2 imm) s = .fault .storeToBootStore))

/-- A fetched word that is no row of the table is refused, by its stage (30_encoding.md R151, the spec's decision D6; log 6). -/
def Obligations.UnenumeratedWordRefused : Prop :=
  ∀ (s : State) (w : Word) (stage : Stage), s.micro.eu.state = .fetch → s.pc.toNat % 4 = 0 → fetch s = .ok w →
    decodeWord w = .error stage → step s = .refused (.unenumerated stage)

/-! ## Integer instructions -/

/-- LUI (41_integer.md R194). -/
def Obligations.LuiResult : Prop :=
  ∀ (s : State) (rd : RegIdx) (imm : BitVec 20),
    SpelledAs (.lui rd imm) "lui" 0b0110111 none ∧
    WritesRegister (.lui rd imm) s rd (BitVec.ofNat 32 (imm.toNat * 4096)) (s.pc + 4)

/-- AUIPC, with its own address as the base (41_integer.md R195, general knowledge; log 42), and ADDI, whose bit 30 selects nothing (R196,
the spec's decision D7; log 7). -/
def Obligations.AuipcAndAddiResults : Prop :=
  ∀ (s : State) (rd rs1 : RegIdx) (upper : BitVec 20) (imm : BitVec 12),
    SpelledAs (.auipc rd upper) "auipc" 0b0010111 none ∧
    WritesRegister (.auipc rd upper) s rd (BitVec.ofNat 32 (s.pc.toNat + upper.toNat * 4096)) (s.pc + 4) ∧
    SpelledAs (.addi rd rs1 imm) "addi" 0b0010011 (some 0b000) ∧
    WritesRegister (.addi rd rs1 imm) s rd (BitVec.ofInt 32 ((getReg s rs1).toInt + imm.toInt)) (s.pc + 4)

/-- SLTI to SRAI (41_integer.md R197 to R204), each by the value it writes. The arithmetic right shift is floor division. That SLTI, SLTIU,
XORI, ORI and ANDI with bit 30 of the word set, which is bit 10 of the immediate, write the same function of the immediate is the spec's
decision D7 (log 7). -/
def Obligations.OpImmResults : Prop :=
  ∀ (s : State) (rd rs1 : RegIdx) (imm : BitVec 12) (shamt : BitVec 5),
    (SpelledAs (.slti rd rs1 imm) "slti" 0b0010011 (some 0b010) ∧
      WritesRegister (.slti rd rs1 imm) s rd (if (getReg s rs1).toInt < imm.toInt then 1 else 0) (s.pc + 4)) ∧
    (SpelledAs (.sltiu rd rs1 imm) "sltiu" 0b0010011 (some 0b011) ∧
      WritesRegister (.sltiu rd rs1 imm) s rd
        (if (getReg s rs1).toNat < (imm.signExtend 32).toNat then 1 else 0) (s.pc + 4)) ∧
    (SpelledAs (.xori rd rs1 imm) "xori" 0b0010011 (some 0b100) ∧
      WritesRegister (.xori rd rs1 imm) s rd (getReg s rs1 ^^^ imm.signExtend 32) (s.pc + 4)) ∧
    (SpelledAs (.ori rd rs1 imm) "ori" 0b0010011 (some 0b110) ∧
      WritesRegister (.ori rd rs1 imm) s rd (getReg s rs1 ||| imm.signExtend 32) (s.pc + 4)) ∧
    (SpelledAs (.andi rd rs1 imm) "andi" 0b0010011 (some 0b111) ∧
      WritesRegister (.andi rd rs1 imm) s rd (getReg s rs1 &&& imm.signExtend 32) (s.pc + 4)) ∧
    (SpelledAs7 (.slli rd rs1 shamt) "slli" 0b0010011 0b001 0b0000000 ∧
      WritesRegister (.slli rd rs1 shamt) s rd (BitVec.ofNat 32 ((getReg s rs1).toNat * 2 ^ shamt.toNat)) (s.pc + 4)) ∧
    (SpelledAs7 (.srli rd rs1 shamt) "srli" 0b0010011 0b101 0b0000000 ∧
      WritesRegister (.srli rd rs1 shamt) s rd (BitVec.ofNat 32 ((getReg s rs1).toNat / 2 ^ shamt.toNat)) (s.pc + 4)) ∧
    (SpelledAs7 (.srai rd rs1 shamt) "srai" 0b0010011 0b101 0b0100000 ∧
      WritesRegister (.srai rd rs1 shamt) s rd (BitVec.ofInt 32 ((getReg s rs1).toInt / 2 ^ shamt.toNat)) (s.pc + 4))

/-- The ten OP instructions (41_integer.md R205 to R214), each by the value it writes; a shift amount is `x[rs2]` modulo 32. -/
def Obligations.OpResults : Prop :=
  ∀ (s : State) (rd rs1 rs2 : RegIdx),
    (SpelledAs7 (.add rd rs1 rs2) "add" 0b0110011 0b000 0b0000000 ∧
      WritesRegister (.add rd rs1 rs2) s rd (BitVec.ofNat 32 ((getReg s rs1).toNat + (getReg s rs2).toNat)) (s.pc + 4)) ∧
    (SpelledAs7 (.sub rd rs1 rs2) "sub" 0b0110011 0b000 0b0100000 ∧
      WritesRegister (.sub rd rs1 rs2) s rd (BitVec.ofInt 32 ((getReg s rs1).toInt - (getReg s rs2).toInt)) (s.pc + 4)) ∧
    (SpelledAs7 (.sll rd rs1 rs2) "sll" 0b0110011 0b001 0b0000000 ∧
      WritesRegister (.sll rd rs1 rs2) s rd
        (BitVec.ofNat 32 ((getReg s rs1).toNat * 2 ^ ((getReg s rs2).toNat % 32))) (s.pc + 4)) ∧
    (SpelledAs7 (.slt rd rs1 rs2) "slt" 0b0110011 0b010 0b0000000 ∧
      WritesRegister (.slt rd rs1 rs2) s rd (if (getReg s rs1).toInt < (getReg s rs2).toInt then 1 else 0) (s.pc + 4)) ∧
    (SpelledAs7 (.sltu rd rs1 rs2) "sltu" 0b0110011 0b011 0b0000000 ∧
      WritesRegister (.sltu rd rs1 rs2) s rd (if (getReg s rs1).toNat < (getReg s rs2).toNat then 1 else 0) (s.pc + 4)) ∧
    (SpelledAs7 (.xor rd rs1 rs2) "xor" 0b0110011 0b100 0b0000000 ∧
      WritesRegister (.xor rd rs1 rs2) s rd (getReg s rs1 ^^^ getReg s rs2) (s.pc + 4)) ∧
    (SpelledAs7 (.srl rd rs1 rs2) "srl" 0b0110011 0b101 0b0000000 ∧
      WritesRegister (.srl rd rs1 rs2) s rd
        (BitVec.ofNat 32 ((getReg s rs1).toNat / 2 ^ ((getReg s rs2).toNat % 32))) (s.pc + 4)) ∧
    (SpelledAs7 (.sra rd rs1 rs2) "sra" 0b0110011 0b101 0b0100000 ∧
      WritesRegister (.sra rd rs1 rs2) s rd
        (BitVec.ofInt 32 ((getReg s rs1).toInt / 2 ^ ((getReg s rs2).toNat % 32))) (s.pc + 4)) ∧
    (SpelledAs7 (.or rd rs1 rs2) "or" 0b0110011 0b110 0b0000000 ∧
      WritesRegister (.or rd rs1 rs2) s rd (getReg s rs1 ||| getReg s rs2) (s.pc + 4)) ∧
    (SpelledAs7 (.and rd rs1 rs2) "and" 0b0110011 0b111 0b0000000 ∧
      WritesRegister (.and rd rs1 rs2) s rd (getReg s rs1 &&& getReg s rs2) (s.pc + 4))

/-- "left-shift-via-reversal produces the same bits as a direct logical left shift" (41_integer.md R192): only operand A is reversed. -/
def Obligations.LeftShiftByReversal : Prop :=
  ∀ a b : Word, rev (alu .srl (rev a) b) = a <<< (b.toNat % 32) ∧ ∀ i, i < 32 → (rev a).getLsbD i = a.getLsbD (31 - i)

/-- The arithmetic laws (41_integer.md R193). That a word of the OP class whose funct7 is 0000001 is refused at stage funct7 is the spec's
decision D6 (30_encoding.md R151; log 6), to which R193 points. -/
def Obligations.AluLaws : Prop :=
  (∀ a b : Word, (alu .add a b).toNat = (a.toNat + b.toNat) % 2 ^ 32) ∧
  (∀ a b : Word, alu .sub a b = alu .add a (BitVec.ofNat 32 (2 ^ 32 - b.toNat))) ∧
  (∀ a b : Word, alu .slt a b = if a.toInt < b.toInt then 1 else 0) ∧
  (∀ a b : Word, alu .sltu a b = if a.toNat < b.toNat then 1 else 0) ∧
  (∀ a b : Word, alu .srl a b = alu .srl a (b &&& 31) ∧ alu .sra a b = alu .sra a (b &&& 31) ∧
    shiftLeft a b = shiftLeft a (b &&& 31)) ∧
  (∀ a : Word, alu .srl a 32 = a ∧ alu .sra a 32 = a ∧ shiftLeft a 32 = a ∧
    alu .srl a 33 = alu .srl a 1 ∧ alu .sra a 33 = alu .sra a 1 ∧ shiftLeft a 33 = shiftLeft a 1) ∧
  (∀ w : Word, opcodeOf w = 0b0110011 → funct7Of w = 0b0000001 → decodeWord w = .error .funct7)

/-! ## Control transfer -/

/-- JAL and JALR (42_control_transfer.md R242, R243): the link, the target from the old `x[rs1]`, bit 0 kept, no check of the target. -/
def Obligations.JumpResults : Prop :=
  ∀ (s : State) (rd rs1 : RegIdx) (offset : BitVec 21) (imm : BitVec 12),
    (evenOffset offset = true → SpelledAs (.jal rd offset) "jal" 0b1101111 none) ∧
    WritesRegister (.jal rd offset) s rd (s.pc + 4) (s.pc + offset.signExtend 32) ∧
    SpelledAs (.jalr rd rs1 imm) "jalr" 0b1100111 (some 0b000) ∧
    WritesRegister (.jalr rd rs1 imm) s rd (s.pc + 4) (getReg s rs1 + imm.signExtend 32)

/-- The six branches (42_control_transfer.md R244 to R249): each condition by the integers it compares, and no register written. -/
def Obligations.BranchResults : Prop :=
  ∀ (s : State) (rs1 rs2 : RegIdx) (offset : BitVec 13),
    (evenOffset offset = true →
      SpelledAs (.beq rs1 rs2 offset) "beq" 0b1100011 (some 0b000) ∧ SpelledAs (.bne rs1 rs2 offset) "bne" 0b1100011 (some 0b001) ∧
      SpelledAs (.blt rs1 rs2 offset) "blt" 0b1100011 (some 0b100) ∧ SpelledAs (.bge rs1 rs2 offset) "bge" 0b1100011 (some 0b101) ∧
      SpelledAs (.bltu rs1 rs2 offset) "bltu" 0b1100011 (some 0b110) ∧
      SpelledAs (.bgeu rs1 rs2 offset) "bgeu" 0b1100011 (some 0b111)) ∧
    OnlyMovesPc (.beq rs1 rs2 offset) s
      (if getReg s rs1 = getReg s rs2 then s.pc + offset.signExtend 32 else s.pc + 4) ∧
    OnlyMovesPc (.bne rs1 rs2 offset) s
      (if getReg s rs1 ≠ getReg s rs2 then s.pc + offset.signExtend 32 else s.pc + 4) ∧
    OnlyMovesPc (.blt rs1 rs2 offset) s
      (if (getReg s rs1).toInt < (getReg s rs2).toInt then s.pc + offset.signExtend 32 else s.pc + 4) ∧
    OnlyMovesPc (.bge rs1 rs2 offset) s
      (if (getReg s rs1).toInt ≥ (getReg s rs2).toInt then s.pc + offset.signExtend 32 else s.pc + 4) ∧
    OnlyMovesPc (.bltu rs1 rs2 offset) s
      (if (getReg s rs1).toNat < (getReg s rs2).toNat then s.pc + offset.signExtend 32 else s.pc + 4) ∧
    OnlyMovesPc (.bgeu rs1 rs2 offset) s
      (if (getReg s rs1).toNat ≥ (getReg s rs2).toNat then s.pc + offset.signExtend 32 else s.pc + 4)

/-- A jump or taken branch to a misaligned target retires, link register and all; the next step traps with cause 1 at the target, which
mepc holds rounded down (42_control_transfer.md R240, 60_exceptions.md R333, marked derived). -/
def Obligations.MisalignedTargetTrapsNext : Prop :=
  ∀ (s t : State) (i : Instr), s.micro.eu.state = .fetch → isTransfer i = true → exec i s = .next t → t.pc.toNat % 4 ≠ 0 →
    ∃ u, step t = .next u ∧ TrapTaken .instructionAddressMisaligned 1 t.pc t u ∧
      (∀ rd, dest i = some rd → rd ≠ 0 → getReg u rd = s.pc + 4)

/-! ## Loads, stores, FENCE -/

/-- The five loads (43_load_store.md R262, R265 to R269), by the bytes a program sees at the effective address, wherever the store behind it
answers. Which byte of a RAM word a sub-word load receives is the spec's decision D11 (log 11), and the effective address general
knowledge (R260; log 42). -/
def Obligations.LoadResults : Prop :=
  ∀ (s : State) (rd rs1 : RegIdx) (imm : BitVec 12) (a : Word),
    SpelledAs (.lb rd rs1 imm) "lb" 0b0000011 (some 0b000) ∧ SpelledAs (.lh rd rs1 imm) "lh" 0b0000011 (some 0b001) ∧
    SpelledAs (.lw rd rs1 imm) "lw" 0b0000011 (some 0b010) ∧ SpelledAs (.lbu rd rs1 imm) "lbu" 0b0000011 (some 0b100) ∧
    SpelledAs (.lhu rd rs1 imm) "lhu" 0b0000011 (some 0b101) ∧
    (a = getReg s rs1 + imm.signExtend 32 → Answers s a →
      (∃ b0 : Byte, byteSeen s a = some b0 ∧
        WritesRegister (.lb rd rs1 imm) s rd (b0.signExtend 32) (s.pc + 4) ∧
        WritesRegister (.lbu rd rs1 imm) s rd (b0.setWidth 32) (s.pc + 4)) ∧
      (a.toNat % 4 ≠ 3 → ∃ b0 b1 : Byte, byteSeen s a = some b0 ∧ byteSeen s (a + 1) = some b1 ∧
        WritesRegister (.lh rd rs1 imm) s rd ((b1 ++ b0).signExtend 32) (s.pc + 4) ∧
        WritesRegister (.lhu rd rs1 imm) s rd ((b1 ++ b0).setWidth 32) (s.pc + 4)) ∧
      (a.toNat % 4 = 0 → ∃ b0 b1 b2 b3 : Byte, byteSeen s a = some b0 ∧ byteSeen s (a + 1) = some b1 ∧
        byteSeen s (a + 2) = some b2 ∧ byteSeen s (a + 3) = some b3 ∧
        WritesRegister (.lw rd rs1 imm) s rd (b3 ++ b2 ++ b1 ++ b0) (s.pc + 4)))

/-- A misaligned load or store traps with cause 4 or 6 and its own pc, with no bus transaction, no register, no memory and no mtval written
(43_load_store.md R261): a halfword when both low address bits are 1, a word when either is; and no other access traps. -/
def Obligations.MisalignedAccessTraps : Prop :=
  ∀ (s : State) (rd rs1 rs2 : RegIdx) (imm : BitVec 12),
    ((loadAddress s rs1 imm).toNat % 4 = 3 →
      (∃ t, exec (.lh rd rs1 imm) s = .next t ∧ TrapTaken .loadAddressMisaligned 4 s.pc s t) ∧
      (∃ t, exec (.lhu rd rs1 imm) s = .next t ∧ TrapTaken .loadAddressMisaligned 4 s.pc s t)) ∧
    ((loadAddress s rs1 imm).toNat % 4 ≠ 0 →
      ∃ t, exec (.lw rd rs1 imm) s = .next t ∧ TrapTaken .loadAddressMisaligned 4 s.pc s t) ∧
    ((storeAddress s rs1 imm).toNat % 4 = 3 →
      ∃ t, exec (.sh rs1 rs2 imm) s = .next t ∧ TrapTaken .storeAddressMisaligned 6 s.pc s t) ∧
    ((storeAddress s rs1 imm).toNat % 4 ≠ 0 →
      ∃ t, exec (.sw rs1 rs2 imm) s = .next t ∧ TrapTaken .storeAddressMisaligned 6 s.pc s t) ∧
    (∀ (i : Instr) (t : State), exec i s = .next t →
      (i ∈ [.lb rd rs1 imm, .lbu rd rs1 imm, .sb rs1 rs2 imm] ∨
        (i ∈ [.lh rd rs1 imm, .lhu rd rs1 imm] ∧ (loadAddress s rs1 imm).toNat % 4 ≠ 3) ∨
        (i = .lw rd rs1 imm ∧ (loadAddress s rs1 imm).toNat % 4 = 0) ∨
        (i = .sh rs1 rs2 imm ∧ (storeAddress s rs1 imm).toNat % 4 ≠ 3) ∨
        (i = .sw rs1 rs2 imm ∧ (storeAddress s rs1 imm).toNat % 4 = 0)) →
      t.pc = s.pc + 4 ∧ t.csr = s.csr)

/-- The three stores (43_load_store.md R263, R271, R272): the low bytes of `x[rs2]` at the effective address, least significant first, and
every other byte of memory, every register and every CSR as before. `a` is the address stored to. Which byte goes to which lane is the
spec's decision D12 (log 12). -/
def Obligations.StoreResults : Prop :=
  ∀ (s : State) (rs1 rs2 : RegIdx) (imm : BitVec 12) (a : Word),
    SpelledAs (.sb rs1 rs2 imm) "sb" 0b0100011 (some 0b000) ∧ SpelledAs (.sh rs1 rs2 imm) "sh" 0b0100011 (some 0b001) ∧
    SpelledAs (.sw rs1 rs2 imm) "sw" 0b0100011 (some 0b010) ∧
    (RunInv s → a = getReg s rs1 + imm.signExtend 32 → InRam s a →
      StoresBytes (.sb rs1 rs2 imm) s a [(getReg s rs2).extractLsb' 0 8] ∧
      (a.toNat % 4 ≠ 3 →
        StoresBytes (.sh rs1 rs2 imm) s a [(getReg s rs2).extractLsb' 0 8, (getReg s rs2).extractLsb' 8 8]) ∧
      (a.toNat % 4 = 0 →
        StoresBytes (.sw rs1 rs2 imm) s a
          [(getReg s rs2).extractLsb' 0 8, (getReg s rs2).extractLsb' 8 8, (getReg s rs2).extractLsb' 16 8,
           (getReg s rs2).extractLsb' 24 8]))

/-- "writing a word then reading the same address returns the exact word" (43_load_store.md R272), and after SW the bytes and halfwords of the
word, by address, are what LBU and LHU read (20_memory.md R103, marked derived). -/
def Obligations.StoreThenLoad : Prop :=
  ∀ (s t : State) (rd rs1 rs2 : RegIdx) (imm : BitVec 12) (k : Nat),
    RunInv s → InRam s (storeAddress s rs1 imm) → exec (.sw rs1 rs2 imm) s = .next t → (storeAddress s rs1 imm).toNat % 4 = 0 →
    WritesRegister (.lw rd rs1 imm) t rd (getReg s rs2) (t.pc + 4) ∧
    (k < 4 → loadAddress t rs1 (imm + BitVec.ofNat 12 k) = storeAddress s rs1 imm + BitVec.ofNat 32 k →
      WritesRegister (.lbu rd rs1 (imm + BitVec.ofNat 12 k)) t rd
        (((getReg s rs2).extractLsb' (8 * k) 8).setWidth 32) (t.pc + 4) ∧
      (k < 3 → WritesRegister (.lhu rd rs1 (imm + BitVec.ofNat 12 k)) t rd
        (((getReg s rs2).extractLsb' (8 * k) 16).setWidth 32) (t.pc + 4)))

/-- Instruction fetch is coherent with stores, with no fence (20_memory.md R111, 70_reset_and_hazards.md R377, marked derived): after SW to a
word of RAM, a fetch of that address reads the stored word. -/
def Obligations.FetchSeesStore : Prop :=
  ∀ (s t : State) (rs1 rs2 : RegIdx) (imm : BitVec 12), RunInv s → (storeAddress s rs1 imm).toNat % 4 = 0 →
    InRam s (storeAddress s rs1 imm) → exec (.sw rs1 rs2 imm) s = .next t →
    fetch { t with pc := storeAddress s rs1 imm } = .ok (getReg s rs2)

/-- FENCE is a no-op whatever its fields (43_load_store.md R273, 20_memory.md R109, the spec's decision D21; log 21). -/
def Obligations.FenceDoesNothing : Prop :=
  ∀ (s : State) (fm pred succ : BitVec 4) (rs1 rd : RegIdx),
    SpelledAs (.fence fm pred succ rs1 rd) "fence" 0b0001111 (some 0b000) ∧
    OnlyMovesPc (.fence fm pred succ rs1 rd) s (s.pc + 4)

/-! ## CSR and system instructions -/

/-- The six CSR instructions on a register of the bank (44_system.md R297 to R302): rd gets the old value, the writable bits of the register
become the operand's, the OR or the AND NOT with the value from before, and nothing else changes. An operand of 0 sets and clears
nothing. -/
def Obligations.CsrInstructionResults : Prop :=
  ∀ (s : State) (rd rs1 : RegIdx) (zimm : BitVec 5) (csr : CsrNum) (n : CsrName), csrNamed s.config.csrAddr csr = some n →
    (SpelledAs (.csrrw rd csr rs1) "csrrw" 0b1110011 (some 0b001) ∧
      AppliesCsr (.csrrw rd csr rs1) s rd n (getReg s rs1)) ∧
    (SpelledAs (.csrrs rd csr rs1) "csrrs" 0b1110011 (some 0b010) ∧
      AppliesCsr (.csrrs rd csr rs1) s rd n (getReg s rs1 ||| csrValue s.csr n)) ∧
    (SpelledAs (.csrrc rd csr rs1) "csrrc" 0b1110011 (some 0b011) ∧
      AppliesCsr (.csrrc rd csr rs1) s rd n (~~~getReg s rs1 &&& csrValue s.csr n)) ∧
    (SpelledAs (.csrrwi rd csr zimm) "csrrwi" 0b1110011 (some 0b101) ∧
      AppliesCsr (.csrrwi rd csr zimm) s rd n (zimm.setWidth 32)) ∧
    (SpelledAs (.csrrsi rd csr zimm) "csrrsi" 0b1110011 (some 0b110) ∧
      AppliesCsr (.csrrsi rd csr zimm) s rd n (zimm.setWidth 32 ||| csrValue s.csr n)) ∧
    (SpelledAs (.csrrci rd csr zimm) "csrrci" 0b1110011 (some 0b111) ∧
      AppliesCsr (.csrrci rd csr zimm) s rd n (~~~(zimm.setWidth 32) &&& csrValue s.csr n))

/-- A CSR number outside `CSR_ADDR` reads 0 and is not written, with no exception (44_system.md R294); that the read forms are CSR
instructions too is the spec's decision D8 (log 8). -/
def Obligations.UnknownCsrReadsZero : Prop :=
  ∀ (s : State) (rd rs1 : RegIdx) (zimm : BitVec 5) (csr : CsrNum), csrNamed s.config.csrAddr csr = none →
    WritesRegister (.csrrw rd csr rs1) s rd 0 (s.pc + 4) ∧ WritesRegister (.csrrs rd csr rs1) s rd 0 (s.pc + 4) ∧
    WritesRegister (.csrrc rd csr rs1) s rd 0 (s.pc + 4) ∧ WritesRegister (.csrrwi rd csr zimm) s rd 0 (s.pc + 4) ∧
    WritesRegister (.csrrsi rd csr zimm) s rd 0 (s.pc + 4) ∧ WritesRegister (.csrrci rd csr zimm) s rd 0 (s.pc + 4) ∧
    WritesRegister (.csrReadF000 rd csr rs1) s rd 0 (s.pc + 4) ∧ WritesRegister (.csrReadF100 rd csr rs1) s rd 0 (s.pc + 4)

/-- The two CSR-read forms (44_system.md R303, the spec's decision D8; log 8): rd gets the value, nothing is written, rs1 does not count. The
standard WFI and SRET words are of the first and change nothing but the pc. -/
def Obligations.CsrReadForms : Prop :=
  ∀ (s : State) (rd rs1 : RegIdx) (csr : CsrNum),
    WritesRegister (.csrReadF000 rd csr rs1) s rd (csrRead s.config.csrAddr s.csr csr) (s.pc + 4) ∧
    WritesRegister (.csrReadF100 rd csr rs1) s rd (csrRead s.config.csrAddr s.csr csr) (s.pc + 4) ∧
    (∀ i, decodeWord 0x10500073 = .ok i ∨ decodeWord 0x10200073 = .ok i → OnlyMovesPc i s (s.pc + 4))

/-- The 32-bit value of a CSR is its fields, each at its place, and a write stores into the RW fields their bits and leaves the rest
(10_state.md R48). -/
def Obligations.CsrValueIsItsFields : Prop :=
  ∀ (c : CsrBank) (v : Word),
    (csrValue c .mstatus).toNat = c.mstatus.mie.toNat * 2 ^ 3 + c.mstatus.mpie.toNat * 2 ^ 7 ∧
    (csrValue c .mtvec).toNat = c.mtvec.mode.toNat + c.mtvec.base.toNat * 2 ^ 2 ∧
    (csrValue c .mepc).toNat = c.mepc.epc.toNat * 2 ^ 2 ∧
    (csrValue c .mcause).toNat = c.mcause.interrupt.toNat * 2 ^ 31 + c.mcause.ecode.toNat ∧
    (csrValue c .mtval).toNat = c.mtval.einfo.toNat ∧
    (csrValue c .minstret).toNat = c.minstret.instrs.toNat ∧
    (csrStore c v .mstatus).mstatus.mie.toNat = v.toNat / 2 ^ 3 % 2 ∧ (csrStore c v .mstatus).mstatus.mpie = c.mstatus.mpie ∧
    (csrStore c v .mtvec).mtvec.mode.toNat = v.toNat % 2 ∧ (csrStore c v .mtvec).mtvec.base.toNat = v.toNat / 2 ^ 2 ∧
    (csrStore c v .mepc).mepc.epc.toNat = v.toNat / 2 ^ 2 ∧
    (csrStore c v .mcause).mcause.interrupt.toNat = v.toNat / 2 ^ 31 ∧
    (csrStore c v .mcause).mcause.ecode.toNat = v.toNat % 2 ^ 31 ∧
    (csrStore c v .mtval).mtval.einfo = v ∧
    (csrStore c v .minstret).minstret.instrs.toNat = v.toNat % 2 ^ 16 ∧
    ∀ n m, m ≠ n → csrValue (csrStore c v n) m = csrValue c m

/-- ECALL takes trap 11 and EBREAK trap 3, whatever their unexamined fields (44_system.md R304, R305); that the faulting pc is the
instruction's own address is the spec's decision D10 (log 10). -/
def Obligations.EcallAndEbreakTrap : Prop :=
  ∀ (s : State) (rd rs1 : RegIdx),
    (∃ t, exec (.ecall rd rs1) s = .next t ∧ TrapTaken .environmentCall 11 s.pc s t) ∧
    (∃ t, exec (.ebreak rd rs1) s = .next t ∧ TrapTaken .breakpoint 3 s.pc s t)

/-- MRET (44_system.md R306): mie becomes 1, the pc the word address in mepc, and nothing else changes. -/
def Obligations.MretResult : Prop :=
  ∀ (s : State) (rd rs1 : RegIdx),
    SpelledAs (.mret rd rs1) "mret" 0b1110011 (some 0b000) ∧ csrOf (encode (.mret rd rs1)) = 0x302 ∧
    ∃ t, exec (.mret rd rs1) s = .next t ∧ t.csr.mstatus.mie = 1 ∧ t.csr.mstatus.mpie = s.csr.mstatus.mpie ∧
      t.pc.toNat = 4 * s.csr.mepc.epc.toNat ∧ t.csr.mtvec = s.csr.mtvec ∧ t.csr.mepc = s.csr.mepc ∧
      t.csr.mcause = s.csr.mcause ∧ t.csr.mtval = s.csr.mtval ∧ t.csr.minstret = s.csr.minstret ∧
      SameRegisters s t ∧ SameBytes s t ∧ t.config = s.config

/-! ## Traps -/

/-- Trap entry (60_exceptions.md R336), for every cause and every faulting pc. -/
def Obligations.TrapEntryEffect : Prop :=
  ∀ (cause : Cause) (faultingPc : Word) (s : State), TrapTaken cause cause.code.toNat faultingPc s (takeTrap cause faultingPc s)

/-- The trap vector (60_exceptions.md R337), modulo 2^32 by the spec's decision D25 (log 25), with the per-cause offsets of vectored mode. -/
def Obligations.TrapVectorAddress : Prop :=
  ∀ (cause : Cause) (v : Mtvec),
    (trapVector cause v).toNat = (4 * (v.base.toNat + if v.mode = 1 then cause.code.toNat else 0)) % 2 ^ 32 ∧
    (trapVector cause v).toNat % 4 = 0 ∧
    (v.mode = 1 → ∀ B : Word, B = place 32 2 v.base →
      trapVector .instructionAddressMisaligned v = B + 4 ∧ trapVector .breakpoint v = B + 12 ∧
      trapVector .loadAddressMisaligned v = B + 16 ∧ trapVector .storeAddressMisaligned v = B + 24 ∧
      trapVector .environmentCall v = B + 44) ∧
    (v.mode = 0 → trapVector cause v = place 32 2 v.base)

/-- mtval and mtvec change only by a CSR instruction that names them: no trap writes mtval (60_exceptions.md R338, 10_state.md
R43). -/
def Obligations.MtvalAndMtvecOnlyByCsr : Prop :=
  ∀ s t : State, s.micro.eu.state = .fetch → step s = .next t →
    (t.csr.mtval ≠ s.csr.mtval → ∃ w i a, fetch s = .ok w ∧ decodeWord w = .ok i ∧ csrWritten i = some a ∧
      csrNamed s.config.csrAddr a = some .mtval) ∧
    (t.csr.mtvec ≠ s.csr.mtvec → ∃ w i a, fetch s = .ok w ∧ decodeWord w = .ok i ∧ csrWritten i = some a ∧
      csrNamed s.config.csrAddr a = some .mtvec)

/-- The causes (60_exceptions.md R332): a step leaves mcause alone, or a CSR instruction names it, or it becomes one of 1, 3, 4, 6 and 11 with
the interrupt bit 0; code 2 is never raised, and a word that is no row is refused, not trapped (the spec's decision D6; log 6). -/
def Obligations.OnlyFiveCausesAreRaised : Prop :=
  ∀ s : State, s.micro.eu.state = .fetch →
    (∀ t, step s = .next t → t.csr.mcause ≠ s.csr.mcause →
      (∃ w i a, fetch s = .ok w ∧ decodeWord w = .ok i ∧ csrWritten i = some a ∧
        csrNamed s.config.csrAddr a = some .mcause) ∨
      (t.csr.mcause.interrupt = 0 ∧ t.csr.mcause.ecode.toNat ∈ [1, 3, 4, 6, 11])) ∧
    (∀ w stage, s.pc.toNat % 4 = 0 → fetch s = .ok w → decodeWord w = .error stage →
      step s = .refused (.unenumerated stage))

/-! ## The whole machine -/

/-- Every step keeps the invariant: both stores canonical and inside their address ranges, the slot behind x0 0 (10_state.md R31,
20_memory.md R75). -/
def Obligations.StepKeepsInv : Prop :=
  ∀ s t : State, RunInv s → step s = .next t → RunInv t

/-- What no step ever changes: mpie (10_state.md R42), the construction parameters (00_scope.md R11), the ROM image and the flash image
(20_memory.md R85, R89). -/
def Obligations.NeverChanged : Prop :=
  ∀ s t : State, RunInv s → step s = .next t →
    t.csr.mstatus.mpie = s.csr.mstatus.mpie ∧ t.config = s.config ∧
    (∀ a, t.flash.readByte a = s.flash.readByte a) ∧ (∀ a, a < ramBase → t.mem.readByte a = s.mem.readByte a)

/-- A byte of memory changes only where the executed instruction is a store whose bytes cover it, inside the RAM array (20_memory.md
R82, R85). -/
def Obligations.MemoryChangesOnlyByStores : Prop :=
  ∀ (s t : State) (a : Nat), RunInv s → s.micro.eu.state = .fetch → step s = .next t →
    t.mem.readByte a ≠ s.mem.readByte a →
    ∃ w i b n, fetch s = .ok w ∧ decodeWord w = .ok i ∧ storesTo i s = some (b, n) ∧ b.toNat ≤ a ∧ a < b.toNat + n ∧ InRam s b

/-- A general register changes only as the destination of the executed instruction, and never x0: so at most one does, and no trap writes
one (40_execution_cycle.md R176, 10_state.md R33). -/
def Obligations.RegistersChangeOnlyAsDestination : Prop :=
  ∀ (s t : State) (j : RegIdx), s.micro.eu.state = .fetch → step s = .next t → getReg t j ≠ getReg s j →
    j ≠ 0 ∧ ∃ w i, fetch s = .ok w ∧ decodeWord w = .ok i ∧ dest i = some j

/-- Where the pc goes (10_state.md R36, R37, 60_exceptions.md R333): to the next word, a target of JAL, JALR or a branch, the address in mepc
by MRET, or the trap vector; and only a target of JAL, JALR or a branch can be misaligned. -/
def Obligations.WhereThePcGoes : Prop :=
  ∀ s t : State, s.micro.eu.state = .fetch → step s = .next t →
    (t.pc = s.pc + 4 ∨ (∃ w i, fetch s = .ok w ∧ decodeWord w = .ok i ∧ isTransfer i = true) ∨
      (∃ w rd rs1, fetch s = .ok w ∧ decodeWord w = .ok (.mret rd rs1) ∧ t.pc.toNat = 4 * s.csr.mepc.epc.toNat) ∨
      (∃ cause : Cause, cause ≠ .illegalInstruction ∧ t.pc = trapVector cause s.csr.mtvec ∧ t.csr.mcause.ecode = cause.code)) ∧
    (t.pc.toNat % 4 ≠ 0 → s.pc.toNat % 4 = 0 ∧ ∃ w i, fetch s = .ok w ∧ decodeWord w = .ok i ∧ isTransfer i = true)

/-- The microarchitectural part is invisible (10_state.md section 6): two machines in FETCH that agree on all else step alike. -/
def Obligations.MicroarchitectureIsInvisible : Prop :=
  ∀ s s' : State, arch s = arch s' → s.micro.eu.state = .fetch → s'.micro.eu.state = .fetch →
    SameOutcome (step s) (step s')

/-- A step that begins idle ends idle: in FETCH with no transaction outstanding, so only one instruction is ever in flight
(40_execution_cycle.md R170, 10_state.md R55). -/
def Obligations.StepLeavesTheMachineIdle : Prop :=
  ∀ s t : State, Idle s → step s = .next t → Idle t

/-- A flash-backed machine and a ROM-backed one with the same bytes run in lock-step (20_memory.md R99, 70_reset_and_hazards.md R373): what the
first does next the second does too. Only a sub-word read within three bytes of the end of the flash image can differ: there the
flash device is asked for bytes past the image (R97, decision D23; log 23), so with a full device it never does. -/
def Obligations.RomAndFlashRunInLockstep : Prop :=
  ∀ s f t : State, Twin s f → s.micro.eu.state = .fetch → f.micro.eu.state = .fetch → RunInv s → RunInv f → step s = .next t →
    ((∃ g, step f = .next g ∧ Twin t g) ∨ step f = .fault .flashOutOfRange) ∧
    ((∀ A, A < 2 ^ 24 → ∃ b, f.flash.readByte A = some b) → ∃ g, step f = .next g ∧ Twin t g)

/-! ## The clock ticks -/

/-- The SPIFlashController after reset (20_memory.md R90 to R92; log 37): it loads the wake command 0xAB, shifts it out with chip-select
asserted for 8 bits, goes on with chip-select de-asserted, is in WAITING after 30 ticks, and answers no request till then, with either
boot store (70_reset_and_hazards.md R379; log 49). `spi_clk` toggles every tick, or makes a whole cycle in each (90_conflicts.md C10;
log 37). The last clause is about the flash device outside the core, whose registers are the model's own (PRESUMED, log 39): either way
they have taken in 0xAB after 8 ticks. -/
def Obligations.SpiWakesTheFlash : Prop :=
  (∀ s : State, s.micro.spi.state = .reset →
    ∃ t, spiTick s = .ok t ∧ t.micro.spi = s.micro.spi.resetTick ∧ t.micro.ibus = s.micro.ibus ∧ t.micro.dbus = s.micro.dbus) ∧
  (∀ s : State, s.micro.spi.state = .powerup →
    ∃ t, spiTick s = .ok t ∧ t.micro.spi = s.micro.spi.powerupTick s.config.spiClock ∧
      t.micro.flashDev = s.micro.flashDev.next s.config.spiClock s.micro.spi ∧
      t.micro.ibus = s.micro.ibus ∧ t.micro.dbus = s.micro.dbus) ∧
  (∀ c : SpiController, c.resetTick.state = .powerup ∧ c.resetTick.shift = 0xAB000000) ∧
  (∀ (m : SpiClocking) (c : SpiController) (k : Nat), k ≤ 30 →
    ((SpiController.powerupTick m)^[k] c.resetTick).state = (if k < 30 then SpiState.powerup else .waiting) ∧
    ((SpiController.powerupTick m)^[k] c.resetTick).cs = decide (k < 8) ∧
    ((SpiController.powerupTick m)^[k] c.resetTick).clk = (m == .edgePerTick && k % 2 == 1) ∧
    (k < 8 → ((SpiController.powerupTick m)^[k] c.resetTick).mosi = (0xAB : BitVec 8).getLsbD (7 - k))) ∧
  (∀ (m : SpiClocking) (c : SpiController),
    ((fun p : SpiController × FlashDevice => (p.1.powerupTick m, p.2.next m p.1))^[8] (c.resetTick, .idle)).2 =
      { command := 0xAB, bits := 8 })

/-- WAITING (20_memory.md R93; what a request for a write does there is the spec's decision D15, log 15): idle with chip-select
de-asserted until a read is requested, then the command word is latched, chip-select asserted and the countdown set to 31. -/
def Obligations.SpiLatchesReadCommand : Prop :=
  ∀ (s : State) (n : BusName), MicroInv s → s.config.bootStore = .flash → s.micro.spi.state = .waiting →
    s.micro.spi.cs = false ∧
    ((∀ m, (busOf s m).requests = false) → ∃ t, spiTick s = .ok t ∧ t.micro.spi = s.micro.spi) ∧
    ((busOf s n).requests = true → (∀ m, m ≠ n → (busOf s m).requests = false) → (busOf s n).writeEnable = false →
      (busOf s n).address.toNat < ramBase →
      ∃ t, spiTick s = .ok t ∧ t.micro.spi.state = .tx ∧ t.micro.spi.cs = true ∧ t.micro.spi.countdown = 31 ∧
        t.micro.spi.shift = 0x03000000 ||| (((busOf s n).address + s.config.flashBase.setWidth 32) &&& 0x00FFFFFF))

/-- A flash read serves the word (20_memory.md R94 to R96, from general knowledge of a serial flash; logs 37, 39): a fetch issued while the
controller waits is acknowledged, within the 66 ticks of log 37, with the four image bytes from flash address A, the first in bits 7:0, and
the controller is back in WAITING with chip-select de-asserted. -/
def Obligations.SpiReadReturnsFlashWord : Prop :=
  ∀ (s : State) (b0 b1 b2 b3 : Byte), RunInv s → MicroInv s → s.micro.eu.state = .fetch → s.config.bootStore = .flash →
    s.micro.spi.state = .waiting → s.pc.toNat % 4 = 0 → s.pc.toNat < ramBase →
    s.flash.readByte (flashAddress s.config s.pc.toNat) = some b0 →
    s.flash.readByte ((flashAddress s.config s.pc.toNat + 1) % 2 ^ 24) = some b1 →
    s.flash.readByte ((flashAddress s.config s.pc.toNat + 2) % 2 ^ 24) = some b2 →
    s.flash.readByte ((flashAddress s.config s.pc.toNat + 3) % 2 ^ 24) = some b3 →
    ∃ k t, k ≤ 66 ∧ ticks k s = .next t ∧ t.micro.ibus.acknowledge = true ∧ t.micro.ibus.dataOut = b3 ++ b2 ++ b1 ++ b0 ∧
      t.micro.spi.state = .waiting ∧ t.micro.spi.cs = false

/-- The RAM and the ROM acknowledge in the second tick after the one in which the request appears (20_memory.md R74, R84, R88; log 40):
for a fetch, a load and a store, with the answer there. -/
def Obligations.AcknowledgeAfterTwoTicks : Prop :=
  ∀ (s : State) (n : BusName) (k : Backing) (o : Nat), RunInv s → MicroInv s → (busOf s n).requests = true →
    route s.config n (busOf s n).address = some (k, o) → k ≠ .flash → s.micro.ramAck = 0 → s.micro.romAck = 0 →
    ∃ t, tick s = .next t ∧ busOf t n = busOf s n ∧
      ∀ u, tick t = .next u → (busOf u n).acknowledge = true ∧ Answered u n (busOf s n) (busOf u n).dataOut

/-- A request at 0x40000000 or above is never acknowledged: the machine holds the cycle and waits for ever, in FETCH_WAIT or MEM_WAIT, and
nothing a program can see changes (20_memory.md R79, 70_reset_and_hazards.md R383). -/
def Obligations.UnmappedRequestWaitsForEver : Prop :=
  ∀ (s : State) (n : BusName) (k : Nat), RunInv s → MicroInv s → (busOf s n).requests = true →
    0x40000000 ≤ (busOf s n).address.toNat →
    ∃ t, ticks k s = .next t ∧ busOf t n = busOf s n ∧ t.micro.eu = s.micro.eu ∧ arch t = arch s

/-- Every tick keeps both invariants (10_state.md R31, 20_memory.md R72, R74). What MicroInv says of `spi_clk` between ticks (log 37), of the
flash device's registers (log 39), of a bus after its acknowledge (log 47), of the controller beside a ROM boot store (log 49), of data_in
and the width on a read (logs 51, 52) and of the zeros shifted in behind the command (log 53) is the model's choice. -/
def Obligations.TickKeepsInvariants : Prop :=
  ∀ s t : State, RunInv s → MicroInv s → tick s = .next t → RunInv t ∧ MicroInv t

/-- The cycle-level machine refines the architectural step (00_scope.md R9, the spec's decision D28; log 27), from every state between two
ticks: a tick that returns to FETCH has done what the step does, any other leaves what the step does as it was, and a tick stops only as the
step does. -/
def Obligations.TickRefinesStep : Prop :=
  ∀ s : State, RunInv s → MicroInv s →
    match tick s with
    | .next t =>
      if s.micro.eu.state ≠ .fetch ∧ t.micro.eu.state = .fetch then SameOutcome (step s) (.next t)
      else SameOutcome (step s) (step t)
    | .fault f => step s = .fault f
    | .refused r => step s = .refused r

/-- The ticks get there: unless the step hangs, within 201 ticks the machine is back in FETCH in the state the step answers, or has stopped
as the step does (40_execution_cycle.md R170, R179; the bound is this model's, 00_scope.md R9; logs 36, 37, 40, 41, 48). -/
def Obligations.TicksCompleteTheStep : Prop :=
  ∀ s : State, RunInv s → MicroInv s → step s ≠ .fault .hangNoResponder →
    ∃ n, 0 < n ∧ n ≤ 201 ∧ SameOutcome (step s) (ticks n s) ∧ ∀ t, ticks n s = .next t → t.micro.eu.state = .fetch
end

