-- ==== Sys2Proof/Laws/State.lean ====
section
/-! SUPPORT. One lemma per field per update, so that no proof unfolds a record update. -/

namespace Sys2Proof.Machine

/-! ## setReg -/

@[simp] theorem setReg_pc (s : State) (i : RegIdx) (v : Word) : (setReg s i v).pc = s.pc := by unfold setReg; split <;> rfl
@[simp] theorem setReg_csr (s : State) (i : RegIdx) (v : Word) : (setReg s i v).csr = s.csr := by unfold setReg; split <;> rfl
@[simp] theorem setReg_mem (s : State) (i : RegIdx) (v : Word) : (setReg s i v).mem = s.mem := by unfold setReg; split <;> rfl
@[simp] theorem setReg_flash (s : State) (i : RegIdx) (v : Word) :
    (setReg s i v).flash = s.flash := by unfold setReg; split <;> rfl
@[simp] theorem setReg_config (s : State) (i : RegIdx) (v : Word) :
    (setReg s i v).config = s.config := by unfold setReg; split <;> rfl
@[simp] theorem setReg_micro (s : State) (i : RegIdx) (v : Word) :
    (setReg s i v).micro = s.micro := by unfold setReg; split <;> rfl

/-! ## setPc -/

@[simp] theorem setPc_regs (s : State) (t : Word) : (setPc s t).regs = s.regs := rfl
@[simp] theorem setPc_pc (s : State) (t : Word) : (setPc s t).pc = t := rfl
@[simp] theorem setPc_csr (s : State) (t : Word) : (setPc s t).csr = s.csr := rfl
@[simp] theorem setPc_mem (s : State) (t : Word) : (setPc s t).mem = s.mem := rfl
@[simp] theorem setPc_flash (s : State) (t : Word) : (setPc s t).flash = s.flash := rfl
@[simp] theorem setPc_config (s : State) (t : Word) : (setPc s t).config = s.config := rfl
@[simp] theorem setPc_micro (s : State) (t : Word) : (setPc s t).micro = s.micro := rfl

/-! ## advance -/

@[simp] theorem advance_regs (s : State) : (advance s).regs = s.regs := rfl
@[simp] theorem advance_pc (s : State) : (advance s).pc = s.pc + 4 := rfl
@[simp] theorem advance_csr (s : State) : (advance s).csr = s.csr := rfl
@[simp] theorem advance_mem (s : State) : (advance s).mem = s.mem := rfl
@[simp] theorem advance_flash (s : State) : (advance s).flash = s.flash := rfl
@[simp] theorem advance_config (s : State) : (advance s).config = s.config := rfl
@[simp] theorem advance_micro (s : State) : (advance s).micro = s.micro := rfl

/-! ## takeTrap -/

@[simp] theorem takeTrap_regs (c : Cause) (f : Word) (s : State) : (takeTrap c f s).regs = s.regs := rfl
@[simp] theorem takeTrap_pc (c : Cause) (f : Word) (s : State) : (takeTrap c f s).pc = trapVector c s.csr.mtvec := rfl
@[simp] theorem takeTrap_mem (c : Cause) (f : Word) (s : State) : (takeTrap c f s).mem = s.mem := rfl
@[simp] theorem takeTrap_flash (c : Cause) (f : Word) (s : State) : (takeTrap c f s).flash = s.flash := rfl
@[simp] theorem takeTrap_config (c : Cause) (f : Word) (s : State) : (takeTrap c f s).config = s.config := rfl

/-! ## trapReturn -/

@[simp] theorem trapReturn_regs (s : State) : (trapReturn s).regs = s.regs := rfl
@[simp] theorem trapReturn_pc (s : State) : (trapReturn s).pc = place 32 2 s.csr.mepc.epc := rfl
@[simp] theorem trapReturn_mem (s : State) : (trapReturn s).mem = s.mem := rfl
@[simp] theorem trapReturn_flash (s : State) : (trapReturn s).flash = s.flash := rfl
@[simp] theorem trapReturn_config (s : State) : (trapReturn s).config = s.config := rfl
@[simp] theorem trapReturn_micro (s : State) : (trapReturn s).micro = s.micro := rfl

/-! ## latch -/

@[simp] theorem latch_regs (w : Word) (s : State) : (latch w s).regs = s.regs := rfl
@[simp] theorem latch_pc (w : Word) (s : State) : (latch w s).pc = s.pc := rfl
@[simp] theorem latch_csr (w : Word) (s : State) :
    (latch w s).csr = { s.csr with minstret := { instrs := s.csr.minstret.instrs + 1 } } := rfl
@[simp] theorem latch_mem (w : Word) (s : State) : (latch w s).mem = s.mem := rfl
@[simp] theorem latch_flash (w : Word) (s : State) : (latch w s).flash = s.flash := rfl
@[simp] theorem latch_config (w : Word) (s : State) : (latch w s).config = s.config := rfl

/-! ## quiesce -/

@[simp] theorem quiesce_regs (s : State) : (quiesce s).regs = s.regs := rfl
@[simp] theorem quiesce_pc (s : State) : (quiesce s).pc = s.pc := rfl
@[simp] theorem quiesce_csr (s : State) : (quiesce s).csr = s.csr := rfl
@[simp] theorem quiesce_mem (s : State) : (quiesce s).mem = s.mem := rfl
@[simp] theorem quiesce_flash (s : State) : (quiesce s).flash = s.flash := rfl
@[simp] theorem quiesce_config (s : State) : (quiesce s).config = s.config := rfl

/-! ## afterRead -/

@[simp] theorem afterRead_regs (n : BusName) (a : Word) (s : State) :
    (afterRead n a s).regs = s.regs := by unfold afterRead; split <;> (try split) <;> rfl
@[simp] theorem afterRead_pc (n : BusName) (a : Word) (s : State) :
    (afterRead n a s).pc = s.pc := by unfold afterRead; split <;> (try split) <;> rfl
@[simp] theorem afterRead_csr (n : BusName) (a : Word) (s : State) :
    (afterRead n a s).csr = s.csr := by unfold afterRead; split <;> (try split) <;> rfl
@[simp] theorem afterRead_mem (n : BusName) (a : Word) (s : State) :
    (afterRead n a s).mem = s.mem := by unfold afterRead; split <;> (try split) <;> rfl
@[simp] theorem afterRead_flash (n : BusName) (a : Word) (s : State) :
    (afterRead n a s).flash = s.flash := by unfold afterRead; split <;> (try split) <;> rfl
@[simp] theorem afterRead_config (n : BusName) (a : Word) (s : State) :
    (afterRead n a s).config = s.config := by unfold afterRead; split <;> (try split) <;> rfl

/-! ## setEu -/

@[simp] theorem setEu_regs (e : EuState) (s : State) : (setEu e s).regs = s.regs := rfl
@[simp] theorem setEu_pc (e : EuState) (s : State) : (setEu e s).pc = s.pc := rfl
@[simp] theorem setEu_csr (e : EuState) (s : State) : (setEu e s).csr = s.csr := rfl
@[simp] theorem setEu_mem (e : EuState) (s : State) : (setEu e s).mem = s.mem := rfl
@[simp] theorem setEu_flash (e : EuState) (s : State) : (setEu e s).flash = s.flash := rfl
@[simp] theorem setEu_config (e : EuState) (s : State) : (setEu e s).config = s.config := rfl

/-! ## setWaitCnt -/

@[simp] theorem setWaitCnt_regs (c : BitVec 2) (s : State) : (setWaitCnt c s).regs = s.regs := rfl
@[simp] theorem setWaitCnt_pc (c : BitVec 2) (s : State) : (setWaitCnt c s).pc = s.pc := rfl
@[simp] theorem setWaitCnt_csr (c : BitVec 2) (s : State) : (setWaitCnt c s).csr = s.csr := rfl
@[simp] theorem setWaitCnt_mem (c : BitVec 2) (s : State) : (setWaitCnt c s).mem = s.mem := rfl
@[simp] theorem setWaitCnt_flash (c : BitVec 2) (s : State) : (setWaitCnt c s).flash = s.flash := rfl
@[simp] theorem setWaitCnt_config (c : BitVec 2) (s : State) : (setWaitCnt c s).config = s.config := rfl

/-! ## setBus -/

@[simp] theorem setBus_regs (n : BusName) (b : Bus) (s : State) : (setBus n b s).regs = s.regs := by cases n <;> rfl
@[simp] theorem setBus_pc (n : BusName) (b : Bus) (s : State) : (setBus n b s).pc = s.pc := by cases n <;> rfl
@[simp] theorem setBus_csr (n : BusName) (b : Bus) (s : State) : (setBus n b s).csr = s.csr := by cases n <;> rfl
@[simp] theorem setBus_mem (n : BusName) (b : Bus) (s : State) : (setBus n b s).mem = s.mem := by cases n <;> rfl
@[simp] theorem setBus_flash (n : BusName) (b : Bus) (s : State) : (setBus n b s).flash = s.flash := by cases n <;> rfl
@[simp] theorem setBus_config (n : BusName) (b : Bus) (s : State) : (setBus n b s).config = s.config := by cases n <;> rfl

/-! ## respond -/

@[simp] theorem respond_regs (n : BusName) (w : Word) (s : State) : (respond n w s).regs = s.regs := by cases n <;> rfl
@[simp] theorem respond_pc (n : BusName) (w : Word) (s : State) : (respond n w s).pc = s.pc := by cases n <;> rfl
@[simp] theorem respond_csr (n : BusName) (w : Word) (s : State) : (respond n w s).csr = s.csr := by cases n <;> rfl
@[simp] theorem respond_mem (n : BusName) (w : Word) (s : State) : (respond n w s).mem = s.mem := by cases n <;> rfl
@[simp] theorem respond_flash (n : BusName) (w : Word) (s : State) : (respond n w s).flash = s.flash := by cases n <;> rfl
@[simp] theorem respond_config (n : BusName) (w : Word) (s : State) : (respond n w s).config = s.config := by cases n <;> rfl

/-! ## The parts that an update does change -/

@[simp] theorem setReg_zero (s : State) (v : Word) : setReg s 0#5 v = s := by simp [setReg]
@[simp] theorem takeTrap_mcause (c : Cause) (f : Word) (s : State) :
    (takeTrap c f s).csr.mcause = { interrupt := 0, ecode := c.code } := rfl
@[simp] theorem takeTrap_mepc (c : Cause) (f : Word) (s : State) :
    (takeTrap c f s).csr.mepc = { epc := (f >>> 2).setWidth 30 } := rfl
@[simp] theorem takeTrap_mstatus (c : Cause) (f : Word) (s : State) :
    (takeTrap c f s).csr.mstatus = { s.csr.mstatus with mie := 0 } := rfl
@[simp] theorem takeTrap_mtvec (c : Cause) (f : Word) (s : State) : (takeTrap c f s).csr.mtvec = s.csr.mtvec := rfl
@[simp] theorem takeTrap_mtval (c : Cause) (f : Word) (s : State) : (takeTrap c f s).csr.mtval = s.csr.mtval := rfl
@[simp] theorem takeTrap_minstret (c : Cause) (f : Word) (s : State) : (takeTrap c f s).csr.minstret = s.csr.minstret := rfl
@[simp] theorem takeTrap_eu (c : Cause) (f : Word) (s : State) :
    (takeTrap c f s).micro = { s.micro with eu := { s.micro.eu with state := .fetch } } := rfl
@[simp] theorem trapReturn_csr (s : State) :
    (trapReturn s).csr = { s.csr with mstatus := { s.csr.mstatus with mie := 1 } } := rfl
@[simp] theorem latch_micro (w : Word) (s : State) :
    (latch w s).micro = { s.micro with eu := { s.micro.eu with ir := w } } := rfl
@[simp] theorem quiesce_micro (s : State) :
    (quiesce s).micro =
      { s.micro with
        eu := { s.micro.eu with state := .fetch, waitCnt := 0 }, ibus := .idle, dbus := .idle, ramAck := 0, romAck := 0 } := rfl
@[simp] theorem afterRead_eu (n : BusName) (a : Word) (s : State) : (afterRead n a s).micro.eu = s.micro.eu := by
  unfold afterRead; split <;> (try split) <;> rfl
@[simp] theorem afterRead_ibus (n : BusName) (a : Word) (s : State) : (afterRead n a s).micro.ibus = s.micro.ibus := by
  unfold afterRead; split <;> (try split) <;> rfl
@[simp] theorem afterRead_dbus (n : BusName) (a : Word) (s : State) : (afterRead n a s).micro.dbus = s.micro.dbus := by
  unfold afterRead; split <;> (try split) <;> rfl
@[simp] theorem afterRead_ramAck (n : BusName) (a : Word) (s : State) :
    (afterRead n a s).micro.ramAck = s.micro.ramAck := by
  unfold afterRead; split <;> (try split) <;> rfl
@[simp] theorem afterRead_romAck (n : BusName) (a : Word) (s : State) :
    (afterRead n a s).micro.romAck = s.micro.romAck := by
  unfold afterRead; split <;> (try split) <;> rfl
@[simp] theorem setEu_micro (e : EuState) (s : State) :
    (setEu e s).micro = { s.micro with eu := { s.micro.eu with state := e } } := rfl
@[simp] theorem setWaitCnt_micro (c : BitVec 2) (s : State) :
    (setWaitCnt c s).micro = { s.micro with eu := { s.micro.eu with waitCnt := c } } := rfl
@[simp] theorem setBus_instruction_micro (b : Bus) (s : State) :
    (setBus .instruction b s).micro = { s.micro with ibus := b } := rfl
@[simp] theorem setBus_data_micro (b : Bus) (s : State) : (setBus .data b s).micro = { s.micro with dbus := b } := rfl
@[simp] theorem busOf_instruction (s : State) : busOf s .instruction = s.micro.ibus := rfl
@[simp] theorem busOf_data (s : State) : busOf s .data = s.micro.dbus := rfl

/-! ## Registers (10_state.md R31) -/

@[simp] theorem getReg_zero (s : State) : getReg s 0#5 = 0#32 := by simp [getReg]

theorem getReg_congr {s t : State} (h : t.regs = s.regs) (j : RegIdx) : getReg t j = getReg s j := by
  unfold getReg; rw [h]

@[simp] theorem getReg_setPc (s : State) (t : Word) (j : RegIdx) : getReg (setPc s t) j = getReg s j := rfl
@[simp] theorem getReg_advance (s : State) (j : RegIdx) : getReg (advance s) j = getReg s j := rfl
@[simp] theorem getReg_takeTrap (c : Cause) (f : Word) (s : State) (j : RegIdx) :
    getReg (takeTrap c f s) j = getReg s j := rfl
@[simp] theorem getReg_trapReturn (s : State) (j : RegIdx) : getReg (trapReturn s) j = getReg s j := rfl
@[simp] theorem getReg_latch (w : Word) (s : State) (j : RegIdx) : getReg (latch w s) j = getReg s j := rfl
@[simp] theorem getReg_quiesce (s : State) (j : RegIdx) : getReg (quiesce s) j = getReg s j := rfl
@[simp] theorem getReg_afterRead (n : BusName) (a : Word) (s : State) (j : RegIdx) :
    getReg (afterRead n a s) j = getReg s j := getReg_congr (by simp) j

/-- What a register reads after a register write: the whole rule of x0 in one equation. -/
theorem getReg_setReg (s : State) (i j : RegIdx) (v : Word) :
    getReg (setReg s i v) j = if j = i ∧ i ≠ 0 then v else getReg s j := by
  by_cases hi : i = 0
  · simp [hi, setReg]
  · by_cases hj : j = 0
    · subst hj; simp [getReg]; exact fun h => absurd h.symm hi
    · have hne : i.toNat = j.toNat ↔ j = i := by rw [← BitVec.toNat_inj]; exact eq_comm
      simp only [getReg, setReg, hi, hj, if_false, Vector.getElem_set, hne, ne_eq, not_false_eq_true, and_true]

end Sys2Proof.Machine
end

