-- ==== Sys2Proof/Laws/Memory.lean ====
section
/-! SUPPORT. The stores: reading after writing, the canonical form kept by every operation, and that it makes equal memories
equal data. -/

namespace Sys2Proof.Machine

/-! ## One byte -/

theorem wf_nil : Memory.wf [] := ⟨.nil, by simp⟩

theorem wf_tail {c : Host.Cell} {m : Memory} (h : Memory.wf (c :: m)) : m.wf :=
  ⟨h.1.tail, fun d hd => h.2 d (List.mem_cons_of_mem _ hd)⟩

/-- An address below every listed one is unlisted. -/
theorem readByte_below {m : Memory} {a : Nat} (h : ∀ c ∈ m, a < c.1) : m.readByte a = Memory.unlisted a := by
  induction m with
  | nil => rfl
  | cons c m ih =>
    obtain ⟨k, b⟩ := c
    have hk : a < k := h (k, b) List.mem_cons_self
    simp only [Memory.readByte, hk.ne', if_false]
    exact ih fun d hd => h d (List.mem_cons_of_mem _ hd)

/-- The head of a canonical memory lies below every address of its tail. -/
theorem head_below {k : Nat} {b : Byte} {m : Memory} (h : Memory.wf ((k, b) :: m)) : ∀ c ∈ m, k < c.1 :=
  (List.pairwise_cons.mp h.1).1

theorem readByte_put (m : Memory) (a x : Nat) (b : Byte) (h : m.wf) :
    (m.put a b).readByte x = if x = a then some b else m.readByte x := by
  induction m with
  | nil => simp [Memory.put, Memory.readByte, eq_comm]
  | cons c m ih =>
    obtain ⟨k, d⟩ := c
    have ih := ih (wf_tail h)
    simp only [Memory.put]
    split_ifs with h1 h2 h3 h4 h5 <;> simp only [Memory.readByte, ih] <;> split_ifs <;> first | rfl | omega

theorem readByte_remove (m : Memory) (a x : Nat) (h : m.wf) :
    (m.remove a).readByte x = if x = a then Memory.unlisted a else m.readByte x := by
  induction m with
  | nil => by_cases hx : x = a <;> simp [Memory.remove, Memory.readByte, hx]
  | cons c m ih =>
    obtain ⟨k, d⟩ := c
    have ih := ih (wf_tail h)
    simp only [Memory.remove]
    by_cases hk : k = a
    · subst hk
      simp only [if_true, Memory.readByte]
      by_cases hx : x = k
      · subst hx; simp [readByte_below (head_below h)]
      · simp [hx, Ne.symm hx]
    · simp only [hk, if_false, Memory.readByte, ih]
      by_cases hx : x = a
      · subst hx; simp [hk]
      · simp [hx]

/-- Reading after writing one byte: the byte written there, as before everywhere else. -/
theorem readByte_writeByte (m : Memory) (a x : Nat) (b : Byte) (h : m.wf) :
    (m.writeByte a b).readByte x = if x = a then some b else m.readByte x := by
  unfold Memory.writeByte
  by_cases h1 : Memory.unlisted a = some b
  · rw [if_pos h1, readByte_remove m a x h, h1]
  · rw [if_neg h1, readByte_put m a x b h]

/-! ## The canonical form -/

theorem mem_put {m : Memory} {a : Nat} {b : Byte} {c : Host.Cell} (h : c ∈ m.put a b) : c = (a, b) ∨ c ∈ m := by
  induction m with
  | nil => simp_all [Memory.put]
  | cons d m ih =>
    obtain ⟨k, e⟩ := d
    simp only [Memory.put] at h
    split_ifs at h with h1 h2
    · rcases List.mem_cons.mp h with h | h <;> simp_all
    · rcases List.mem_cons.mp h with h | h <;> simp_all
    · rcases List.mem_cons.mp h with h | h
      · simp_all
      · rcases ih h with h | h <;> simp_all

theorem mem_remove {m : Memory} {a : Nat} {c : Host.Cell} (h : c ∈ m.remove a) : c ∈ m := by
  induction m with
  | nil => simp [Memory.remove] at h
  | cons d m ih =>
    obtain ⟨k, e⟩ := d
    simp only [Memory.remove] at h
    split_ifs at h with h1
    · exact List.mem_cons_of_mem _ h
    · rcases List.mem_cons.mp h with h | h
      · simp [h]
      · exact List.mem_cons_of_mem _ (ih h)

theorem wf_put (m : Memory) (a : Nat) (b : Byte) (h : m.wf) (hb : Memory.unlisted a ≠ some b) : (m.put a b).wf := by
  refine ⟨?_, fun c hc => ?_⟩
  · induction m with
    | nil => exact List.pairwise_singleton _ _
    | cons d m ih =>
      obtain ⟨k, e⟩ := d
      have hlt := head_below h
      simp only [Memory.put]
      split_ifs with h1 h2
      · refine List.pairwise_cons.mpr ⟨fun c hc => ?_, h.1⟩
        rcases List.mem_cons.mp hc with hc | hc
        · simp [hc, h1]
        · exact h1.trans (hlt c hc)
      · exact List.pairwise_cons.mpr ⟨fun c hc => by simpa [h2] using hlt c hc, h.1.tail⟩
      · refine List.pairwise_cons.mpr ⟨fun c hc => ?_, ih (wf_tail h)⟩
        rcases mem_put hc with hc | hc
        · simp [hc]; omega
        · exact hlt c hc
  · rcases mem_put hc with rfl | hc
    · exact hb
    · exact h.2 c hc

theorem wf_remove (m : Memory) (a : Nat) (h : m.wf) : (m.remove a).wf := by
  refine ⟨?_, fun c hc => h.2 c (mem_remove hc)⟩
  induction m with
  | nil => exact .nil
  | cons d m ih =>
    obtain ⟨k, e⟩ := d
    simp only [Memory.remove]
    split_ifs with h1
    · exact h.1.tail
    · exact List.pairwise_cons.mpr ⟨fun c hc => head_below h c (mem_remove hc), ih (wf_tail h)⟩

/-- Writing a byte keeps the canonical form. -/
theorem wf_writeByte (m : Memory) (a : Nat) (b : Byte) (h : m.wf) : (m.writeByte a b).wf := by
  unfold Memory.writeByte
  split_ifs with h1
  · exact wf_remove m a h
  · exact wf_put m a b h h1

/-- Every listed address after a write is the one written or was listed. -/
theorem mem_writeByte {m : Memory} {a : Nat} {b : Byte} {c : Host.Cell} (h : c ∈ m.writeByte a b) :
    c.1 = a ∨ c ∈ m := by
  unfold Memory.writeByte at h
  split_ifs at h
  · exact .inr (mem_remove h)
  · rcases mem_put h with rfl | h
    · exact .inl rfl
    · exact .inr h

/-- A canonical memory is determined by what it reads: equal memories are equal data. -/
theorem memory_ext {m m' : Memory} (h : m.wf) (h' : m'.wf) (he : ∀ a, m.readByte a = m'.readByte a) : m = m' := by
  induction m generalizing m' with
  | nil =>
    cases m' with
    | nil => rfl
    | cons d r =>
      obtain ⟨k, e⟩ := d
      have := he k
      simp only [Memory.readByte, if_true] at this
      exact absurd this (h'.2 (k, e) List.mem_cons_self)
  | cons c m ih =>
    obtain ⟨k, b⟩ := c
    cases m' with
    | nil =>
      have := he k
      simp only [Memory.readByte, if_true] at this
      exact absurd this.symm (h.2 (k, b) List.mem_cons_self)
    | cons d r =>
      obtain ⟨l, e⟩ := d
      have hu := h.2 (k, b) List.mem_cons_self
      have hu' := h'.2 (l, e) List.mem_cons_self
      have hkl : k = l := by
        rcases Nat.lt_trichotomy k l with hlt | heq | hgt
        · have := he k
          rw [readByte_below (m := (l, e) :: r)] at this
          · simp only [Memory.readByte, if_true] at this; exact absurd this.symm hu
          · intro c hc
            rcases List.mem_cons.mp hc with rfl | hc
            · exact hlt
            · exact hlt.trans (head_below h' c hc)
        · exact heq
        · have := he l
          rw [readByte_below (m := (k, b) :: m)] at this
          · simp only [Memory.readByte, if_true] at this; exact absurd this hu'
          · intro c hc
            rcases List.mem_cons.mp hc with rfl | hc
            · exact hgt
            · exact hgt.trans (head_below h c hc)
      subst hkl
      have hbe : b = e := by simpa [Memory.readByte] using he k
      subst hbe
      congr 1
      refine ih (wf_tail h) (wf_tail h') fun a => ?_
      by_cases ha : k = a
      · subst ha
        rw [readByte_below (head_below h), readByte_below (head_below h')]
      · simpa [Memory.readByte, ha] using he a

/-- Writing a byte that is already there changes nothing. -/
theorem writeByte_same (m : Memory) (a : Nat) (b : Byte) (h : m.wf) (hb : m.readByte a = some b) : m.writeByte a b = m := by
  refine memory_ext (wf_writeByte m a b h) h fun x => ?_
  rw [readByte_writeByte m a x b h]
  split_ifs with hx
  · rw [hx, hb]
  · rfl

/-! ## Several bytes -/

theorem wf_writeBytes (m : Memory) (a : Nat) (bs : List Byte) (h : m.wf) : (m.writeBytes a bs).wf := by
  induction bs generalizing m a with
  | nil => exact h
  | cons b bs ih => exact ih _ _ (wf_writeByte m a b h)

/-- Reading after writing bytes: the k-th one at `a + k`, as before everywhere else. -/
theorem readByte_writeBytes (m : Memory) (a x : Nat) (bs : List Byte) (h : m.wf) :
    (m.writeBytes a bs).readByte x =
      if a ≤ x ∧ x < a + bs.length then bs[x - a]? else m.readByte x := by
  induction bs generalizing m a with
  | nil => simp [Memory.writeBytes, show ¬(a ≤ x ∧ x < a) by omega]
  | cons b bs ih =>
    simp only [Memory.writeBytes, ih _ _ (wf_writeByte m a b h), readByte_writeByte m a x b h, List.length_cons]
    by_cases hx : x = a
    · subst hx; simp
    · by_cases hr : a + 1 ≤ x ∧ x < a + 1 + bs.length
      · have h2 : a ≤ x ∧ x < a + (bs.length + 1) := by omega
        have h3 : x - a = x - (a + 1) + 1 := by omega
        simp [hr, h2, h3]
      · have h2 : ¬(a ≤ x ∧ x < a + (bs.length + 1)) := by omega
        rw [if_neg hr, if_neg hx, if_neg (by simpa using h2)]

/-- Writing the same bytes twice is writing them once. -/
theorem writeBytes_twice (m : Memory) (a : Nat) (bs : List Byte) (h : m.wf) :
    (m.writeBytes a bs).writeBytes a bs = m.writeBytes a bs := by
  have h1 := wf_writeBytes m a bs h
  refine memory_ext (wf_writeBytes _ a bs h1) h1 fun x => ?_
  rw [readByte_writeBytes _ a x bs h1]
  split_ifs with hx
  · rw [readByte_writeBytes m a x bs h, if_pos hx]
  · rfl

theorem mem_writeBytes {m : Memory} {a : Nat} {bs : List Byte} {c : Host.Cell} (h : c ∈ m.writeBytes a bs) :
    (a ≤ c.1 ∧ c.1 < a + bs.length) ∨ c ∈ m := by
  induction bs generalizing m a with
  | nil => exact .inr h
  | cons b bs ih =>
    rcases ih h with h | h
    · exact .inl (by simp; omega)
    · rcases mem_writeByte h with h | h
      · exact .inl (by simp; omega)
      · exact .inr h

/-- Writing a word into the flash image keeps the canonical form. -/
theorem wf_writeFlashWord (f : Memory) (A : Nat) (w : Word) (h : f.wf) : (writeFlashWord f A w).wf :=
  wf_writeByte _ _ _ (wf_writeByte _ _ _ (wf_writeByte _ _ _ (wf_writeByte _ _ _ h)))

/-! ## Words -/

/-- Four bytes are there exactly when a word is. -/
theorem wordAt_eq_some {m : Memory} {a0 a1 a2 a3 : Nat} {w : Word} :
    m.wordAt a0 a1 a2 a3 = some w ↔
      ∃ b0 b1 b2 b3, m.readByte a0 = some b0 ∧ m.readByte a1 = some b1 ∧ m.readByte a2 = some b2 ∧
        m.readByte a3 = some b3 ∧ wordOfBytes b0 b1 b2 b3 = w := by
  unfold Memory.wordAt
  constructor
  · intro h
    split at h
    · rename_i b0 b1 b2 b3 h0 h1 h2 h3
      exact ⟨b0, b1, b2, b3, h0, h1, h2, h3, by simpa using h⟩
    · simp at h
  · rintro ⟨b0, b1, b2, b3, h0, h1, h2, h3, rfl⟩
    rw [h0, h1, h2, h3]

/-- The bit of a word lies in the byte that holds it. -/
theorem getLsbD_wordOfBytes (b0 b1 b2 b3 : Byte) (i : Nat) :
    (wordOfBytes b0 b1 b2 b3).getLsbD i =
      if i < 8 then b0.getLsbD i else if i < 16 then b1.getLsbD (i - 8)
      else if i < 24 then b2.getLsbD (i - 16) else b3.getLsbD (i - 24) := by
  unfold wordOfBytes place
  simp only [BitVec.getLsbD_or, BitVec.getLsbD_shiftLeft, BitVec.getLsbD_setWidth]
  rcases Nat.lt_or_ge i 8 with h | h
  · simp [h, show i < 32 by omega, show i < 24 by omega, show i < 16 by omega]
  rcases Nat.lt_or_ge i 16 with h1 | h1
  · simp [h1, show ¬i < 8 by omega, show i < 32 by omega, show i < 24 by omega, show i - 8 < 32 by omega,
      BitVec.getLsbD_of_ge b0 i h]
  rcases Nat.lt_or_ge i 24 with h2 | h2
  · simp [h2, show ¬i < 8 by omega, show ¬i < 16 by omega, show i < 32 by omega, show i - 16 < 32 by omega,
      BitVec.getLsbD_of_ge b0 i (by omega), BitVec.getLsbD_of_ge b1 (i - 8) (by omega)]
  rcases Nat.lt_or_ge i 32 with h3 | h3
  · simp [h3, show ¬i < 8 by omega, show ¬i < 16 by omega, show ¬i < 24 by omega, show i - 24 < 32 by omega,
      BitVec.getLsbD_of_ge b0 i (by omega), BitVec.getLsbD_of_ge b1 (i - 8) (by omega),
      BitVec.getLsbD_of_ge b2 (i - 16) (by omega)]
  · simp [show ¬i < 32 by omega, show ¬i < 8 by omega, show ¬i < 16 by omega, show ¬i < 24 by omega,
      BitVec.getLsbD_of_ge b3 (i - 24) (by omega)]

/-- A word laid out as bytes and read back is itself. -/
theorem wordOfBytes_extract (w : Word) :
    wordOfBytes (w.extractLsb' 0 8) (w.extractLsb' 8 8) (w.extractLsb' 16 8) (w.extractLsb' 24 8) = w := by
  refine BitVec.eq_of_getLsbD_eq fun i hi => ?_
  simp only [getLsbD_wordOfBytes, BitVec.getLsbD_extractLsb']
  split_ifs with h1 h2 h3
  · simp [h1]
  · simp [show i - 8 < 8 by omega, show 8 + (i - 8) = i by omega]
  · simp [show i - 16 < 8 by omega, show 16 + (i - 16) = i by omega]
  · simp [show i - 24 < 8 by omega, show 24 + (i - 24) = i by omega]

/-- Reading back a word just written. -/
theorem wordFrom_writeBytes (m : Memory) (a : Nat) (w : Word) (h : m.wf) :
    (m.writeBytes a (wordBytes w)).wordFrom a = some w := by
  refine wordAt_eq_some.mpr ⟨_, _, _, _, ?_, ?_, ?_, ?_, wordOfBytes_extract w⟩ <;>
    rw [readByte_writeBytes m a _ _ h] <;> simp [wordBytes]

/-- A word reads as before where none of its bytes changed. -/
theorem wordFrom_congr {m m' : Memory} {a : Nat} (h : ∀ x, a ≤ x → x < a + 4 → m'.readByte x = m.readByte x) :
    m'.wordFrom a = m.wordFrom a := by
  simp only [Memory.wordFrom, Memory.wordAt, h a (by omega) (by omega), h (a + 1) (by omega) (by omega),
    h (a + 2) (by omega) (by omega), h (a + 3) (by omega) (by omega)]

/-- Every byte in the RAM region has a value. -/
theorem readByte_ram (m : Memory) {a : Nat} (h : ramBase ≤ a) (h' : a < regionsEnd) : ∃ b, m.readByte a = some b := by
  induction m with
  | nil => exact ⟨0, by simp [Memory.readByte, Memory.unlisted, h, h']⟩
  | cons c m ih =>
    obtain ⟨k, b⟩ := c
    by_cases hk : k = a
    · exact ⟨b, by simp [Memory.readByte, hk]⟩
    · simpa [Memory.readByte, hk] using ih

end Sys2Proof.Machine
end

