-- ==== Sys2Proof/Laws/Access.lean ====
section
/-! SUPPORT. The router, `MemRead` and `MemWrite`: one lemma that says everything each can do. -/

namespace Sys2Proof.Machine

/-! ## The router (20_memory.md R75, R77) -/

theorem ramBase_lt_regionsEnd : ramBase < regionsEnd := by norm_num [ramBase, regionsEnd]

/-- The map in one equation. -/
theorem route_eq (c : Config) (bus : BusName) (a : Word) :
    route c bus a =
      if a.toNat < ramBase then some (backing c .boot, a.toNat)
      else if a.toNat < regionsEnd then some (.ram, a.toNat - ramBase) else none := by
  unfold route ramBase regionsEnd
  cases bus <;>
  · simp only [regionTable, List.find?]
    by_cases h1 : a.toNat < 536870912
    · simp [h1]
    · by_cases h2 : a.toNat < 1073741824
      · simp [h1, h2, backing, show 536870912 ≤ a.toNat by omega]
      · simp [h1, h2]

/-- The boot region is never the RAM. -/
theorem backing_boot_ne_ram (c : Config) : backing c .boot ≠ .ram := by
  unfold backing; cases c.bootStore <;> simp

theorem route_eq_ram {c : Config} {bus : BusName} {a : Word} {o : Nat} :
    route c bus a = some (.ram, o) ↔ a.toNat = ramBase + o ∧ a.toNat < regionsEnd := by
  rw [route_eq]
  have hb := backing_boot_ne_ram c
  split_ifs with h1 h2
  · simp [hb]; omega
  · simp [h2]; omega
  · simp [h2]

theorem route_eq_boot {c : Config} {bus : BusName} {a : Word} {k : Backing} {o : Nat} (hk : k ≠ .ram) :
    route c bus a = some (k, o) ↔ a.toNat < ramBase ∧ k = backing c .boot ∧ o = a.toNat := by
  rw [route_eq]
  split_ifs with h1 h2
  · simp [h1, eq_comm]
  · simp [h1, Ne.symm hk]
  · simp [h1]

theorem route_eq_none {c : Config} {bus : BusName} {a : Word} : route c bus a = none ↔ regionsEnd ≤ a.toNat := by
  rw [route_eq]
  have := ramBase_lt_regionsEnd
  split_ifs with h1 h2
  · simp; omega
  · simp; omega
  · simp; omega

/-- Both buses see one map. -/
theorem route_bus (c : Config) (b b' : BusName) (a : Word) : route c b a = route c b' a := by
  rw [route_eq, route_eq]

theorem backing_rom {c : Config} : Backing.rom = backing c .boot ↔ c.bootStore = .rom := by
  unfold backing; cases c.bootStore <;> simp

theorem backing_flash {c : Config} : Backing.flash = backing c .boot ↔ c.bootStore = .flash := by
  unfold backing; cases c.bootStore <;> simp

/-! ## What a read depends on -/

theorem storeWord_congr {s t : State} (hm : t.mem = s.mem) (hf : t.flash = s.flash) (hc : t.config = s.config)
    (k : Backing) (o : Nat) : storeWord t k o = storeWord s k o := by
  unfold storeWord; rw [hm, hf, hc]

/-- A read depends on the stores and the parameters alone. -/
theorem memRead_congr {s t : State} (hm : t.mem = s.mem) (hf : t.flash = s.flash) (hc : t.config = s.config)
    (bus : BusName) (a : Word) (n : Width) : memRead bus a n t = memRead bus a n s := by
  unfold memRead; simp only [storeWord_congr hm hf hc, hc]

/-- A read through either bus gives the same. -/
theorem memRead_bus (b b' : BusName) (a : Word) (n : Width) (s : State) : memRead b a n s = memRead b' a n s := by
  unfold memRead; rw [route_bus s.config b b']

/-- A read answers exactly where the store has a word. -/
theorem memRead_eq_ok {bus : BusName} {a : Word} {n : Width} {s : State} {v : Word} :
    memRead bus a n s = .ok v ↔
      ∃ k o w, route s.config bus a = some (k, o) ∧ storeWord s k o = .ok w ∧ v = lowBytes n (w >>> laneShift k o) := by
  unfold memRead
  split
  · rename_i h; simp [h]
  · rename_i k o h
    split
    · rename_i f hf
      simp only [h, Option.some.injEq, Prod.mk.injEq, reduceCtorEq, false_iff, not_exists, not_and]
      rintro k' o' w ⟨rfl, rfl⟩ hw
      rw [hf] at hw; cases hw
    · rename_i w hw
      constructor
      · intro hv; exact ⟨k, o, w, h, hw, by simpa using hv.symm⟩
      · rintro ⟨k', o', w', h', hw', rfl⟩
        rw [h] at h'; cases h'
        rw [hw] at hw'; cases hw'; rfl

/-- A read past what its store holds stops by the store's own name. -/
theorem memRead_outOfRange {s : State} {a : Word} {f : Fault} (h : outOfRange s a = some f) (bus : BusName) (n : Width) :
    memRead bus a n s = .error f := by
  rw [memRead_bus bus .data]
  unfold outOfRange at h
  unfold memRead
  by_cases h1 : regionsEnd ≤ a.toNat
  · simp [h1] at h
  by_cases h2 : ramBase ≤ a.toNat
  · rw [if_neg h1, if_pos h2] at h
    split at h
    · rename_i h3
      simp only [route_eq_ram.mpr ⟨show a.toNat = ramBase + (a.toNat - ramBase) by omega, by omega⟩, storeWord, if_pos h3]
      simpa using h
    · cases h
  · rw [if_neg h1, if_neg h2] at h
    cases hb : s.config.bootStore <;> rw [hb] at h <;> simp only at h <;> split at h
    · rename_i h3
      simp only [(route_eq_boot (by simp)).mpr ⟨Nat.lt_of_not_le h2, backing_rom.mpr hb, rfl⟩, storeWord, h3]
      simpa using h
    · cases h
    · rename_i h3
      simp only [(route_eq_boot (by simp)).mpr ⟨Nat.lt_of_not_le h2, backing_flash.mpr hb, rfl⟩, storeWord, h3]
      simpa using h
    · cases h

theorem answers_iff {s : State} {a : Word} : Answers s a ↔ ∃ bus n v, memRead bus a n s = .ok v := by
  constructor
  · rintro ⟨k, o, w, h, hw⟩
    exact ⟨.data, .word, _, memRead_eq_ok.mpr ⟨k, o, w, h, hw, rfl⟩⟩
  · rintro ⟨bus, n, v, h⟩
    obtain ⟨k, o, w, h, hw, -⟩ := memRead_eq_ok.mp h
    exact ⟨k, o, w, by rw [route_bus s.config .data bus]; exact h, hw⟩

theorem afterRead_arch (bus : BusName) (a : Word) (s : State) : arch (afterRead bus a s) = arch s := by
  unfold afterRead arch; split <;> (try split) <;> rfl

/-! ## A write (20_memory.md R101) -/

/-- A write completes exactly inside the RAM array, and replaces the bytes it names. -/
theorem memWrite_eq_ok {a : Word} {n : Width} {v : Word} {s t : State} :
    memWrite a n v s = .ok t ↔
      InRam s a ∧ t = { s with mem := s.mem.writeBytes a.toNat (storeBytes n v) } := by
  unfold memWrite InRam
  split
  · rename_i h
    have := route_eq_none.mp h
    simp; omega
  · rename_i o h
    obtain ⟨h1, h2⟩ := route_eq_ram.mp h
    have ho : a.toNat - ramBase = o := by omega
    rw [ho]
    split_ifs with h3
    · simp; omega
    · simp [h2, show o / 4 < s.config.ramWords by omega, show ramBase ≤ a.toNat by omega, eq_comm]
  · rename_i o h
    obtain ⟨h1, -, -⟩ := (route_eq_boot (by simp)).mp h
    simp; omega
  · rename_i o h
    obtain ⟨h1, -, -⟩ := (route_eq_boot (by simp)).mp h
    simp; omega

/-- Why a write stops, if it does. -/
theorem memWrite_stops {a : Word} {n : Width} {v : Word} {s : State} (h : ¬InRam s a) :
    memWrite a n v s = .error
      (if regionsEnd ≤ a.toNat then .hangNoResponder
       else if a.toNat < ramBase then .storeToBootStore else .ramOutOfRange) := by
  have hlt := ramBase_lt_regionsEnd
  unfold memWrite
  split
  · rename_i hr; rw [if_pos (route_eq_none.mp hr)]
  · rename_i o hr
    obtain ⟨h1, h2⟩ := route_eq_ram.mp hr
    have ho : a.toNat - ramBase = o := by omega
    have h3 : s.config.ramWords ≤ o / 4 := by
      by_contra h3; exact h ⟨by omega, h2, by rw [ho]; omega⟩
    rw [if_pos h3, if_neg (by omega), if_neg (by omega)]
  · rename_i o hr
    obtain ⟨h1, -, -⟩ := (route_eq_boot (by simp)).mp hr
    rw [if_neg (by omega), if_pos h1]
  · rename_i o hr
    obtain ⟨h1, -, -⟩ := (route_eq_boot (by simp)).mp hr
    rw [if_neg (by omega), if_pos h1]

@[simp] theorem length_storeBytes (n : Width) (v : Word) : (storeBytes n v).length = Width.bytes n := by cases n <;> rfl

/-! ## Alignment (20_memory.md R104) -/

theorem aligned_byte (a : Word) : aligned a .byte = true := rfl

theorem aligned_half {a : Word} : aligned a .half = true ↔ a.toNat % 4 ≠ 3 := by
  simp only [aligned, bne_iff_ne, ne_eq, ← BitVec.toNat_inj, BitVec.extractLsb'_toNat]
  simp

theorem aligned_word {a : Word} : aligned a .word = true ↔ a.toNat % 4 = 0 := by
  simp only [aligned, beq_iff_eq, ← BitVec.toNat_inj, BitVec.extractLsb'_toNat]
  simp

/-- An aligned access stays within one word. -/
theorem aligned_within {a : Word} {n : Width} (h : aligned a n = true) : a.toNat % 4 + Width.bytes n ≤ 4 := by
  cases n
  · simp only [Width.bytes]; omega
  · rw [aligned_half] at h; simp only [Width.bytes]; omega
  · rw [aligned_word] at h; simp only [Width.bytes]; omega

/-! ## The bytes of a read -/

/-- The bits of the i-th byte of a word. -/
theorem getLsbD_extract_byte (w : Word) (k i : Nat) : (w.extractLsb' (8 * k) 8).getLsbD i =
      (decide (i < 8) && w.getLsbD (8 * k + i)) :=
  BitVec.getLsbD_extractLsb' ..

/-- The byte at lane k of a word spelled by four bytes. -/
theorem lane_wordOfBytes (b0 b1 b2 b3 : Byte) (k : Nat) (h : k < 4) :
    (wordOfBytes b0 b1 b2 b3).extractLsb' (8 * k) 8 = [b0, b1, b2, b3][k]'h := by
  refine BitVec.eq_of_getLsbD_eq fun i hi => ?_
  rw [getLsbD_extract_byte, getLsbD_wordOfBytes]
  interval_cases k
  · simp [hi]
  · simp [hi, show ¬ 8 + i < 8 by omega, show 8 + i < 16 by omega]
  · simp [hi, show ¬ 16 + i < 8 by omega, show ¬ 16 + i < 16 by omega, show 16 + i < 24 by omega]
  · simp [hi, show ¬ 24 + i < 8 by omega, show ¬ 24 + i < 16 by omega, show ¬ 24 + i < 24 by omega]

/-- The word a store returns, shifted to lane 0, holds in byte j what a program sees at `a + j`, as long as the access stays
within the word or the store is the flash. -/
theorem byteSeen_lane {s : State} {bus : BusName} {a : Word} {k : Backing} {o : Nat} {w : Word} (j : Nat)
    (hr : route s.config bus a = some (k, o)) (hw : storeWord s k o = .ok w) (hj : a.toNat % 4 + j < 4) :
    byteSeen s (a + BitVec.ofNat 32 j) = some ((w >>> laneShift k o).extractLsb' (8 * j) 8) := by
  have hlt := a.isLt
  cases k
  · obtain ⟨h1, h2, rfl⟩ := (route_eq_boot (by simp)).mp hr
    have hn : (a + BitVec.ofNat 32 j).toNat = a.toNat + j := by
      simp only [ramBase] at h1; simp; omega
    have hr' : route s.config .data (a + BitVec.ofNat 32 j) = some (.rom, a.toNat + j) :=
      (route_eq_boot (by simp)).mpr ⟨by simp only [ramBase] at h1 ⊢; omega, h2, hn.symm⟩
    simp only [storeWord] at hw
    split at hw
    · rename_i w' hw'
      cases hw
      obtain ⟨b0, b1, b2, b3, e0, e1, e2, e3, rfl⟩ := wordAt_eq_some.mp hw'
      have hl := lane_wordOfBytes b0 b1 b2 b3 (a.toNat % 4 + j) hj
      have hs : (wordOfBytes b0 b1 b2 b3 >>> laneShift .rom a.toNat).extractLsb' (8 * j) 8 =
          (wordOfBytes b0 b1 b2 b3).extractLsb' (8 * (a.toNat % 4 + j)) 8 := by
        refine BitVec.eq_of_getLsbD_eq fun i hi => ?_
        simp [laneShift, show 8 * (a.toNat % 4 + j) + i = 8 * (a.toNat % 4) + (8 * j + i) by omega]
      simp only [byteSeen, hr', hs, hl, hn]
      have hsum : a.toNat + j = a.toNat / 4 * 4 + (a.toNat % 4 + j) := by omega
      rw [hsum]
      generalize a.toNat % 4 + j = l at *
      interval_cases l <;> simp_all
    · cases hw
  · obtain ⟨h1, h2, rfl⟩ := (route_eq_boot (by simp)).mp hr
    have hn : (a + BitVec.ofNat 32 j).toNat = a.toNat + j := by
      simp only [ramBase] at h1; simp; omega
    have hr' : route s.config .data (a + BitVec.ofNat 32 j) = some (.flash, a.toNat + j) :=
      (route_eq_boot (by simp)).mpr ⟨by simp only [ramBase] at h1 ⊢; omega, h2, hn.symm⟩
    simp only [storeWord] at hw
    split at hw
    · rename_i w' hw'
      cases hw
      obtain ⟨b0, b1, b2, b3, e0, e1, e2, e3, rfl⟩ := wordAt_eq_some.mp hw'
      have hl := lane_wordOfBytes b0 b1 b2 b3 j (by omega)
      have hA : flashAddress s.config (a.toNat + j) = (flashAddress s.config a.toNat + j) % 2 ^ 24 := by
        simp only [flashAddress]; rw [Nat.mod_add_mod]; congr 1; omega
      simp only [byteSeen, hr', laneShift, BitVec.ushiftRight_zero, hl, hA]
      have hj' : j < 4 := by omega
      have hb : flashAddress s.config a.toNat < 2 ^ 24 := Nat.mod_lt _ (by norm_num)
      generalize flashAddress s.config a.toNat = A at *
      interval_cases j
      · simpa [Nat.mod_eq_of_lt hb] using e0
      · simpa using e1
      · simpa using e2
      · simpa using e3
    · cases hw
  · obtain ⟨h1, h2⟩ := route_eq_ram.mp hr
    have hn : (a + BitVec.ofNat 32 j).toNat = a.toNat + j := by
      simp only [regionsEnd] at h2; simp; omega
    have hr' : route s.config .data (a + BitVec.ofNat 32 j) = some (.ram, o + j) :=
      route_eq_ram.mpr ⟨by omega, by simp only [regionsEnd] at h2 ⊢; omega⟩
    simp only [storeWord] at hw
    split_ifs at hw with h3
    split at hw
    · rename_i w' hw'
      cases hw
      obtain ⟨b0, b1, b2, b3, e0, e1, e2, e3, rfl⟩ := wordAt_eq_some.mp hw'
      have hm : a.toNat % 4 = o % 4 := by simp only [ramBase] at h1 ⊢; omega
      rw [hm] at hj
      have hl := lane_wordOfBytes b0 b1 b2 b3 (o % 4 + j) hj
      have hs : (wordOfBytes b0 b1 b2 b3 >>> laneShift .ram o).extractLsb' (8 * j) 8 =
          (wordOfBytes b0 b1 b2 b3).extractLsb' (8 * (o % 4 + j)) 8 := by
        refine BitVec.eq_of_getLsbD_eq fun i hi => ?_
        simp [laneShift, show 8 * (o % 4 + j) + i = 8 * (o % 4) + (8 * j + i) by omega]
      simp only [byteSeen, hr', hs, hl, hn]
      have hsum : a.toNat + j = ramBase + o / 4 * 4 + (o % 4 + j) := by omega
      rw [hsum]
      generalize o % 4 + j = l at *
      interval_cases l <;> simp_all
    · cases hw

/-- `MemRead(a, 1)` is the byte at `a`. -/
theorem memRead_byte {s : State} {a : Word} (bus : BusName) (h : Answers s a) :
    ∃ b0, byteSeen s a = some b0 ∧ memRead bus a .byte s = .ok (b0.setWidth 32) := by
  obtain ⟨k, o, w, hr, hw⟩ := h
  have h0 := byteSeen_lane 0 hr hw (by omega)
  refine ⟨_, by simpa using h0, memRead_eq_ok.mpr ⟨k, o, w, by rw [route_bus _ bus .data]; exact hr, hw, rfl⟩⟩

/-- `MemRead(a, 2)` is the two bytes at `a`, little-endian. -/
theorem memRead_half {s : State} {a : Word} (bus : BusName) (h : Answers s a) (ha : aligned a .half = true) :
    ∃ b0 b1 : Byte, byteSeen s a = some b0 ∧ byteSeen s (a + 1) = some b1 ∧
      memRead bus a .half s = .ok ((b1 ++ b0).setWidth 32) := by
  obtain ⟨k, o, w, hr, hw⟩ := h
  have hb := aligned_within ha
  simp only [Width.bytes] at hb
  have h0 := byteSeen_lane 0 hr hw (by omega)
  have h1 := byteSeen_lane 1 hr hw (by omega)
  refine ⟨_, _, by simpa using h0, h1, memRead_eq_ok.mpr ⟨k, o, w, by rw [route_bus _ bus .data]; exact hr, hw, ?_⟩⟩
  refine BitVec.eq_of_getLsbD_eq fun i hi => ?_
  simp only [lowBytes, BitVec.getLsbD_setWidth, BitVec.getLsbD_append, BitVec.getLsbD_extractLsb']
  by_cases h8 : i < 8
  · simp [h8, hi, show i < 16 by omega]
  · by_cases h16 : i < 16
    · simp [h8, hi, h16, show i - 8 < 8 by omega, show 8 + (i - 8) = i by omega]
    · simp [h8, h16, show ¬ i - 8 < 8 by omega]

/-- `MemRead(a, 4)` is the four bytes at `a`, little-endian. -/
theorem memRead_word {s : State} {a : Word} (bus : BusName) (h : Answers s a) (ha : aligned a .word = true) :
    ∃ b0 b1 b2 b3 : Byte, byteSeen s a = some b0 ∧ byteSeen s (a + 1) = some b1 ∧ byteSeen s (a + 2) = some b2 ∧
      byteSeen s (a + 3) = some b3 ∧ memRead bus a .word s = .ok (wordOfBytes b0 b1 b2 b3) := by
  obtain ⟨k, o, w, hr, hw⟩ := h
  have hb := aligned_within ha
  simp only [Width.bytes] at hb
  have h0 := byteSeen_lane 0 hr hw (by omega)
  have h1 := byteSeen_lane 1 hr hw (by omega)
  have h2 := byteSeen_lane 2 hr hw (by omega)
  have h3 := byteSeen_lane 3 hr hw (by omega)
  refine ⟨_, _, _, _, by simpa using h0, h1, h2, h3,
    memRead_eq_ok.mpr ⟨k, o, w, by rw [route_bus _ bus .data]; exact hr, hw, wordOfBytes_extract _⟩⟩

end Sys2Proof.Machine
end

