-- ==== Sys2Proof/Laws/Alu.lean ====
section
/-! SUPPORT. The ALU and the branch condition by the numbers they compute (41_integer.md R191 to R193, 42_control_transfer.md R241). -/

namespace Sys2Proof.Machine

/-! ## Operands -/

theorem immU_eq (imm : BitVec 20) : immU imm = BitVec.ofNat 32 (imm.toNat * 4096) := by
  refine BitVec.eq_of_toNat_eq ?_
  simp [immU, place, Nat.shiftLeft_eq]

theorem shamtWord_mod (shamt : BitVec 5) : (shamtWord shamt).toNat % 32 = shamt.toNat := by
  have := shamt.isLt
  simp [shamtWord]
  omega

theorem shiftAmount_eq (b : Word) : shiftAmount b = b.toNat % 32 := by simp [shiftAmount, BitVec.extractLsb'_toNat]

/-- Only the low five bits of a shift amount count. -/
theorem shiftAmount_and (b : Word) : shiftAmount (b &&& 31) = shiftAmount b := by
  unfold shiftAmount
  congr 1
  refine BitVec.eq_of_getLsbD_eq fun i hi => ?_
  interval_cases i <;> simp

/-! ## Results -/

theorem boolWord_eq {c : Bool} {p : Prop} [Decidable p] (h : c = true ↔ p) : boolWord c = if p then 1 else 0 := by
  by_cases hp : p
  · simp [boolWord, hp, h.mpr hp]
  · have : c = false := by by_contra hc; exact hp (h.mp (by simpa using hc))
    simp [boolWord, hp, this]

theorem alu_sub (a b : Word) : alu .sub a b = a - b := by
  simp only [alu]
  rw [BitVec.sub_eq_add_neg, BitVec.neg_eq_not_add]
  rfl

theorem alu_slt (a b : Word) : alu .slt a b = if a.toInt < b.toInt then 1 else 0 := boolWord_eq (by simp [BitVec.slt])

theorem alu_sltu (a b : Word) : alu .sltu a b = if a.toNat < b.toNat then 1 else 0 := boolWord_eq (by simp [BitVec.ult])

theorem alu_srl (a b : Word) : alu .srl a b = BitVec.ofNat 32 (a.toNat / 2 ^ (b.toNat % 32)) := by
  refine BitVec.eq_of_toNat_eq ?_
  have h : a.toNat / 2 ^ (b.toNat % 32) < 2 ^ 32 := lt_of_le_of_lt (Nat.div_le_self _ _) a.isLt
  rw [BitVec.toNat_ofNat, Nat.mod_eq_of_lt h]
  simp [alu, shiftAmount_eq, Nat.shiftRight_eq_div_pow]

/-- The arithmetic right shift is division rounding down. -/
theorem alu_sra (a b : Word) : alu .sra a b = BitVec.ofInt 32 (a.toInt / 2 ^ (b.toNat % 32)) := by
  have h : a.toInt / 2 ^ (b.toNat % 32) = (a.sshiftRight (b.toNat % 32)).toInt := by
    rw [BitVec.toInt_sshiftRight, Int.shiftRight_eq_div_pow]
    simp
  rw [h, BitVec.ofInt_toInt]
  simp only [alu, shiftAmount_eq]

theorem getLsbD_rev (a : Word) (i : Nat) (h : i < 32) : (rev a).getLsbD i = a.getLsbD (31 - i) := by
  rw [rev, BitVec.getLsbD_reverse, BitVec.getMsbD]
  simp [h]

/-- The left shift by reversal, bit by bit. -/
theorem shiftLeft_eq (a b : Word) : shiftLeft a b = a <<< (b.toNat % 32) := by
  refine BitVec.eq_of_getLsbD_eq fun i hi => ?_
  rw [shiftLeft, getLsbD_rev _ _ hi]
  simp only [alu, shiftAmount_eq, BitVec.getLsbD_ushiftRight, BitVec.getLsbD_shiftLeft, hi]
  have hm : b.toNat % 32 < 32 := Nat.mod_lt _ (by norm_num)
  by_cases h : i < b.toNat % 32
  · rw [BitVec.getLsbD_of_ge _ _ (by omega)]
    simp [h]
  · rw [getLsbD_rev _ _ (by omega)]
    simp [h, show 31 - (b.toNat % 32 + (31 - i)) = i - b.toNat % 32 by omega]

theorem shiftLeft_toNat (a b : Word) : shiftLeft a b = BitVec.ofNat 32 (a.toNat * 2 ^ (b.toNat % 32)) := by
  rw [shiftLeft_eq]
  refine BitVec.eq_of_toNat_eq ?_
  simp [Nat.shiftLeft_eq]

/-! ## The zero indication of the three comparisons -/

theorem aluZero_sub (a b : Word) : aluZero (alu .sub a b) = decide (a = b) := by
  rw [alu_sub]
  by_cases h : a = b
  · subst h; simp [aluZero]
  · have : ¬ (a - b = 0#32) := by intro h'; apply h; bv_omega
    simp [aluZero, h, this]

theorem aluZero_slt (a b : Word) : aluZero (alu .slt a b) = !decide (a.toInt < b.toInt) := by
  rw [alu_slt]
  by_cases h : a.toInt < b.toInt <;> simp [h, aluZero]

theorem aluZero_sltu (a b : Word) : aluZero (alu .sltu a b) = !decide (a.toNat < b.toNat) := by
  rw [alu_sltu]
  by_cases h : a.toNat < b.toNat <;> simp [h, aluZero]

end Sys2Proof.Machine
end

