-- ==== Sys2Proof/Machine/Assembly.lean ====
section
/-! DEFINITION. How the spec writes instructions: register names (10_state.md R32), the assembler syntax (30_encoding.md R154) and
the pseudo-instructions (R155). None of it is behaviour of the hardware (log 46). -/

namespace Sys2Proof.Machine

/-- The standard ABI name of a register (10_state.md R32). "The hardware gives none of these names any special behaviour". -/
def abiName (r : RegIdx) : String :=
  ["zero", "ra", "sp", "gp", "tp", "t0", "t1", "t2", "s0", "s1", "a0", "a1", "a2", "a3", "a4", "a5", "a6", "a7",
   "s2", "s3", "s4", "s5", "s6", "s7", "s8", "s9", "s10", "s11", "t3", "t4", "t5", "t6"].getD r.toNat ""

/-- `x0` to `x31` (R154). -/
def regText (r : RegIdx) : String := "x" ++ toString r.toNat

/-- Operands, separated by commas. -/
def operands (mnemonic : String) (ops : List String) : String := mnemonic ++ " " ++ ", ".intercalate ops

/-- `offset(rs1)` (R154). -/
def baseText (offset : BitVec 12) (rs1 : RegIdx) : String := toString offset.toInt ++ "(" ++ regText rs1 ++ ")"

/-- The letters of a FENCE set, from the four bits i, o, r, w (R154). -/
def fenceText (set : BitVec 4) : String :=
  (if set.getLsbD 3 then "i" else "") ++ (if set.getLsbD 2 then "o" else "") ++ (if set.getLsbD 1 then "r" else "")
    ++ (if set.getLsbD 0 then "w" else "")

/-- The assembler text of an instruction (R154): numbers in decimal, offsets from the instruction's own address, the CSR as its
number. The read forms have no standard mnemonic and take the opcode table's. -/
def asmText (i : Instr) : String :=
  let m := i.mnemonic
  match i with
  | .lui rd imm | .auipc rd imm => operands m [regText rd, toString imm.toNat]
  | .jal rd offset => operands m [regText rd, toString offset.toInt]
  | .jalr rd rs1 imm => operands m [regText rd, baseText imm rs1]
  | .beq rs1 rs2 offset | .bne rs1 rs2 offset | .blt rs1 rs2 offset | .bge rs1 rs2 offset | .bltu rs1 rs2 offset
  | .bgeu rs1 rs2 offset => operands m [regText rs1, regText rs2, toString offset.toInt]
  | .lb rd rs1 imm | .lh rd rs1 imm | .lw rd rs1 imm | .lbu rd rs1 imm | .lhu rd rs1 imm =>
    operands m [regText rd, baseText imm rs1]
  | .sb rs1 rs2 imm | .sh rs1 rs2 imm | .sw rs1 rs2 imm => operands m [regText rs2, baseText imm rs1]
  | .addi rd rs1 imm | .slti rd rs1 imm | .sltiu rd rs1 imm | .xori rd rs1 imm | .ori rd rs1 imm | .andi rd rs1 imm =>
    operands m [regText rd, regText rs1, toString imm.toInt]
  | .slli rd rs1 shamt | .srli rd rs1 shamt | .srai rd rs1 shamt => operands m [regText rd, regText rs1, toString shamt.toNat]
  | .add rd rs1 rs2 | .sub rd rs1 rs2 | .sll rd rs1 rs2 | .slt rd rs1 rs2 | .sltu rd rs1 rs2 | .xor rd rs1 rs2
  | .srl rd rs1 rs2 | .sra rd rs1 rs2 | .or rd rs1 rs2 | .and rd rs1 rs2 => operands m [regText rd, regText rs1, regText rs2]
  | .fence _ pred succ _ _ => operands m [fenceText pred, fenceText succ]
  | .ecall _ _ | .ebreak _ _ | .mret _ _ => m
  | .csrrw rd csr rs1 | .csrrs rd csr rs1 | .csrrc rd csr rs1 => operands m [regText rd, toString csr.toNat, regText rs1]
  | .csrrwi rd csr zimm | .csrrsi rd csr zimm | .csrrci rd csr zimm =>
    operands m [regText rd, toString csr.toNat, toString zimm.toNat]
  | .csrReadF000 rd csr _ | .csrReadF100 rd csr _ => operands m [regText rd, toString csr.toNat]

/-- The pseudo-instructions (R155). A symbol is its distance from the first instruction's address. -/
inductive Pseudo where
  | nop
  | li (rd : RegIdx) (v : Word)
  | la (rd : RegIdx) (distance : Word)
  | mv (rd rs : RegIdx)
  | not (rd rs : RegIdx)
  | neg (rd rs : RegIdx)
  | seqz (rd rs : RegIdx)
  | snez (rd rs : RegIdx)
  | sltz (rd rs : RegIdx)
  | sgtz (rd rs : RegIdx)
  | beqz (rs : RegIdx) (offset : BitVec 13)
  | bnez (rs : RegIdx) (offset : BitVec 13)
  | blez (rs : RegIdx) (offset : BitVec 13)
  | bgez (rs : RegIdx) (offset : BitVec 13)
  | bltz (rs : RegIdx) (offset : BitVec 13)
  | bgtz (rs : RegIdx) (offset : BitVec 13)
  | bgt (rs rt : RegIdx) (offset : BitVec 13)
  | ble (rs rt : RegIdx) (offset : BitVec 13)
  | bgtu (rs rt : RegIdx) (offset : BitVec 13)
  | bleu (rs rt : RegIdx) (offset : BitVec 13)
  | j (offset : BitVec 21)
  | jal (offset : BitVec 21)
  | jr (rs : RegIdx)
  | jalr (rs : RegIdx)
  | ret
  | call (distance : Word)
  | tail (distance : Word)
  | csrr (rd : RegIdx) (csr : CsrNum)
  | csrw (csr : CsrNum) (rs : RegIdx)
  | csrs (csr : CsrNum) (rs : RegIdx)
  | csrc (csr : CsrNum) (rs : RegIdx)
  | csrwi (csr : CsrNum) (z : BitVec 5)
  | csrsi (csr : CsrNum) (z : BitVec 5)
  | csrci (csr : CsrNum) (z : BitVec 5)
  | rdinstret (rd : RegIdx)
  | rdcycle (rd : RegIdx)
  | rdtime (rd : RegIdx)
  | fence
  deriving DecidableEq, Repr

/-- `((v + 0x800) >> 12) & 0xFFFFF` (R155). -/
def hi20 (v : Word) : BitVec 20 := (v + 0x800).extractLsb' 12 20

/-- `v[11:0]` (R155). -/
def lo12 (v : Word) : BitVec 12 := v.extractLsb' 0 12

/-- `li rd, v` (R155): one ADDI where v fits in 12 signed bits, else LUI and, unless v[11:0] is 0, ADDI. -/
def loadImmediate (rd : RegIdx) (v : Word) : List Instr :=
  if immI (lo12 v) = v then [.addi rd 0 (lo12 v)]
  else if lo12 v = 0 then [.lui rd (hi20 v)]
  else [.lui rd (hi20 v), .addi rd rd (lo12 v)]

/-- The expansion of a pseudo-instruction (R155). -/
def Pseudo.expand : Pseudo → List Instr
  | .nop => [.addi 0 0 0]
  | .li rd v => loadImmediate rd v
  | .la rd d => [.auipc rd (hi20 d), .addi rd rd (lo12 d)]
  | .mv rd rs => [.addi rd rs 0]
  | .not rd rs => [.xori rd rs 0xFFF]
  | .neg rd rs => [.sub rd 0 rs]
  | .seqz rd rs => [.sltiu rd rs 1]
  | .snez rd rs => [.sltu rd 0 rs]
  | .sltz rd rs => [.slt rd rs 0]
  | .sgtz rd rs => [.slt rd 0 rs]
  | .beqz rs o => [.beq rs 0 o]
  | .bnez rs o => [.bne rs 0 o]
  | .blez rs o => [.bge 0 rs o]
  | .bgez rs o => [.bge rs 0 o]
  | .bltz rs o => [.blt rs 0 o]
  | .bgtz rs o => [.blt 0 rs o]
  | .bgt rs rt o => [.blt rt rs o]
  | .ble rs rt o => [.bge rt rs o]
  | .bgtu rs rt o => [.bltu rt rs o]
  | .bleu rs rt o => [.bgeu rt rs o]
  | .j o => [.jal 0 o]
  | .jal o => [.jal 1 o]
  | .jr rs => [.jalr 0 rs 0]
  | .jalr rs => [.jalr 1 rs 0]
  | .ret => [.jalr 0 1 0]
  | .call d => [.auipc 1 (hi20 d), .jalr 1 1 (lo12 d)]
  | .tail d => [.auipc 6 (hi20 d), .jalr 0 6 (lo12 d)]
  | .csrr rd csr => [.csrrs rd csr 0]
  | .csrw csr rs => [.csrrw 0 csr rs]
  | .csrs csr rs => [.csrrs 0 csr rs]
  | .csrc csr rs => [.csrrc 0 csr rs]
  | .csrwi csr z => [.csrrwi 0 csr z]
  | .csrsi csr z => [.csrrsi 0 csr z]
  | .csrci csr z => [.csrrci 0 csr z]
  | .rdinstret rd => [.csrrs rd 0xC02 0]
  | .rdcycle rd => [.csrrs rd 0xC00 0]
  | .rdtime rd => [.csrrs rd 0xC01 0]
  | .fence => [.fence 0 15 15 0 0]

end Sys2Proof.Machine
end

