-- ==== Sys2Proof/Laws/Assembly.lean ====
section
/-! SUPPORT. What the constants of the pseudo-instructions add up to (30_encoding.md R155). -/

namespace Sys2Proof.Machine

/-- The upper and the lower part of a constant, as LUI or AUIPC and ADDI extend them, add up to it. -/
theorem upper_add_lower (v : Word) : immU (hi20 v) + immI (lo12 v) = v := by
  apply BitVec.eq_of_toNat_eq
  have hv := v.isLt
  have h0 : (0x800 : Word).toNat = 2048 := rfl
  have h1 : (immU (hi20 v)).toNat = (v.toNat + 2048) % 2 ^ 32 / 4096 * 4096 := by
    simp only [immU, hi20, place, BitVec.toNat_shiftLeft, BitVec.toNat_setWidth, BitVec.extractLsb'_toNat, Nat.shiftRight_eq_div_pow,
      Nat.shiftLeft_eq, BitVec.toNat_add, h0]
    omega
  have hl : (lo12 v).toNat = v.toNat % 4096 := by simp [lo12, BitVec.extractLsb'_toNat]
  have h2 : (immI (lo12 v)).toNat = v.toNat % 4096 + if v.toNat % 4096 < 2048 then 0 else 2 ^ 32 - 4096 := by
    have hm : (lo12 v).msb = decide (2048 ≤ v.toNat % 4096) := by rw [BitVec.msb_eq_decide, hl]
    rw [immI, BitVec.toNat_signExtend, hm, BitVec.toNat_setWidth, hl, Nat.mod_eq_of_lt (by omega)]
    by_cases h : v.toNat % 4096 < 2048
    · simp [h, show ¬2048 ≤ v.toNat % 4096 by omega]
    · simp [h, show 2048 ≤ v.toNat % 4096 by omega]
  rw [BitVec.toNat_add, h1, h2]
  split <;> omega

end Sys2Proof.Machine
end

