-- ==== Sys2Proof/Laws/Encoding.lean ====
section
/-! SUPPORT. The fields of an encoded word, format by format, and back (30_encoding.md R131, R132). -/

namespace Sys2Proof

/-- The bits of a field laid at bit `lo`. -/
theorem getLsbD_place {n : Nat} (m lo : Nat) (v : BitVec n) (i : Nat) :
    (place m lo v).getLsbD i = (decide (i < m) && decide (lo ≤ i) && v.getLsbD (i - lo)) := by
  simp only [place, BitVec.getLsbD_shiftLeft, BitVec.getLsbD_setWidth]
  by_cases h1 : i < m <;> by_cases h2 : lo ≤ i <;> simp [h1, h2]
  simp [show ¬i < lo by omega, show i - lo < m by omega]

theorem getElem_place {n : Nat} (m lo : Nat) (v : BitVec n) (i : Nat) (h : i < m) :
    (place m lo v)[i] = (decide (lo ≤ i) && v.getLsbD (i - lo)) := by
  rw [← BitVec.getLsbD_eq_getElem, getLsbD_place]; simp [h]

/-- A bit above the top is 0. -/
theorem getLsbD_high {n i : Nat} (v : BitVec n) (h : decide (n ≤ i) = true) : v.getLsbD i = false :=
  BitVec.getLsbD_of_ge v i (by simpa using h)

theorem fields_encodeR (f7 : BitVec 7) (f3 : BitVec 3) (op : BitVec 7) (rd rs1 rs2 : RegIdx) :
    opcodeOf (encodeR f7 f3 op rd rs1 rs2) = op ∧ funct3Of (encodeR f7 f3 op rd rs1 rs2) = f3 ∧
      funct7Of (encodeR f7 f3 op rd rs1 rs2) = f7 ∧ rdOf (encodeR f7 f3 op rd rs1 rs2) = rd ∧
      rs1Of (encodeR f7 f3 op rd rs1 rs2) = rs1 ∧ rs2Of (encodeR f7 f3 op rd rs1 rs2) = rs2 := by
  simp only [opcodeOf, rdOf, funct3Of, rs1Of, rs2Of, funct7Of, encodeR]
  refine ⟨?_, ?_, ?_, ?_, ?_, ?_⟩ <;> refine BitVec.eq_of_getLsbD_eq fun i hi => ?_ <;> interval_cases i <;>
    simp only [BitVec.getLsbD_or, getLsbD_place, BitVec.getLsbD_extractLsb', Nat.reduceLT, Nat.reduceLeDiff, Nat.reduceSub,
      Nat.reduceAdd, decide_true, decide_false, Bool.true_and, Bool.false_and, Bool.or_false, Bool.false_or, Bool.and_self,
      getLsbD_high]

theorem fields_encodeI (f3 : BitVec 3) (op : BitVec 7) (rd rs1 : RegIdx) (imm : BitVec 12) :
    opcodeOf (encodeI f3 op rd rs1 imm) = op ∧ funct3Of (encodeI f3 op rd rs1 imm) = f3 ∧
      rdOf (encodeI f3 op rd rs1 imm) = rd ∧ rs1Of (encodeI f3 op rd rs1 imm) = rs1 ∧
      immIOf (encodeI f3 op rd rs1 imm) = imm ∧ csrOf (encodeI f3 op rd rs1 imm) = imm := by
  simp only [opcodeOf, rdOf, funct3Of, rs1Of, immIOf, csrOf, encodeI]
  refine ⟨?_, ?_, ?_, ?_, ?_, ?_⟩ <;> refine BitVec.eq_of_getLsbD_eq fun i hi => ?_ <;> interval_cases i <;>
    simp only [BitVec.getLsbD_or, getLsbD_place, BitVec.getLsbD_extractLsb', Nat.reduceLT, Nat.reduceLeDiff, Nat.reduceSub,
      Nat.reduceAdd, decide_true, decide_false, Bool.true_and, Bool.false_and, Bool.or_false, Bool.false_or, Bool.and_self,
      getLsbD_high]

theorem fields_encodeS (f3 : BitVec 3) (op : BitVec 7) (rs1 rs2 : RegIdx) (imm : BitVec 12) :
    opcodeOf (encodeS f3 op rs1 rs2 imm) = op ∧ funct3Of (encodeS f3 op rs1 rs2 imm) = f3 ∧
      rs1Of (encodeS f3 op rs1 rs2 imm) = rs1 ∧ rs2Of (encodeS f3 op rs1 rs2 imm) = rs2 ∧
      immSOf (encodeS f3 op rs1 rs2 imm) = imm := by
  simp only [opcodeOf, funct3Of, rs1Of, rs2Of, immSOf, encodeS]
  refine ⟨?_, ?_, ?_, ?_, ?_⟩ <;> refine BitVec.eq_of_getLsbD_eq fun i hi => ?_ <;> interval_cases i <;>
    simp only [BitVec.getLsbD_or, getLsbD_place, BitVec.getLsbD_extractLsb', Nat.reduceLT, Nat.reduceLeDiff, Nat.reduceSub,
      Nat.reduceAdd, decide_true, decide_false, Bool.true_and, Bool.false_and, Bool.or_false, Bool.false_or, Bool.and_self,
      getLsbD_high]

theorem fields_encodeB (f3 : BitVec 3) (op : BitVec 7) (rs1 rs2 : RegIdx) (offset : BitVec 13)
    (h : evenOffset offset = true) :
    opcodeOf (encodeB f3 op rs1 rs2 offset) = op ∧ funct3Of (encodeB f3 op rs1 rs2 offset) = f3 ∧
      rs1Of (encodeB f3 op rs1 rs2 offset) = rs1 ∧ rs2Of (encodeB f3 op rs1 rs2 offset) = rs2 ∧
      immBOf (encodeB f3 op rs1 rs2 offset) = offset := by
  simp only [opcodeOf, funct3Of, rs1Of, rs2Of, immBOf, encodeB]
  simp only [evenOffset, Bool.not_eq_true'] at h
  refine ⟨?_, ?_, ?_, ?_, ?_⟩ <;> refine BitVec.eq_of_getLsbD_eq fun i hi => ?_ <;> interval_cases i <;>
    simp only [BitVec.getLsbD_or, getLsbD_place, BitVec.getLsbD_extractLsb', Nat.reduceLT, Nat.reduceLeDiff, Nat.reduceSub,
      Nat.reduceAdd, decide_true, decide_false, Bool.true_and, Bool.false_and, Bool.or_false, Bool.false_or, Bool.and_self,
      getLsbD_high, h]

theorem fields_encodeU (op : BitVec 7) (rd : RegIdx) (imm : BitVec 20) :
    opcodeOf (encodeU op rd imm) = op ∧ rdOf (encodeU op rd imm) = rd ∧ immUOf (encodeU op rd imm) = imm := by
  simp only [opcodeOf, rdOf, immUOf, encodeU]
  refine ⟨?_, ?_, ?_⟩ <;> refine BitVec.eq_of_getLsbD_eq fun i hi => ?_ <;> interval_cases i <;>
    simp only [BitVec.getLsbD_or, getLsbD_place, BitVec.getLsbD_extractLsb', Nat.reduceLT, Nat.reduceLeDiff, Nat.reduceSub,
      Nat.reduceAdd, decide_true, decide_false, Bool.true_and, Bool.false_and, Bool.or_false, Bool.false_or, Bool.and_self,
      getLsbD_high]

theorem opcodeOf_encodeJ (op : BitVec 7) (rd : RegIdx) (offset : BitVec 21) : opcodeOf (encodeJ op rd offset) = op := by
  simp only [opcodeOf, encodeJ]
  refine BitVec.eq_of_getLsbD_eq fun i hi => ?_
  interval_cases i <;>
    simp only [BitVec.getLsbD_or, getLsbD_place, BitVec.getLsbD_extractLsb', Nat.reduceLT, Nat.reduceLeDiff, Nat.reduceSub,
      Nat.reduceAdd, decide_true, decide_false, Bool.true_and, Bool.false_and, Bool.or_false, Bool.false_or, Bool.and_self]

theorem rdOf_encodeJ (op : BitVec 7) (rd : RegIdx) (offset : BitVec 21) : rdOf (encodeJ op rd offset) = rd := by
  simp only [rdOf, encodeJ]
  refine BitVec.eq_of_getLsbD_eq fun i hi => ?_
  interval_cases i <;>
    simp only [BitVec.getLsbD_or, getLsbD_place, BitVec.getLsbD_extractLsb', Nat.reduceLT, Nat.reduceLeDiff, Nat.reduceSub,
      Nat.reduceAdd, decide_true, decide_false, Bool.true_and, Bool.false_and, Bool.or_false, Bool.false_or, Bool.and_self,
      getLsbD_high]

theorem immJOf_encodeJ (op : BitVec 7) (rd : RegIdx) (offset : BitVec 21) (h : evenOffset offset = true) :
    immJOf (encodeJ op rd offset) = offset := by
  simp only [evenOffset, Bool.not_eq_true'] at h
  refine BitVec.eq_of_getLsbD_eq fun i hi => ?_
  simp only [immJOf, encodeJ]
  interval_cases i <;>
    simp only [BitVec.getLsbD_or, getLsbD_place, BitVec.getLsbD_extractLsb', Nat.reduceLT, Nat.reduceLeDiff, Nat.reduceSub,
      Nat.reduceAdd, decide_true, decide_false, Bool.true_and, Bool.false_and, Bool.or_false, Bool.false_or, Bool.and_self,
      getLsbD_high]
  simpa using h

theorem fields_encodeJ (op : BitVec 7) (rd : RegIdx) (offset : BitVec 21) (h : evenOffset offset = true) :
    opcodeOf (encodeJ op rd offset) = op ∧ rdOf (encodeJ op rd offset) = rd ∧ immJOf (encodeJ op rd offset) = offset :=
  ⟨opcodeOf_encodeJ op rd offset, rdOf_encodeJ op rd offset, immJOf_encodeJ op rd offset h⟩

/-- FENCE's three fields of the I immediate. -/
theorem fields_fence (w : Word) (fm pred succ : BitVec 4)
    (h : immIOf w = place 12 8 fm ||| place 12 4 pred ||| place 12 0 succ) :
    w.extractLsb' 28 4 = fm ∧ w.extractLsb' 24 4 = pred ∧ w.extractLsb' 20 4 = succ := by
  have hb : ∀ k, k < 12 → (immIOf w).getLsbD k = w.getLsbD (20 + k) := by
    intro k hk; simp [immIOf, hk]
  simp only [h, place] at hb
  refine ⟨?_, ?_, ?_⟩ <;> ext i hi
  · have := hb (8 + i) (by omega)
    simp [show 20 + (8 + i) = 28 + i by omega] at this ⊢
    rw [← this]; interval_cases i <;> simp
  · have := hb (4 + i) (by omega)
    simp [show 20 + (4 + i) = 24 + i by omega] at this ⊢
    rw [← this]; interval_cases i <;> simp
  · have := hb i (by omega)
    simp at this ⊢
    rw [← this]; interval_cases i <;> simp

/-! ## A word is its fields -/

theorem encodeR_fields (w : Word) :
    encodeR (funct7Of w) (funct3Of w) (opcodeOf w) (rdOf w) (rs1Of w) (rs2Of w) = w := by
  simp only [opcodeOf, rdOf, funct3Of, rs1Of, rs2Of, funct7Of, encodeR]
  refine BitVec.eq_of_getLsbD_eq fun i hi => ?_
  interval_cases i <;>
    simp only [BitVec.getLsbD_or, getLsbD_place, BitVec.getLsbD_extractLsb', Nat.reduceLT, Nat.reduceLeDiff, Nat.reduceSub,
      Nat.reduceAdd, decide_true, decide_false, Bool.true_and, Bool.false_and, Bool.or_false, Bool.false_or, Bool.and_self,
      getLsbD_high]

theorem encodeI_fields (w : Word) : encodeI (funct3Of w) (opcodeOf w) (rdOf w) (rs1Of w) (immIOf w) = w := by
  simp only [opcodeOf, rdOf, funct3Of, rs1Of, immIOf, encodeI]
  refine BitVec.eq_of_getLsbD_eq fun i hi => ?_
  interval_cases i <;>
    simp only [BitVec.getLsbD_or, getLsbD_place, BitVec.getLsbD_extractLsb', Nat.reduceLT, Nat.reduceLeDiff, Nat.reduceSub,
      Nat.reduceAdd, decide_true, decide_false, Bool.true_and, Bool.false_and, Bool.or_false, Bool.false_or, Bool.and_self,
      getLsbD_high]

theorem encodeS_fields (w : Word) : encodeS (funct3Of w) (opcodeOf w) (rs1Of w) (rs2Of w) (immSOf w) = w := by
  simp only [opcodeOf, funct3Of, rs1Of, rs2Of, immSOf, encodeS]
  refine BitVec.eq_of_getLsbD_eq fun i hi => ?_
  interval_cases i <;>
    simp only [BitVec.getLsbD_or, getLsbD_place, BitVec.getLsbD_extractLsb', Nat.reduceLT, Nat.reduceLeDiff, Nat.reduceSub,
      Nat.reduceAdd, decide_true, decide_false, Bool.true_and, Bool.false_and, Bool.or_false, Bool.false_or, Bool.and_self,
      getLsbD_high]

theorem encodeB_fields (w : Word) : encodeB (funct3Of w) (opcodeOf w) (rs1Of w) (rs2Of w) (immBOf w) = w := by
  simp only [opcodeOf, funct3Of, rs1Of, rs2Of, immBOf, encodeB]
  refine BitVec.eq_of_getLsbD_eq fun i hi => ?_
  interval_cases i <;>
    simp only [BitVec.getLsbD_or, getLsbD_place, BitVec.getLsbD_extractLsb', Nat.reduceLT, Nat.reduceLeDiff, Nat.reduceSub,
      Nat.reduceAdd, decide_true, decide_false, Bool.true_and, Bool.false_and, Bool.or_false, Bool.false_or, Bool.and_self,
      getLsbD_high]

theorem encodeU_fields (w : Word) : encodeU (opcodeOf w) (rdOf w) (immUOf w) = w := by
  simp only [opcodeOf, rdOf, immUOf, encodeU]
  refine BitVec.eq_of_getLsbD_eq fun i hi => ?_
  interval_cases i <;>
    simp only [BitVec.getLsbD_or, getLsbD_place, BitVec.getLsbD_extractLsb', Nat.reduceLT, Nat.reduceLeDiff, Nat.reduceSub,
      Nat.reduceAdd, decide_true, decide_false, Bool.true_and, Bool.false_and, Bool.or_false, Bool.false_or, Bool.and_self,
      getLsbD_high]

theorem encodeJ_fields (w : Word) : encodeJ (opcodeOf w) (rdOf w) (immJOf w) = w := by
  simp only [opcodeOf, rdOf, immJOf, encodeJ]
  refine BitVec.eq_of_getLsbD_eq fun i hi => ?_
  interval_cases i <;>
    simp only [BitVec.getLsbD_or, getLsbD_place, BitVec.getLsbD_extractLsb', Nat.reduceLT, Nat.reduceLeDiff, Nat.reduceSub,
      Nat.reduceAdd, decide_true, decide_false, Bool.true_and, Bool.false_and, Bool.or_false, Bool.false_or, Bool.and_self,
      getLsbD_high]

theorem fenceFields (w : Word) :
    place 12 8 (w.extractLsb' 28 4) ||| place 12 4 (w.extractLsb' 24 4) ||| place 12 0 (w.extractLsb' 20 4) = immIOf w := by
  simp only [immIOf]
  refine BitVec.eq_of_getLsbD_eq fun i hi => ?_
  interval_cases i <;>
    simp only [BitVec.getLsbD_or, getLsbD_place, BitVec.getLsbD_extractLsb', Nat.reduceLT, Nat.reduceLeDiff, Nat.reduceSub,
      Nat.reduceAdd, decide_true, decide_false, Bool.true_and, Bool.false_and, Bool.or_false, Bool.false_or, Bool.and_self,
      getLsbD_high]

theorem evenOffset_immBOf (w : Word) : evenOffset (immBOf w) = true := by
  simp [evenOffset, immBOf, getElem_place]

theorem evenOffset_immJOf (w : Word) : evenOffset (immJOf w) = true := by
  simp [evenOffset, immJOf, getElem_place]

/-! ## What a row of the table looks at -/

/-- The four masks of the table as fields. -/
theorem mask_opcode (w : Word) : w &&& 0x0000007F = place 32 0 (opcodeOf w) := by
  simp only [opcodeOf]
  refine BitVec.eq_of_getLsbD_eq fun i hi => ?_
  interval_cases i <;>
    simp [getElem_place]

theorem mask_funct3 (w : Word) : w &&& 0x0000707F = place 32 12 (funct3Of w) ||| place 32 0 (opcodeOf w) := by
  simp only [opcodeOf, funct3Of]
  refine BitVec.eq_of_getLsbD_eq fun i hi => ?_
  interval_cases i <;>
    simp [getElem_place]

theorem mask_funct7 (w : Word) :
    w &&& 0xFE00707F = place 32 25 (funct7Of w) ||| place 32 12 (funct3Of w) ||| place 32 0 (opcodeOf w) := by
  simp only [opcodeOf, funct3Of, funct7Of]
  refine BitVec.eq_of_getLsbD_eq fun i hi => ?_
  interval_cases i <;>
    simp [getElem_place]

theorem mask_csr (w : Word) :
    w &&& 0xFFF0707F = place 32 20 (csrOf w) ||| place 32 12 (funct3Of w) ||| place 32 0 (opcodeOf w) := by
  simp only [opcodeOf, funct3Of, csrOf]
  refine BitVec.eq_of_getLsbD_eq fun i hi => ?_
  interval_cases i <;>
    simp [getElem_place]

end Sys2Proof
end

