-- ==== Sys2Proof/Laws/Effect.lean ====
section
/-! SUPPORT. Everything an instruction can do, said once: the next states that `exec` can answer, in nine forms. -/

namespace Sys2Proof.Machine

/-! ## Loads and stores, one equation each -/

theorem exec_lb (rd rs1 : RegIdx) (imm : BitVec 12) (s : State) :
    exec (.lb rd rs1 imm) s = load .byte true rd (loadAddress s rs1 imm) s := rfl
theorem exec_lh (rd rs1 : RegIdx) (imm : BitVec 12) (s : State) :
    exec (.lh rd rs1 imm) s = load .half true rd (loadAddress s rs1 imm) s := rfl
theorem exec_lw (rd rs1 : RegIdx) (imm : BitVec 12) (s : State) :
    exec (.lw rd rs1 imm) s = load .word true rd (loadAddress s rs1 imm) s := rfl
theorem exec_lbu (rd rs1 : RegIdx) (imm : BitVec 12) (s : State) :
    exec (.lbu rd rs1 imm) s = load .byte false rd (loadAddress s rs1 imm) s := rfl
theorem exec_lhu (rd rs1 : RegIdx) (imm : BitVec 12) (s : State) :
    exec (.lhu rd rs1 imm) s = load .half false rd (loadAddress s rs1 imm) s := rfl
theorem exec_sb (rs1 rs2 : RegIdx) (imm : BitVec 12) (s : State) :
    exec (.sb rs1 rs2 imm) s = store .byte (storeAddress s rs1 imm) (getReg s rs2) s := rfl
theorem exec_sh (rs1 rs2 : RegIdx) (imm : BitVec 12) (s : State) :
    exec (.sh rs1 rs2 imm) s = store .half (storeAddress s rs1 imm) (getReg s rs2) s := rfl
theorem exec_sw (rs1 rs2 : RegIdx) (imm : BitVec 12) (s : State) :
    exec (.sw rs1 rs2 imm) s = store .word (storeAddress s rs1 imm) (getReg s rs2) s := rfl

/-- The forms of a next state. `exec_effect` says that there is no other. -/
inductive Effect (i : Instr) (s : State) : State → Prop where
  /-- An integer instruction. -/
  | computes (rd : RegIdx) (v : Word) (hd : dest i = some rd) (hc : csrWritten i = none) (hs : storesTo i s = none) :
      Effect i s (advance (setReg s rd v))
  /-- JAL and JALR. -/
  | jumps (rd : RegIdx) (target : Word) (hd : dest i = some rd) (hc : csrWritten i = none) (hs : storesTo i s = none)
      (hj : isTransfer i = true) : Effect i s (setPc (setReg s rd (s.pc + 4)) target)
  /-- A taken branch. -/
  | branches (target : Word) (hd : dest i = none) (hc : csrWritten i = none) (hs : storesTo i s = none)
      (hj : isTransfer i = true) : Effect i s (setPc s target)
  /-- A branch not taken, and FENCE. -/
  | moves (hd : dest i = none) (hc : csrWritten i = none) (hs : storesTo i s = none) : Effect i s (advance s)
  /-- A load that completes. -/
  | loads (n : Width) (rd : RegIdx) (a v w : Word) (hd : dest i = some rd) (hc : csrWritten i = none)
      (hs : storesTo i s = none) (ha : aligned a n = true) (hr : memRead .data a n s = .ok v) :
      Effect i s (advance (setReg (afterRead .data a s) rd w))
  /-- A store that completes. -/
  | stores (n : Width) (a v : Word) (hd : dest i = none) (hc : csrWritten i = none)
      (hs : storesTo i s = some (a, Width.bytes n)) (ha : aligned a n = true) (hr : InRam s a) :
      Effect i s (advance { s with mem := s.mem.writeBytes a.toNat (storeBytes n v) })
  /-- A CSR instruction or CSR-read form. -/
  | csrs (fn : CsrFn) (rd : RegIdx) (a : CsrNum) (op : Word) (hd : dest i = some rd) (hs : storesTo i s = none)
      (hw : csrWritten i = some a ∨ fn = .read) :
      Effect i s (advance (setReg { s with csr := csrApply s.config.csrAddr s.csr a fn op } rd
        (csrRead s.config.csrAddr s.csr a)))
  /-- A trap: ECALL, EBREAK, or a misaligned load or store. -/
  | traps (c : Cause) (hc : c = .breakpoint ∨ c = .loadAddressMisaligned ∨ c = .storeAddressMisaligned ∨ c = .environmentCall) :
      Effect i s (takeTrap c s.pc s)
  /-- MRET. -/
  | returns (rd rs1 : RegIdx) (h : i = .mret rd rs1) : Effect i s (trapReturn s)

theorem load_effect {i : Instr} {s t : State} {n : Width} {signed : Bool} {rd : RegIdx} {a : Word}
    (hd : dest i = some rd) (hc : csrWritten i = none) (hs : storesTo i s = none)
    (h : load n signed rd a s = .next t) : Effect i s t := by
  unfold load at h
  split at h
  · rename_i ha
    split at h
    · rename_i v hv
      cases h
      exact .loads n rd a v _ hd hc hs ha hv
    · cases h
  · cases h
    exact .traps _ (by simp)

theorem store_effect {i : Instr} {s t : State} {n : Width} {a v : Word} (hd : dest i = none) (hc : csrWritten i = none)
    (hs : storesTo i s = some (a, Width.bytes n)) (h : store n a v s = .next t) : Effect i s t := by
  unfold store at h
  split at h
  · rename_i ha
    split at h
    · rename_i u hu
      cases h
      obtain ⟨hr, rfl⟩ := memWrite_eq_ok.mp hu
      exact .stores n a v hd hc hs ha hr
    · cases h
  · cases h
    exact .traps _ (by simp)

theorem branch_effect {i : Instr} {s t : State} {f : BitVec 3} {rs1 rs2 : RegIdx} {offset : BitVec 13} (hd : dest i = none)
    (hc : csrWritten i = none) (hs : storesTo i s = none) (hj : isTransfer i = true)
    (h : branch f rs1 rs2 offset s = .next t) : Effect i s t := by
  unfold branch at h
  cases h
  split
  · exact .branches _ hd hc hs hj
  · exact .moves hd hc hs

/-- What `exec` can answer as a next state. -/
theorem exec_effect {i : Instr} {s t : State} (h : exec i s = .next t) : Effect i s t := by
  cases i
  case lui | auipc | addi | slti | sltiu | xori | ori | andi | slli | srli | srai | add | sub | sll | slt | sltu | xor | srl
      | sra | or | and => cases h; exact .computes _ _ rfl rfl rfl
  case jal | jalr => cases h; exact .jumps _ _ rfl rfl rfl rfl
  case beq | bne | blt | bge | bltu | bgeu => exact branch_effect rfl rfl rfl rfl h
  case lb => rw [exec_lb] at h; exact load_effect rfl rfl rfl h
  case lh => rw [exec_lh] at h; exact load_effect rfl rfl rfl h
  case lw => rw [exec_lw] at h; exact load_effect rfl rfl rfl h
  case lbu => rw [exec_lbu] at h; exact load_effect rfl rfl rfl h
  case lhu => rw [exec_lhu] at h; exact load_effect rfl rfl rfl h
  case sb => rw [exec_sb] at h; exact store_effect rfl rfl rfl h
  case sh => rw [exec_sh] at h; exact store_effect rfl rfl rfl h
  case sw => rw [exec_sw] at h; exact store_effect rfl rfl rfl h
  case fence => cases h; exact .moves rfl rfl rfl
  case ecall | ebreak => cases h; exact .traps _ (by simp)
  case mret rd rs1 => cases h; exact .returns rd rs1 rfl
  case csrrw | csrrs | csrrc | csrrwi | csrrsi | csrrci => cases h; exact .csrs _ _ _ _ rfl rfl (.inl rfl)
  case csrReadF000 | csrReadF100 => cases h; exact .csrs _ _ _ _ rfl rfl (.inr rfl)

/-! ## What follows for every instruction -/

/-- No instruction changes the flash image or the construction parameters. -/
theorem exec_flash_config {i : Instr} {s t : State} (h : exec i s = .next t) : t.flash = s.flash ∧ t.config = s.config := by
  cases exec_effect h <;> simp

/-- Memory changes only by the bytes an instruction stores. -/
theorem exec_mem {i : Instr} {s t : State} (h : exec i s = .next t) :
    t.mem = s.mem ∨ ∃ n a v, storesTo i s = some (a, Width.bytes n) ∧ aligned a n = true ∧ InRam s a ∧
      t.mem = s.mem.writeBytes a.toNat (storeBytes n v) := by
  cases exec_effect h <;> simp
  case stores n a v hd hc hs ha hr => exact .inr ⟨n, a, hs, ha, hr, v, rfl⟩

/-- A register changes only as the destination. -/
theorem exec_regs {i : Instr} {s t : State} (h : exec i s = .next t) :
    t.regs = s.regs ∨ ∃ rd v, dest i = some rd ∧ t.regs = (setReg s rd v).regs := by
  cases exec_effect h <;> simp
  case computes rd v hd hc hs => exact .inr ⟨rd, hd, v, rfl⟩
  case jumps rd target hd hc hs hj => exact .inr ⟨rd, hd, _, rfl⟩
  case loads n rd a v w hd hc hs ha hr => exact .inr ⟨rd, hd, w, by unfold setReg; split <;> simp⟩
  case csrs fn rd a op hd hs hw => exact .inr ⟨rd, hd, _, by unfold setReg; split <;> rfl⟩

/-- The CSR bank changes only by a CSR instruction, a trap or MRET. -/
theorem exec_csr {i : Instr} {s t : State} (h : exec i s = .next t) :
    t.csr = s.csr ∨
    (∃ a fn op, csrWritten i = some a ∧ t.csr = csrApply s.config.csrAddr s.csr a fn op) ∨
    (∃ c, (c = .breakpoint ∨ c = .loadAddressMisaligned ∨ c = .storeAddressMisaligned ∨ c = .environmentCall) ∧
      t = takeTrap c s.pc s) ∨
    t = trapReturn s := by
  cases exec_effect h <;> simp
  case csrs fn rd a op hd hs hw =>
    rcases hw with hw | rfl
    · exact .inr (.inl ⟨a, hw, fn, op, rfl⟩)
    · left; unfold csrApply csrNew; split <;> rfl
  case traps c hc => rcases hc with rfl | rfl | rfl | rfl <;> simp

/-- Where the pc goes. -/
theorem exec_pc {i : Instr} {s t : State} (h : exec i s = .next t) :
    t.pc = s.pc + 4 ∨ isTransfer i = true ∨
    (∃ c, (c = .breakpoint ∨ c = .loadAddressMisaligned ∨ c = .storeAddressMisaligned ∨ c = .environmentCall) ∧
      t = takeTrap c s.pc s) ∨
    ((∃ rd rs1, i = .mret rd rs1) ∧ t = trapReturn s) := by
  cases exec_effect h <;> simp_all
  case traps c hc => rcases hc with rfl | rfl | rfl | rfl <;> simp

/-- The ExecutionUnit's own part after an instruction executed from FETCH, and the buses. -/
theorem exec_micro {i : Instr} {s t : State} (h : exec i s = .next t) (hs : s.micro.eu.state = .fetch) :
    t.micro.eu = s.micro.eu ∧ t.micro.ibus = s.micro.ibus ∧ t.micro.dbus = s.micro.dbus ∧
      t.micro.ramAck = s.micro.ramAck ∧ t.micro.romAck = s.micro.romAck := by
  cases exec_effect h <;> simp
  case traps c hc => rw [← hs]

end Sys2Proof.Machine
end

