-- ==== Sys2Proof/Laws/Step.lean ====
section
/-! SUPPORT. Everything a step can do, said once. -/

namespace Sys2Proof.Machine

/-- The instruction a step executes and the state it executes it in, before the ExecutionUnit is put back in FETCH: the fetched
word's, latched and counted, or that of a word latched by an earlier tick (log 34). -/
inductive Executes (s : State) : Instr → State → Prop where
  | fetched (w : Word) (i : Instr) (hf : fetch s = .ok w) (hd : decodeWord w = .ok i) :
      Executes s i (latch w (afterRead .instruction s.pc s))
  | latched (i : Instr) (hd : decodeWord s.micro.eu.ir = .ok i) (hs : s.micro.eu.state ≠ .fetch) : Executes s i s

theorem executeLatched_next {s t : State} (h : executeLatched s = .next t) :
    ∃ i, decodeWord s.micro.eu.ir = .ok i ∧ exec i (quiesce s) = .next t := by
  unfold executeLatched at h
  split at h
  · cases h
  · rename_i i hi; exact ⟨i, hi, h⟩

theorem fetchAndExecute_next {s t : State} (h : fetchAndExecute s = .next t) :
    ∃ w i, fetch s = .ok w ∧ decodeWord w = .ok i ∧
      exec i (quiesce (latch w (afterRead .instruction s.pc s))) = .next t := by
  unfold fetchAndExecute at h
  split at h
  · cases h
  · rename_i w hw
    obtain ⟨i, hi, hx⟩ := executeLatched_next h
    exact ⟨w, i, hw, hi, hx⟩

/-- The three ways a step answers a next state. -/
theorem step_cases {s t : State} (h : step s = .next t) :
    (s.micro.eu.state = .fetch ∧ aligned s.pc .word = false ∧ t = takeTrap .instructionAddressMisaligned s.pc s) ∨
    (∃ c, s.micro.eu.state = .trapEntry c ∧ t = takeTrap c.cause c.faultingPc (quiesce s)) ∨
    (∃ i u, Executes s i u ∧ (s.micro.eu.state = .fetch → aligned s.pc .word = true) ∧ exec i (quiesce u) = .next t) := by
  unfold step runToRetire at h
  split at h
  · rename_i he
    split at h
    · rename_i ha
      obtain ⟨w, i, hw, hi, hx⟩ := fetchAndExecute_next h
      exact .inr (.inr ⟨i, _, .fetched w i hw hi, fun _ => ha, hx⟩)
    · rename_i ha
      cases h
      exact .inl ⟨he, by simpa using ha, rfl⟩
  · rename_i he
    split at h
    · obtain ⟨w, i, hw, hi, hx⟩ := fetchAndExecute_next h
      exact .inr (.inr ⟨i, _, .fetched w i hw hi, fun h' => by simp [he] at h', hx⟩)
    · obtain ⟨i, hi, hx⟩ := executeLatched_next h
      exact .inr (.inr ⟨i, s, .latched i hi (by simp [he]), fun h' => by simp [he] at h', hx⟩)
  · rename_i he
    obtain ⟨i, hi, hx⟩ := executeLatched_next h
    exact .inr (.inr ⟨i, s, .latched i hi (by simp [he]), fun h' => by simp [he] at h', hx⟩)
  · rename_i he
    obtain ⟨i, hi, hx⟩ := executeLatched_next h
    exact .inr (.inr ⟨i, s, .latched i hi (by simp [he]), fun h' => by simp [he] at h', hx⟩)
  · rename_i c he
    cases h
    exact .inr (.inl ⟨c, he, rfl⟩)

/-- From FETCH a step has two ways. -/
theorem step_cases_fetch {s t : State} (hs : s.micro.eu.state = .fetch) (h : step s = .next t) :
    (aligned s.pc .word = false ∧ t = takeTrap .instructionAddressMisaligned s.pc s) ∨
    (∃ w i, aligned s.pc .word = true ∧ fetch s = .ok w ∧ decodeWord w = .ok i ∧
      exec i (quiesce (latch w (afterRead .instruction s.pc s))) = .next t) := by
  rcases step_cases h with ⟨-, ha, rfl⟩ | ⟨c, hc, -⟩ | ⟨i, u, hu, ha, hx⟩
  · exact .inl ⟨ha, rfl⟩
  · simp [hs] at hc
  · cases hu with
    | fetched w i hf hd => exact .inr ⟨w, i, ha hs, hf, hd, hx⟩
    | latched i hd hn => exact absurd hs hn

/-- Executing leaves everything but the CSR bank and the microarchitectural part as it was before. -/
theorem executes_same {s u : State} {i : Instr} (h : Executes s i u) :
    u.regs = s.regs ∧ u.pc = s.pc ∧ u.mem = s.mem ∧ u.flash = s.flash ∧ u.config = s.config ∧
      u.csr.mstatus = s.csr.mstatus ∧ u.csr.mtvec = s.csr.mtvec ∧ u.csr.mepc = s.csr.mepc ∧
      u.csr.mcause = s.csr.mcause ∧ u.csr.mtval = s.csr.mtval := by
  cases h <;> simp

/-! ## The host's fetch word (log 32) -/

/-- A word placed at an aligned pc in a ROM or RAM is what the next fetch reads. -/
theorem fetch_placed_mem {s : State} {w : Word} {k : Backing} {o : Nat} (hm : s.mem.wf) (ha : s.pc.toNat % 4 = 0)
    (hr : route s.config .instruction s.pc = some (k, o)) (hk : k ≠ .flash)
    (hb : k = .ram → o / 4 < s.config.ramWords) : fetch (placeInstruction w s) = .ok w := by
  have hw := wordFrom_writeBytes s.mem s.pc.toNat w hm
  cases k with
  | flash => exact absurd rfl hk
  | rom =>
    obtain ⟨h1, h2, rfl⟩ := (route_eq_boot (by simp)).mp hr
    simp only [fetch, memRead, placeInstruction, hr, storeWord, laneShift]
    simp [show s.pc.toNat / 4 * 4 = s.pc.toNat by omega, hw, ha, lowBytes]
  | ram =>
    obtain ⟨h1, h2⟩ := route_eq_ram.mp hr
    have h3 := hb rfl
    have ho : o % 4 = 0 := by simp only [ramBase] at h1; omega
    simp only [fetch, memRead, placeInstruction, hr, storeWord, laneShift]
    simp [show ¬s.config.ramWords ≤ o / 4 by omega, show ramBase + o / 4 * 4 = s.pc.toNat by omega, hw, ho, lowBytes]

/-- A word placed in the flash image is what the next fetch reads. -/
theorem flashWord_writeFlashWord (f : Memory) (A : Nat) (w : Word) (h : f.wf) :
    flashWord (writeFlashWord f A w) A = some w := by
  have h1 := wf_writeByte f (A % 2 ^ 24) (w.extractLsb' 0 8) h
  have h2 := wf_writeByte _ ((A + 1) % 2 ^ 24) (w.extractLsb' 8 8) h1
  have h3 := wf_writeByte _ ((A + 2) % 2 ^ 24) (w.extractLsb' 16 8) h2
  refine wordAt_eq_some.mpr ⟨_, _, _, _, ?_, ?_, ?_, ?_, wordOfBytes_extract w⟩ <;>
    simp only [writeFlashWord, readByte_writeByte _ _ _ _ h3, readByte_writeByte _ _ _ _ h2, readByte_writeByte _ _ _ _ h1,
      readByte_writeByte _ _ _ _ h]
  · rw [if_neg (by omega), if_neg (by omega), if_neg (by omega), if_pos trivial]
  · rw [if_neg (by omega), if_neg (by omega), if_pos trivial]
  · rw [if_neg (by omega), if_pos trivial]
  · rw [if_pos trivial]

theorem fetch_placed_flash {s : State} {w : Word} {o : Nat} (hf : s.flash.wf)
    (hr : route s.config .instruction s.pc = some (.flash, o)) : fetch (placeInstruction w s) = .ok w := by
  simp [fetch, memRead, placeInstruction, hr, storeWord, laneShift, flashWord_writeFlashWord _ _ _ hf, lowBytes]

end Sys2Proof.Machine
end

