-- ==== Sys2Proof/Laws/Exec.lean ====
section
/-! SUPPORT. When an instruction or a step answers what: the completion of a load and a store, where each stops, a register write
seen from outside, and what a CSR write leaves. -/

namespace Sys2Proof.Machine

/-! ## Registers -/

/-- A state whose registers are those of `setReg s rd v` has `rd` written. -/
theorem registerWritten_of_regs {rd : RegIdx} {v : Word} {s u t : State} (hu : u.regs = s.regs)
    (h : t.regs = (setReg u rd v).regs) : RegisterWritten rd v s t := by
  constructor
  · intro j hj
    rw [getReg_congr (t := t) (s := setReg u rd v) h, getReg_setReg, getReg_congr hu]
    simp [hj]
  · rw [getReg_congr (t := t) (s := setReg u rd v) h, getReg_setReg]
    by_cases h0 : rd = 0
    · subst h0; simp
    · rw [if_pos ⟨rfl, h0⟩, if_neg h0]

/-- The registers after a register write depend on the registers before it alone. -/
theorem setReg_regs_congr {u f : State} (h : f.regs = u.regs) (rd : RegIdx) (v : Word) :
    (setReg f rd v).regs = (setReg u rd v).regs := by
  unfold setReg
  split
  · exact h
  · simp only [h]

/-! ## Loads and stores -/

theorem load_eq_next {n : Width} {signed : Bool} {rd : RegIdx} {a v : Word} {s : State} (ha : aligned a n = true)
    (h : memRead .data a n s = .ok v) :
    load n signed rd a s = .next (advance (setReg (afterRead .data a s) rd (extendLoad signed n v))) := by
  simp only [load, ha, if_true, h]

theorem load_eq_fault {n : Width} {signed : Bool} {rd : RegIdx} {a : Word} {s : State} {f : Fault} (ha : aligned a n = true)
    (h : memRead .data a n s = .error f) : load n signed rd a s = .fault f := by
  simp only [load, ha, if_true, h]

theorem store_eq_next {n : Width} {a v : Word} {s : State} (ha : aligned a n = true) (h : InRam s a) :
    store n a v s = .next (advance { s with mem := s.mem.writeBytes a.toNat (storeBytes n v) }) := by
  have := (memWrite_eq_ok (n := n) (v := v)).mpr ⟨h, rfl⟩
  simp only [store, ha, if_true, this]

theorem store_eq_fault {n : Width} {a v : Word} {s : State} {f : Fault} (ha : aligned a n = true)
    (h : memWrite a n v s = .error f) : store n a v s = .fault f := by
  simp only [store, ha, if_true, h]

/-- What a value read keeps of its width. -/
theorem extractLsb'_setWidth {n : Nat} (x : BitVec n) (h : n ≤ 32) : (x.setWidth 32).extractLsb' 0 n = x := by
  refine BitVec.eq_of_getLsbD_eq fun i hi => ?_
  simp [hi, show i < 32 by omega]

theorem extendLoad_lowBytes (signed : Bool) (n : Width) (w : Word) : extendLoad signed n (lowBytes n w) = extendLoad signed n w := by
  cases n
  · simp only [extendLoad, lowBytes, extractLsb'_setWidth _ (show 8 ≤ 32 by norm_num)]
  · simp only [extendLoad, lowBytes, extractLsb'_setWidth _ (show 16 ≤ 32 by norm_num)]
  · rfl

/-- A word read as its four bytes. -/
theorem wordOfBytes_append (b0 b1 b2 b3 : Byte) : wordOfBytes b0 b1 b2 b3 = b3 ++ b2 ++ b1 ++ b0 := by
  refine BitVec.eq_of_getLsbD_eq fun i hi => ?_
  rw [getLsbD_wordOfBytes]
  simp only [BitVec.getLsbD_append]
  by_cases h8 : i < 8
  · simp [h8]
  · by_cases h16 : i < 16
    · simp [h8, h16, show i - 8 < 8 by omega]
    · by_cases h24 : i < 24
      · simp [h8, h16, h24, show ¬ i - 8 < 8 by omega, show i - 16 < 8 by omega, show i - 8 - 8 = i - 16 by omega]
      · simp [h8, h16, h24, show ¬ i - 8 < 8 by omega, show ¬ i - 8 - 8 < 8 by omega,
          show i - 8 - 8 - 8 = i - 24 by omega]

/-! ## The RAM -/

/-- The RAM answers at every address inside its array. -/
theorem answers_ram {s : State} {a : Word} (h : InRam s a) : Answers s a := by
  obtain ⟨h1, h2, h3⟩ := h
  obtain ⟨o, ho⟩ := Nat.exists_eq_add_of_le h1
  rw [show a.toNat - ramBase = o by omega] at h3
  have hr : route s.config .data a = some (.ram, o) := route_eq_ram.mpr ⟨ho, h2⟩
  rw [ho] at h2
  have h4 : regionsEnd % 4 = 0 := by norm_num [regionsEnd]
  have h5 : ramBase % 4 = 0 := by norm_num [ramBase]
  generalize hR : ramBase = R at *
  generalize hE : regionsEnd = E at *
  have key : ∀ k, k < 4 → ∃ b, s.mem.readByte (R + o / 4 * 4 + k) = some b := fun k hk =>
    readByte_ram s.mem (by omega) (by omega)
  obtain ⟨b0, e0⟩ := key 0 (by omega)
  obtain ⟨b1, e1⟩ := key 1 (by omega)
  obtain ⟨b2, e2⟩ := key 2 (by omega)
  obtain ⟨b3, e3⟩ := key 3 (by omega)
  have e : s.mem.wordFrom (R + o / 4 * 4) = some (wordOfBytes b0 b1 b2 b3) :=
    wordAt_eq_some.mpr ⟨b0, b1, b2, b3, e0, e1, e2, e3, rfl⟩
  refine ⟨.ram, o, wordOfBytes b0 b1 b2 b3, hr, ?_⟩
  simp only [storeWord, hR]
  rw [if_neg (by omega), e]

theorem byteSeen_ram {s : State} {a : Word} (h : InRam s a) : byteSeen s a = s.mem.readByte a.toNat := by
  have hr : route s.config .data a = some (.ram, a.toNat - ramBase) := route_eq_ram.mpr ⟨by have := h.1; omega, h.2.1⟩
  simp only [byteSeen, hr]

/-- An aligned word of RAM is read as it stands, by either bus. -/
theorem memRead_ram_word {s : State} {a w : Word} (h : InRam s a) (ha : a.toNat % 4 = 0)
    (hw : s.mem.wordFrom a.toNat = some w) (bus : BusName) : memRead bus a .word s = .ok w := by
  obtain ⟨h1, h2, h3⟩ := h
  have hr : route s.config bus a = some (.ram, a.toNat - ramBase) := route_eq_ram.mpr ⟨by omega, h2⟩
  have h5 : ramBase % 4 = 0 := by norm_num [ramBase]
  refine memRead_eq_ok.mpr ⟨_, _, w, hr, ?_, ?_⟩
  · simp only [storeWord]
    rw [if_neg (by omega), show ramBase + (a.toNat - ramBase) / 4 * 4 = a.toNat by omega, hw]
  · rw [show laneShift .ram (a.toNat - ramBase) = 0 by simp only [laneShift]; omega]
    simp [lowBytes]

/-! ## A step from FETCH -/

theorem not_aligned_word {a : Word} (h : a.toNat % 4 ≠ 0) : aligned a .word = false := by
  simpa using (aligned_word (a := a)).not.mpr h

theorem step_of_fetch {s : State} {w : Word} {i : Instr} (hs : s.micro.eu.state = .fetch) (ha : s.pc.toNat % 4 = 0)
    (hf : fetch s = .ok w) (hd : decodeWord w = .ok i) :
    step s = exec i (quiesce (latch w (afterRead .instruction s.pc s))) := by
  simp only [step, runToRetire, hs, aligned_word.mpr ha, if_true, fetchAndExecute, hf, executeLatched, latch_micro, hd]

theorem step_of_fetch_error {s : State} {f : Fault} (hs : s.micro.eu.state = .fetch) (ha : s.pc.toNat % 4 = 0)
    (hf : fetch s = .error f) : step s = .fault f := by
  simp only [step, runToRetire, hs, aligned_word.mpr ha, if_true, fetchAndExecute, hf]

/-! ## The CSR bank -/

/-- A write to one register leaves the value of every other. -/
theorem csrValue_csrStore_ne (c : CsrBank) (v : Word) (n m : CsrName) (h : m ≠ n) :
    csrValue (csrStore c v n) m = csrValue c m := by
  cases n <;> cases m <;> simp only [csrValue, csrStore, ne_eq, not_true_eq_false] at h ⊢

/-- A write replaces the writable bits. -/
theorem csrValue_csrStore (c : CsrBank) (v : Word) (n : CsrName) :
    csrValue (csrStore c v n) n = (csrValue c n &&& ~~~csrMask n) ||| (v &&& csrMask n) := by
  refine BitVec.eq_of_getLsbD_eq fun i hi => ?_
  cases n <;> simp only [csrValue, csrStore, csrMask] <;> interval_cases i <;> simp [getElem_place]

/-- What a CSR write leaves, register by register. -/
theorem csrStore_same (c : CsrBank) (v : Word) (n : CsrName) :
    (n ≠ .minstret → (csrStore c v n).minstret = c.minstret) ∧ (n ≠ .mcause → (csrStore c v n).mcause = c.mcause) ∧
    (n ≠ .mtval → (csrStore c v n).mtval = c.mtval) ∧ (n ≠ .mtvec → (csrStore c v n).mtvec = c.mtvec) ∧
    (csrStore c v n).mstatus.mpie = c.mstatus.mpie := by
  cases n <;> simp [csrStore]

theorem csrApply_same (m : CsrAddr) (c : CsrBank) (a : CsrNum) (fn : CsrFn) (op : Word) :
    (csrNamed m a ≠ some .minstret → (csrApply m c a fn op).minstret = c.minstret) ∧
    (csrNamed m a ≠ some .mcause → (csrApply m c a fn op).mcause = c.mcause) ∧
    (csrNamed m a ≠ some .mtval → (csrApply m c a fn op).mtval = c.mtval) ∧
    (csrNamed m a ≠ some .mtvec → (csrApply m c a fn op).mtvec = c.mtvec) ∧
    (csrApply m c a fn op).mstatus.mpie = c.mstatus.mpie := by
  unfold csrApply
  split
  · simp
  · rename_i n hn
    rw [hn]
    split
    · simp
    · rename_i v _
      simpa using csrStore_same c v n

theorem csrApply_read (m : CsrAddr) (c : CsrBank) (a : CsrNum) (op : Word) : csrApply m c a .read op = c := by
  unfold csrApply
  split <;> rfl

end Sys2Proof.Machine
end

