-- ==== Sys2Proof/Laws/Congruence.lean ====
section
/-! SUPPORT. What an instruction depends on: everything but a load or store on the registers, the pc and the CSRs alone, a load or
store also on what its access meets. -/

namespace Sys2Proof.Machine

/-- Two states that an instruction cannot tell apart but by their stores. -/
structure SameInputs (u f : State) : Prop where
  r : f.regs = u.regs
  p : f.pc = u.pc
  c : f.csr = u.csr
  a : f.config.csrAddr = u.config.csrAddr

theorem SameInputs.refl (u : State) : SameInputs u u := ⟨rfl, rfl, rfl, rfl⟩

/-- `t` is `f` with its registers, pc and CSR bank replaced, the microarchitectural part aside. -/
def Replaces (r : Vector Word 32) (p : Word) (c : CsrBank) (f t : State) : Prop :=
  t.regs = r ∧ t.pc = p ∧ t.csr = c ∧ t.mem = f.mem ∧ t.flash = f.flash ∧ t.config = f.config

/-- `e` completes in the same way in every state with the inputs of `u`. -/
def Uniform (u : State) (e : State → Result) : Prop :=
  ∃ r p c, ∀ f, SameInputs u f → ∃ t, e f = .next t ∧ Replaces r p c f t

theorem uniform_commit {u : State} (g : State → Word) (rd : RegIdx) (hg : ∀ f, SameInputs u f → g f = g u) :
    Uniform u fun f => commit rd (g f) f := by
  refine ⟨(setReg u rd (g u)).regs, u.pc + 4, u.csr, fun f hf => ⟨_, rfl, ?_, ?_, ?_, ?_, ?_, ?_⟩⟩ <;>
    simp [hf.p, hf.c, hg f hf, setReg_regs_congr hf.r]

theorem uniform_jumpAndLink {u : State} (g : State → Word) (rd : RegIdx) (hg : ∀ f, SameInputs u f → g f = g u) :
    Uniform u fun f => jumpAndLink rd (g f) f := by
  refine ⟨(setReg u rd (u.pc + 4)).regs, g u, u.csr, fun f hf => ⟨_, rfl, ?_, ?_, ?_, ?_, ?_, ?_⟩⟩ <;>
    simp [hf.p, hf.c, hg f hf, setReg_regs_congr hf.r]

theorem uniform_branch (u : State) (f3 : BitVec 3) (r1 r2 : RegIdx) (offset : BitVec 13) :
    Uniform u (branch f3 r1 r2 offset) := by
  refine ⟨u.regs, if branchTaken f3 (getReg u r1) (getReg u r2) then u.pc + immB offset else u.pc + 4, u.csr, fun f hf => ?_⟩
  refine ⟨_, rfl, ?_⟩
  rw [getReg_congr hf.r, getReg_congr hf.r]
  split <;> refine ⟨?_, ?_, ?_, ?_, ?_, ?_⟩ <;> simp [hf.r, hf.p, hf.c]

theorem uniform_csrInstruction {u : State} (fn : CsrFn) (rd : RegIdx) (a : CsrNum) (g : State → Word)
    (hg : ∀ f, SameInputs u f → g f = g u) : Uniform u fun f => csrInstruction fn rd a (g f) f := by
  refine ⟨(setReg u rd (csrRead u.config.csrAddr u.csr a)).regs, u.pc + 4, csrApply u.config.csrAddr u.csr a fn (g u),
    fun f hf => ⟨_, rfl, ?_, ?_, ?_, ?_, ?_, ?_⟩⟩ <;> simp [hf.p, hf.c, hf.a, hg f hf]
  refine setReg_regs_congr ?_ _ _
  exact hf.r

theorem uniform_trap (u : State) (k : Cause) : Uniform u fun f => .next (takeTrap k f.pc f) := by
  refine ⟨u.regs, (takeTrap k u.pc u).pc, (takeTrap k u.pc u).csr, fun f hf => ⟨_, rfl, ?_, ?_, ?_, ?_, ?_, ?_⟩⟩ <;>
    simp [hf.r, hf.p, hf.c, takeTrap]

/-- An instruction that makes no data access completes, in a way that depends on its inputs alone. -/
theorem exec_without_access {i : Instr} {u : State} (hl : memAccess i u = none) : Uniform u (exec i) := by
  have hr : ∀ {f}, SameInputs u f → ∀ j, getReg f j = getReg u j := fun hf j => getReg_congr hf.r j
  cases i
  case lb | lh | lw | lbu | lhu | sb | sh | sw => simp [memAccess] at hl
  case lui => exact uniform_commit (fun _ => _) _ (fun _ _ => rfl)
  case auipc rd imm => exact uniform_commit (fun f => f.pc + immU imm) _ (fun f hf => by simp [hf.p])
  case addi rd rs1 imm | slti rd rs1 imm | sltiu rd rs1 imm | xori rd rs1 imm | ori rd rs1 imm | andi rd rs1 imm =>
    exact uniform_commit (fun f => alu _ (getReg f rs1) (immI imm)) _ (fun f hf => by simp [hr hf])
  case slli rd rs1 imm =>
    exact uniform_commit (fun f => shiftLeft (getReg f rs1) (shamtWord imm)) _ (fun f hf => by simp [hr hf])
  case srli rd rs1 imm | srai rd rs1 imm =>
    exact uniform_commit (fun f => alu _ (getReg f rs1) (shamtWord imm)) _ (fun f hf => by simp [hr hf])
  case sll rd rs1 rs2 =>
    exact uniform_commit (fun f => shiftLeft (getReg f rs1) (getReg f rs2)) _ (fun f hf => by simp [hr hf])
  case add rd rs1 rs2 | sub rd rs1 rs2 | slt rd rs1 rs2 | sltu rd rs1 rs2 | xor rd rs1 rs2 | srl rd rs1 rs2
      | sra rd rs1 rs2 | or rd rs1 rs2 | and rd rs1 rs2 =>
    exact uniform_commit (fun f => alu _ (getReg f rs1) (getReg f rs2)) _ (fun f hf => by simp [hr hf])
  case jal rd offset => exact uniform_jumpAndLink (fun f => f.pc + immJ offset) _ (fun f hf => by simp [hf.p])
  case jalr rd rs1 imm => exact uniform_jumpAndLink (fun f => getReg f rs1 + immI imm) _ (fun f hf => by simp [hr hf])
  case beq | bne | blt | bge | bltu | bgeu => exact uniform_branch _ _ _ _ _
  case csrrw rd csr rs1 | csrrs rd csr rs1 | csrrc rd csr rs1 =>
    exact uniform_csrInstruction _ _ _ (fun f => getReg f rs1) (fun f hf => by simp [hr hf])
  case csrrwi | csrrsi | csrrci | csrReadF000 | csrReadF100 =>
    exact uniform_csrInstruction _ _ _ (fun _ => _) (fun _ _ => rfl)
  case ecall | ebreak => exact uniform_trap _ _
  case mret =>
    exact ⟨u.regs, (trapReturn u).pc, (trapReturn u).csr, fun f hf =>
      ⟨_, rfl, by simp [hf.r], by simp [hf.c], by simp [hf.c], rfl, rfl, rfl⟩⟩
  case fence =>
    exact ⟨u.regs, u.pc + 4, u.csr, fun f hf => ⟨_, rfl, by simp [hf.r], by simp [hf.p], by simp [hf.c], rfl, rfl, rfl⟩⟩

/-- A data access, performed. -/
def perform (m : MemAccess) (s : State) : Result :=
  match m with
  | .load n signed rd a => load n signed rd a s
  | .store n a v => store n a v s

/-- A load or store is its access. -/
theorem exec_access {i : Instr} {u f : State} {m : MemAccess} (hl : memAccess i u = some m) (hf : SameInputs u f) :
    exec i f = perform m f := by
  have hr := fun j => getReg_congr hf.r j
  cases i <;> simp only [memAccess, reduceCtorEq, Option.some.injEq] at hl <;> subst hl
  · simp only [perform, exec_lb, loadAddress, hr]
  · simp only [perform, exec_lh, loadAddress, hr]
  · simp only [perform, exec_lw, loadAddress, hr]
  · simp only [perform, exec_lbu, loadAddress, hr]
  · simp only [perform, exec_lhu, loadAddress, hr]
  · simp only [perform, exec_sb, storeAddress, hr]
  · simp only [perform, exec_sh, storeAddress, hr]
  · simp only [perform, exec_sw, storeAddress, hr]

/-- The access depends on the inputs alone. -/
theorem memAccess_congr {u f : State} (h : SameInputs u f) (i : Instr) : memAccess i f = memAccess i u := by
  cases i <;> simp [memAccess, loadAddress, storeAddress, getReg_congr h.r]

/-- Two states that a program cannot tell apart. -/
theorem arch_eq_iff {s t : State} :
    arch s = arch t ↔
      t.regs = s.regs ∧ t.pc = s.pc ∧ t.csr = s.csr ∧ t.mem = s.mem ∧ t.flash = s.flash ∧ t.config = s.config := by
  constructor
  · intro h
    have e1 : (arch s).regs = (arch t).regs := by rw [h]
    have e2 : (arch s).pc = (arch t).pc := by rw [h]
    have e3 : (arch s).csr = (arch t).csr := by rw [h]
    have e4 : (arch s).mem = (arch t).mem := by rw [h]
    have e5 : (arch s).flash = (arch t).flash := by rw [h]
    have e6 : (arch s).config = (arch t).config := by rw [h]
    exact ⟨e1.symm, e2.symm, e3.symm, e4.symm, e5.symm, e6.symm⟩
  · rintro ⟨h1, h2, h3, h4, h5, h6⟩
    simp only [arch, h1, h2, h3, h4, h5, h6]

end Sys2Proof.Machine
end

