-- ==== Sys2Proof/Laws/PerInstr.lean ====
section
/-! SUPPORT. The statements made per instruction: its word is covered by its own row of the opcode table, and its low two bits are
11 (30_encoding.md R140, R149). -/

namespace Sys2Proof.Laws

/-! ## TableRow -/

/-- Some row of the opcode table bears the instruction's mnemonic and covers its word. -/
def TableRow.Statement (i : Instr) : Prop := ∃ r ∈ opcodeTable, r.mnemonic = i.mnemonic ∧ r.covers (encode i) = true

/-- A row covers a word whose masked bits are its pattern. -/
theorem tableRow_intro {i : Instr} (r : Row) (hr : r ∈ opcodeTable) (hm : r.mnemonic = i.mnemonic)
    (h : encode i &&& r.mask = r.pattern) : TableRow.Statement i :=
  ⟨r, hr, hm, by simp [Row.covers, h]⟩

theorem opcode_funct3_encodeB (f3 : BitVec 3) (op : BitVec 7) (rs1 rs2 : RegIdx) (offset : BitVec 13) :
    opcodeOf (encodeB f3 op rs1 rs2 offset) = op ∧ funct3Of (encodeB f3 op rs1 rs2 offset) = f3 := by
  simp only [opcodeOf, funct3Of, encodeB]
  refine ⟨?_, ?_⟩ <;> refine BitVec.eq_of_getLsbD_eq fun i hi => ?_ <;> interval_cases i <;> simp [getElem_place]

theorem TableRow.lui (rd : RegIdx) (imm : BitVec 20) : TableRow.Statement (.lui rd imm) :=
  tableRow_intro ⟨"lui", 0x0000007F, 0x00000037⟩ (by decide) rfl <| by
    rw [mask_opcode, encode, (fields_encodeU ..).1]; decide

theorem TableRow.auipc (rd : RegIdx) (imm : BitVec 20) : TableRow.Statement (.auipc rd imm) :=
  tableRow_intro ⟨"auipc", 0x0000007F, 0x00000017⟩ (by decide) rfl <| by
    rw [mask_opcode, encode, (fields_encodeU ..).1]; decide

theorem TableRow.jal (rd : RegIdx) (offset : BitVec 21) : TableRow.Statement (.jal rd offset) :=
  tableRow_intro ⟨"jal", 0x0000007F, 0x0000006F⟩ (by decide) rfl <| by
    rw [mask_opcode, encode, opcodeOf_encodeJ]; decide

theorem TableRow.jalr (rd rs1 : RegIdx) (imm : BitVec 12) : TableRow.Statement (.jalr rd rs1 imm) :=
  tableRow_intro ⟨"jalr", 0x0000707F, 0x00000067⟩ (by decide) rfl <| by
    rw [mask_funct3, encode, (fields_encodeI ..).1, (fields_encodeI ..).2.1]; decide

theorem TableRow.beq (rs1 rs2 : RegIdx) (offset : BitVec 13) : TableRow.Statement (.beq rs1 rs2 offset) :=
  tableRow_intro ⟨"beq", 0x0000707F, 0x00000063⟩ (by decide) rfl <| by
    rw [mask_funct3, encode, (opcode_funct3_encodeB ..).1, (opcode_funct3_encodeB ..).2]; decide

theorem TableRow.bne (rs1 rs2 : RegIdx) (offset : BitVec 13) : TableRow.Statement (.bne rs1 rs2 offset) :=
  tableRow_intro ⟨"bne", 0x0000707F, 0x00001063⟩ (by decide) rfl <| by
    rw [mask_funct3, encode, (opcode_funct3_encodeB ..).1, (opcode_funct3_encodeB ..).2]; decide

theorem TableRow.blt (rs1 rs2 : RegIdx) (offset : BitVec 13) : TableRow.Statement (.blt rs1 rs2 offset) :=
  tableRow_intro ⟨"blt", 0x0000707F, 0x00004063⟩ (by decide) rfl <| by
    rw [mask_funct3, encode, (opcode_funct3_encodeB ..).1, (opcode_funct3_encodeB ..).2]; decide

theorem TableRow.bge (rs1 rs2 : RegIdx) (offset : BitVec 13) : TableRow.Statement (.bge rs1 rs2 offset) :=
  tableRow_intro ⟨"bge", 0x0000707F, 0x00005063⟩ (by decide) rfl <| by
    rw [mask_funct3, encode, (opcode_funct3_encodeB ..).1, (opcode_funct3_encodeB ..).2]; decide

theorem TableRow.bltu (rs1 rs2 : RegIdx) (offset : BitVec 13) : TableRow.Statement (.bltu rs1 rs2 offset) :=
  tableRow_intro ⟨"bltu", 0x0000707F, 0x00006063⟩ (by decide) rfl <| by
    rw [mask_funct3, encode, (opcode_funct3_encodeB ..).1, (opcode_funct3_encodeB ..).2]; decide

theorem TableRow.bgeu (rs1 rs2 : RegIdx) (offset : BitVec 13) : TableRow.Statement (.bgeu rs1 rs2 offset) :=
  tableRow_intro ⟨"bgeu", 0x0000707F, 0x00007063⟩ (by decide) rfl <| by
    rw [mask_funct3, encode, (opcode_funct3_encodeB ..).1, (opcode_funct3_encodeB ..).2]; decide

theorem TableRow.lb (rd rs1 : RegIdx) (imm : BitVec 12) : TableRow.Statement (.lb rd rs1 imm) :=
  tableRow_intro ⟨"lb", 0x0000707F, 0x00000003⟩ (by decide) rfl <| by
    rw [mask_funct3, encode, (fields_encodeI ..).1, (fields_encodeI ..).2.1]; decide

theorem TableRow.lh (rd rs1 : RegIdx) (imm : BitVec 12) : TableRow.Statement (.lh rd rs1 imm) :=
  tableRow_intro ⟨"lh", 0x0000707F, 0x00001003⟩ (by decide) rfl <| by
    rw [mask_funct3, encode, (fields_encodeI ..).1, (fields_encodeI ..).2.1]; decide

theorem TableRow.lw (rd rs1 : RegIdx) (imm : BitVec 12) : TableRow.Statement (.lw rd rs1 imm) :=
  tableRow_intro ⟨"lw", 0x0000707F, 0x00002003⟩ (by decide) rfl <| by
    rw [mask_funct3, encode, (fields_encodeI ..).1, (fields_encodeI ..).2.1]; decide

theorem TableRow.lbu (rd rs1 : RegIdx) (imm : BitVec 12) : TableRow.Statement (.lbu rd rs1 imm) :=
  tableRow_intro ⟨"lbu", 0x0000707F, 0x00004003⟩ (by decide) rfl <| by
    rw [mask_funct3, encode, (fields_encodeI ..).1, (fields_encodeI ..).2.1]; decide

theorem TableRow.lhu (rd rs1 : RegIdx) (imm : BitVec 12) : TableRow.Statement (.lhu rd rs1 imm) :=
  tableRow_intro ⟨"lhu", 0x0000707F, 0x00005003⟩ (by decide) rfl <| by
    rw [mask_funct3, encode, (fields_encodeI ..).1, (fields_encodeI ..).2.1]; decide

theorem TableRow.sb (rs1 rs2 : RegIdx) (imm : BitVec 12) : TableRow.Statement (.sb rs1 rs2 imm) :=
  tableRow_intro ⟨"sb", 0x0000707F, 0x00000023⟩ (by decide) rfl <| by
    rw [mask_funct3, encode, (fields_encodeS ..).1, (fields_encodeS ..).2.1]; decide

theorem TableRow.sh (rs1 rs2 : RegIdx) (imm : BitVec 12) : TableRow.Statement (.sh rs1 rs2 imm) :=
  tableRow_intro ⟨"sh", 0x0000707F, 0x00001023⟩ (by decide) rfl <| by
    rw [mask_funct3, encode, (fields_encodeS ..).1, (fields_encodeS ..).2.1]; decide

theorem TableRow.sw (rs1 rs2 : RegIdx) (imm : BitVec 12) : TableRow.Statement (.sw rs1 rs2 imm) :=
  tableRow_intro ⟨"sw", 0x0000707F, 0x00002023⟩ (by decide) rfl <| by
    rw [mask_funct3, encode, (fields_encodeS ..).1, (fields_encodeS ..).2.1]; decide

theorem TableRow.addi (rd rs1 : RegIdx) (imm : BitVec 12) : TableRow.Statement (.addi rd rs1 imm) :=
  tableRow_intro ⟨"addi", 0x0000707F, 0x00000013⟩ (by decide) rfl <| by
    rw [mask_funct3, encode, (fields_encodeI ..).1, (fields_encodeI ..).2.1]; decide

theorem TableRow.slti (rd rs1 : RegIdx) (imm : BitVec 12) : TableRow.Statement (.slti rd rs1 imm) :=
  tableRow_intro ⟨"slti", 0x0000707F, 0x00002013⟩ (by decide) rfl <| by
    rw [mask_funct3, encode, (fields_encodeI ..).1, (fields_encodeI ..).2.1]; decide

theorem TableRow.sltiu (rd rs1 : RegIdx) (imm : BitVec 12) : TableRow.Statement (.sltiu rd rs1 imm) :=
  tableRow_intro ⟨"sltiu", 0x0000707F, 0x00003013⟩ (by decide) rfl <| by
    rw [mask_funct3, encode, (fields_encodeI ..).1, (fields_encodeI ..).2.1]; decide

theorem TableRow.xori (rd rs1 : RegIdx) (imm : BitVec 12) : TableRow.Statement (.xori rd rs1 imm) :=
  tableRow_intro ⟨"xori", 0x0000707F, 0x00004013⟩ (by decide) rfl <| by
    rw [mask_funct3, encode, (fields_encodeI ..).1, (fields_encodeI ..).2.1]; decide

theorem TableRow.ori (rd rs1 : RegIdx) (imm : BitVec 12) : TableRow.Statement (.ori rd rs1 imm) :=
  tableRow_intro ⟨"ori", 0x0000707F, 0x00006013⟩ (by decide) rfl <| by
    rw [mask_funct3, encode, (fields_encodeI ..).1, (fields_encodeI ..).2.1]; decide

theorem TableRow.andi (rd rs1 : RegIdx) (imm : BitVec 12) : TableRow.Statement (.andi rd rs1 imm) :=
  tableRow_intro ⟨"andi", 0x0000707F, 0x00007013⟩ (by decide) rfl <| by
    rw [mask_funct3, encode, (fields_encodeI ..).1, (fields_encodeI ..).2.1]; decide

theorem TableRow.slli (rd rs1 : RegIdx) (shamt : BitVec 5) : TableRow.Statement (.slli rd rs1 shamt) :=
  tableRow_intro ⟨"slli", 0xFE00707F, 0x00001013⟩ (by decide) rfl <| by
    rw [mask_funct7, encode, (fields_encodeR ..).1, (fields_encodeR ..).2.1, (fields_encodeR ..).2.2.1]; decide

theorem TableRow.srli (rd rs1 : RegIdx) (shamt : BitVec 5) : TableRow.Statement (.srli rd rs1 shamt) :=
  tableRow_intro ⟨"srli", 0xFE00707F, 0x00005013⟩ (by decide) rfl <| by
    rw [mask_funct7, encode, (fields_encodeR ..).1, (fields_encodeR ..).2.1, (fields_encodeR ..).2.2.1]; decide

theorem TableRow.srai (rd rs1 : RegIdx) (shamt : BitVec 5) : TableRow.Statement (.srai rd rs1 shamt) :=
  tableRow_intro ⟨"srai", 0xFE00707F, 0x40005013⟩ (by decide) rfl <| by
    rw [mask_funct7, encode, (fields_encodeR ..).1, (fields_encodeR ..).2.1, (fields_encodeR ..).2.2.1]; decide

theorem TableRow.add (rd rs1 rs2 : RegIdx) : TableRow.Statement (.add rd rs1 rs2) :=
  tableRow_intro ⟨"add", 0xFE00707F, 0x00000033⟩ (by decide) rfl <| by
    rw [mask_funct7, encode, (fields_encodeR ..).1, (fields_encodeR ..).2.1, (fields_encodeR ..).2.2.1]; decide

theorem TableRow.sub (rd rs1 rs2 : RegIdx) : TableRow.Statement (.sub rd rs1 rs2) :=
  tableRow_intro ⟨"sub", 0xFE00707F, 0x40000033⟩ (by decide) rfl <| by
    rw [mask_funct7, encode, (fields_encodeR ..).1, (fields_encodeR ..).2.1, (fields_encodeR ..).2.2.1]; decide

theorem TableRow.sll (rd rs1 rs2 : RegIdx) : TableRow.Statement (.sll rd rs1 rs2) :=
  tableRow_intro ⟨"sll", 0xFE00707F, 0x00001033⟩ (by decide) rfl <| by
    rw [mask_funct7, encode, (fields_encodeR ..).1, (fields_encodeR ..).2.1, (fields_encodeR ..).2.2.1]; decide

theorem TableRow.slt (rd rs1 rs2 : RegIdx) : TableRow.Statement (.slt rd rs1 rs2) :=
  tableRow_intro ⟨"slt", 0xFE00707F, 0x00002033⟩ (by decide) rfl <| by
    rw [mask_funct7, encode, (fields_encodeR ..).1, (fields_encodeR ..).2.1, (fields_encodeR ..).2.2.1]; decide

theorem TableRow.sltu (rd rs1 rs2 : RegIdx) : TableRow.Statement (.sltu rd rs1 rs2) :=
  tableRow_intro ⟨"sltu", 0xFE00707F, 0x00003033⟩ (by decide) rfl <| by
    rw [mask_funct7, encode, (fields_encodeR ..).1, (fields_encodeR ..).2.1, (fields_encodeR ..).2.2.1]; decide

theorem TableRow.xor (rd rs1 rs2 : RegIdx) : TableRow.Statement (.xor rd rs1 rs2) :=
  tableRow_intro ⟨"xor", 0xFE00707F, 0x00004033⟩ (by decide) rfl <| by
    rw [mask_funct7, encode, (fields_encodeR ..).1, (fields_encodeR ..).2.1, (fields_encodeR ..).2.2.1]; decide

theorem TableRow.srl (rd rs1 rs2 : RegIdx) : TableRow.Statement (.srl rd rs1 rs2) :=
  tableRow_intro ⟨"srl", 0xFE00707F, 0x00005033⟩ (by decide) rfl <| by
    rw [mask_funct7, encode, (fields_encodeR ..).1, (fields_encodeR ..).2.1, (fields_encodeR ..).2.2.1]; decide

theorem TableRow.sra (rd rs1 rs2 : RegIdx) : TableRow.Statement (.sra rd rs1 rs2) :=
  tableRow_intro ⟨"sra", 0xFE00707F, 0x40005033⟩ (by decide) rfl <| by
    rw [mask_funct7, encode, (fields_encodeR ..).1, (fields_encodeR ..).2.1, (fields_encodeR ..).2.2.1]; decide

theorem TableRow.or (rd rs1 rs2 : RegIdx) : TableRow.Statement (.or rd rs1 rs2) :=
  tableRow_intro ⟨"or", 0xFE00707F, 0x00006033⟩ (by decide) rfl <| by
    rw [mask_funct7, encode, (fields_encodeR ..).1, (fields_encodeR ..).2.1, (fields_encodeR ..).2.2.1]; decide

theorem TableRow.and (rd rs1 rs2 : RegIdx) : TableRow.Statement (.and rd rs1 rs2) :=
  tableRow_intro ⟨"and", 0xFE00707F, 0x00007033⟩ (by decide) rfl <| by
    rw [mask_funct7, encode, (fields_encodeR ..).1, (fields_encodeR ..).2.1, (fields_encodeR ..).2.2.1]; decide

theorem TableRow.fence (fm pred succ : BitVec 4) (rs1 rd : RegIdx) : TableRow.Statement (.fence fm pred succ rs1 rd) :=
  tableRow_intro ⟨"fence", 0x0000707F, 0x0000000F⟩ (by decide) rfl <| by
    rw [mask_funct3, encode, (fields_encodeI ..).1, (fields_encodeI ..).2.1]; decide

theorem TableRow.ecall (rd rs1 : RegIdx) : TableRow.Statement (.ecall rd rs1) :=
  tableRow_intro ⟨"ecall", 0xFFF0707F, 0x00000073⟩ (by decide) rfl <| by
    rw [mask_csr, encode, (fields_encodeI ..).1, (fields_encodeI ..).2.1, (fields_encodeI ..).2.2.2.2.2]; decide

theorem TableRow.ebreak (rd rs1 : RegIdx) : TableRow.Statement (.ebreak rd rs1) :=
  tableRow_intro ⟨"ebreak", 0xFFF0707F, 0x00100073⟩ (by decide) rfl <| by
    rw [mask_csr, encode, (fields_encodeI ..).1, (fields_encodeI ..).2.1, (fields_encodeI ..).2.2.2.2.2]; decide

theorem TableRow.mret (rd rs1 : RegIdx) : TableRow.Statement (.mret rd rs1) :=
  tableRow_intro ⟨"mret", 0xFFF0707F, 0x30200073⟩ (by decide) rfl <| by
    rw [mask_csr, encode, (fields_encodeI ..).1, (fields_encodeI ..).2.1, (fields_encodeI ..).2.2.2.2.2]; decide

theorem TableRow.csrrw (rd : RegIdx) (csr : CsrNum) (rs1 : RegIdx) : TableRow.Statement (.csrrw rd csr rs1) :=
  tableRow_intro ⟨"csrrw", 0x0000707F, 0x00001073⟩ (by decide) rfl <| by
    rw [mask_funct3, encode, (fields_encodeI ..).1, (fields_encodeI ..).2.1]; decide

theorem TableRow.csrrs (rd : RegIdx) (csr : CsrNum) (rs1 : RegIdx) : TableRow.Statement (.csrrs rd csr rs1) :=
  tableRow_intro ⟨"csrrs", 0x0000707F, 0x00002073⟩ (by decide) rfl <| by
    rw [mask_funct3, encode, (fields_encodeI ..).1, (fields_encodeI ..).2.1]; decide

theorem TableRow.csrrc (rd : RegIdx) (csr : CsrNum) (rs1 : RegIdx) : TableRow.Statement (.csrrc rd csr rs1) :=
  tableRow_intro ⟨"csrrc", 0x0000707F, 0x00003073⟩ (by decide) rfl <| by
    rw [mask_funct3, encode, (fields_encodeI ..).1, (fields_encodeI ..).2.1]; decide

theorem TableRow.csrrwi (rd : RegIdx) (csr : CsrNum) (zimm : BitVec 5) : TableRow.Statement (.csrrwi rd csr zimm) :=
  tableRow_intro ⟨"csrrwi", 0x0000707F, 0x00005073⟩ (by decide) rfl <| by
    rw [mask_funct3, encode, (fields_encodeI ..).1, (fields_encodeI ..).2.1]; decide

theorem TableRow.csrrsi (rd : RegIdx) (csr : CsrNum) (zimm : BitVec 5) : TableRow.Statement (.csrrsi rd csr zimm) :=
  tableRow_intro ⟨"csrrsi", 0x0000707F, 0x00006073⟩ (by decide) rfl <| by
    rw [mask_funct3, encode, (fields_encodeI ..).1, (fields_encodeI ..).2.1]; decide

theorem TableRow.csrrci (rd : RegIdx) (csr : CsrNum) (zimm : BitVec 5) : TableRow.Statement (.csrrci rd csr zimm) :=
  tableRow_intro ⟨"csrrci", 0x0000707F, 0x00007073⟩ (by decide) rfl <| by
    rw [mask_funct3, encode, (fields_encodeI ..).1, (fields_encodeI ..).2.1]; decide

theorem TableRow.csrReadF000 (rd : RegIdx) (csr : CsrNum) (rs1 : RegIdx) : TableRow.Statement (.csrReadF000 rd csr rs1) :=
  tableRow_intro ⟨"csr_read_f000", 0x0000707F, 0x00000073⟩ (by decide) rfl <| by
    rw [mask_funct3, encode, (fields_encodeI ..).1, (fields_encodeI ..).2.1]; decide

theorem TableRow.csrReadF100 (rd : RegIdx) (csr : CsrNum) (rs1 : RegIdx) : TableRow.Statement (.csrReadF100 rd csr rs1) :=
  tableRow_intro ⟨"csr_read_f100", 0x0000707F, 0x00004073⟩ (by decide) rfl <| by
    rw [mask_funct3, encode, (fields_encodeI ..).1, (fields_encodeI ..).2.1]; decide

/-! ## LowBits -/

/-- The low two bits of the instruction's word are 11. -/
def LowBits.Statement (i : Instr) : Prop := (encode i).extractLsb' 0 2 = 0b11#2

theorem lowBits_intro {i : Instr} (op : BitVec 7) (h : opcodeOf (encode i) = op) (ho : op.extractLsb' 0 2 = 0b11#2) :
    LowBits.Statement i := by
  unfold LowBits.Statement
  rw [← ho, ← h]
  refine BitVec.eq_of_getLsbD_eq fun i hi => ?_
  simp [opcodeOf, hi]

theorem LowBits.lui (rd : RegIdx) (imm : BitVec 20) : LowBits.Statement (.lui rd imm) :=
  lowBits_intro _ (fields_encodeU ..).1 rfl
theorem LowBits.auipc (rd : RegIdx) (imm : BitVec 20) : LowBits.Statement (.auipc rd imm) :=
  lowBits_intro _ (fields_encodeU ..).1 rfl
theorem LowBits.jal (rd : RegIdx) (offset : BitVec 21) : LowBits.Statement (.jal rd offset) :=
  lowBits_intro _ (opcodeOf_encodeJ ..) rfl
theorem LowBits.jalr (rd rs1 : RegIdx) (imm : BitVec 12) : LowBits.Statement (.jalr rd rs1 imm) :=
  lowBits_intro _ (fields_encodeI ..).1 rfl
theorem LowBits.beq (rs1 rs2 : RegIdx) (offset : BitVec 13) : LowBits.Statement (.beq rs1 rs2 offset) :=
  lowBits_intro _ (opcode_funct3_encodeB ..).1 rfl
theorem LowBits.bne (rs1 rs2 : RegIdx) (offset : BitVec 13) : LowBits.Statement (.bne rs1 rs2 offset) :=
  lowBits_intro _ (opcode_funct3_encodeB ..).1 rfl
theorem LowBits.blt (rs1 rs2 : RegIdx) (offset : BitVec 13) : LowBits.Statement (.blt rs1 rs2 offset) :=
  lowBits_intro _ (opcode_funct3_encodeB ..).1 rfl
theorem LowBits.bge (rs1 rs2 : RegIdx) (offset : BitVec 13) : LowBits.Statement (.bge rs1 rs2 offset) :=
  lowBits_intro _ (opcode_funct3_encodeB ..).1 rfl
theorem LowBits.bltu (rs1 rs2 : RegIdx) (offset : BitVec 13) : LowBits.Statement (.bltu rs1 rs2 offset) :=
  lowBits_intro _ (opcode_funct3_encodeB ..).1 rfl
theorem LowBits.bgeu (rs1 rs2 : RegIdx) (offset : BitVec 13) : LowBits.Statement (.bgeu rs1 rs2 offset) :=
  lowBits_intro _ (opcode_funct3_encodeB ..).1 rfl
theorem LowBits.lb (rd rs1 : RegIdx) (imm : BitVec 12) : LowBits.Statement (.lb rd rs1 imm) :=
  lowBits_intro _ (fields_encodeI ..).1 rfl
theorem LowBits.lh (rd rs1 : RegIdx) (imm : BitVec 12) : LowBits.Statement (.lh rd rs1 imm) :=
  lowBits_intro _ (fields_encodeI ..).1 rfl
theorem LowBits.lw (rd rs1 : RegIdx) (imm : BitVec 12) : LowBits.Statement (.lw rd rs1 imm) :=
  lowBits_intro _ (fields_encodeI ..).1 rfl
theorem LowBits.lbu (rd rs1 : RegIdx) (imm : BitVec 12) : LowBits.Statement (.lbu rd rs1 imm) :=
  lowBits_intro _ (fields_encodeI ..).1 rfl
theorem LowBits.lhu (rd rs1 : RegIdx) (imm : BitVec 12) : LowBits.Statement (.lhu rd rs1 imm) :=
  lowBits_intro _ (fields_encodeI ..).1 rfl
theorem LowBits.sb (rs1 rs2 : RegIdx) (imm : BitVec 12) : LowBits.Statement (.sb rs1 rs2 imm) :=
  lowBits_intro _ (fields_encodeS ..).1 rfl
theorem LowBits.sh (rs1 rs2 : RegIdx) (imm : BitVec 12) : LowBits.Statement (.sh rs1 rs2 imm) :=
  lowBits_intro _ (fields_encodeS ..).1 rfl
theorem LowBits.sw (rs1 rs2 : RegIdx) (imm : BitVec 12) : LowBits.Statement (.sw rs1 rs2 imm) :=
  lowBits_intro _ (fields_encodeS ..).1 rfl
theorem LowBits.addi (rd rs1 : RegIdx) (imm : BitVec 12) : LowBits.Statement (.addi rd rs1 imm) :=
  lowBits_intro _ (fields_encodeI ..).1 rfl
theorem LowBits.slti (rd rs1 : RegIdx) (imm : BitVec 12) : LowBits.Statement (.slti rd rs1 imm) :=
  lowBits_intro _ (fields_encodeI ..).1 rfl
theorem LowBits.sltiu (rd rs1 : RegIdx) (imm : BitVec 12) : LowBits.Statement (.sltiu rd rs1 imm) :=
  lowBits_intro _ (fields_encodeI ..).1 rfl
theorem LowBits.xori (rd rs1 : RegIdx) (imm : BitVec 12) : LowBits.Statement (.xori rd rs1 imm) :=
  lowBits_intro _ (fields_encodeI ..).1 rfl
theorem LowBits.ori (rd rs1 : RegIdx) (imm : BitVec 12) : LowBits.Statement (.ori rd rs1 imm) :=
  lowBits_intro _ (fields_encodeI ..).1 rfl
theorem LowBits.andi (rd rs1 : RegIdx) (imm : BitVec 12) : LowBits.Statement (.andi rd rs1 imm) :=
  lowBits_intro _ (fields_encodeI ..).1 rfl
theorem LowBits.slli (rd rs1 : RegIdx) (shamt : BitVec 5) : LowBits.Statement (.slli rd rs1 shamt) :=
  lowBits_intro _ (fields_encodeR ..).1 rfl
theorem LowBits.srli (rd rs1 : RegIdx) (shamt : BitVec 5) : LowBits.Statement (.srli rd rs1 shamt) :=
  lowBits_intro _ (fields_encodeR ..).1 rfl
theorem LowBits.srai (rd rs1 : RegIdx) (shamt : BitVec 5) : LowBits.Statement (.srai rd rs1 shamt) :=
  lowBits_intro _ (fields_encodeR ..).1 rfl
theorem LowBits.add (rd rs1 rs2 : RegIdx) : LowBits.Statement (.add rd rs1 rs2) :=
  lowBits_intro _ (fields_encodeR ..).1 rfl
theorem LowBits.sub (rd rs1 rs2 : RegIdx) : LowBits.Statement (.sub rd rs1 rs2) :=
  lowBits_intro _ (fields_encodeR ..).1 rfl
theorem LowBits.sll (rd rs1 rs2 : RegIdx) : LowBits.Statement (.sll rd rs1 rs2) :=
  lowBits_intro _ (fields_encodeR ..).1 rfl
theorem LowBits.slt (rd rs1 rs2 : RegIdx) : LowBits.Statement (.slt rd rs1 rs2) :=
  lowBits_intro _ (fields_encodeR ..).1 rfl
theorem LowBits.sltu (rd rs1 rs2 : RegIdx) : LowBits.Statement (.sltu rd rs1 rs2) :=
  lowBits_intro _ (fields_encodeR ..).1 rfl
theorem LowBits.xor (rd rs1 rs2 : RegIdx) : LowBits.Statement (.xor rd rs1 rs2) :=
  lowBits_intro _ (fields_encodeR ..).1 rfl
theorem LowBits.srl (rd rs1 rs2 : RegIdx) : LowBits.Statement (.srl rd rs1 rs2) :=
  lowBits_intro _ (fields_encodeR ..).1 rfl
theorem LowBits.sra (rd rs1 rs2 : RegIdx) : LowBits.Statement (.sra rd rs1 rs2) :=
  lowBits_intro _ (fields_encodeR ..).1 rfl
theorem LowBits.or (rd rs1 rs2 : RegIdx) : LowBits.Statement (.or rd rs1 rs2) :=
  lowBits_intro _ (fields_encodeR ..).1 rfl
theorem LowBits.and (rd rs1 rs2 : RegIdx) : LowBits.Statement (.and rd rs1 rs2) :=
  lowBits_intro _ (fields_encodeR ..).1 rfl
theorem LowBits.fence (fm pred succ : BitVec 4) (rs1 rd : RegIdx) : LowBits.Statement (.fence fm pred succ rs1 rd) :=
  lowBits_intro _ (fields_encodeI ..).1 rfl
theorem LowBits.ecall (rd rs1 : RegIdx) : LowBits.Statement (.ecall rd rs1) :=
  lowBits_intro _ (fields_encodeI ..).1 rfl
theorem LowBits.ebreak (rd rs1 : RegIdx) : LowBits.Statement (.ebreak rd rs1) :=
  lowBits_intro _ (fields_encodeI ..).1 rfl
theorem LowBits.mret (rd rs1 : RegIdx) : LowBits.Statement (.mret rd rs1) :=
  lowBits_intro _ (fields_encodeI ..).1 rfl
theorem LowBits.csrrw (rd : RegIdx) (csr : CsrNum) (rs1 : RegIdx) : LowBits.Statement (.csrrw rd csr rs1) :=
  lowBits_intro _ (fields_encodeI ..).1 rfl
theorem LowBits.csrrs (rd : RegIdx) (csr : CsrNum) (rs1 : RegIdx) : LowBits.Statement (.csrrs rd csr rs1) :=
  lowBits_intro _ (fields_encodeI ..).1 rfl
theorem LowBits.csrrc (rd : RegIdx) (csr : CsrNum) (rs1 : RegIdx) : LowBits.Statement (.csrrc rd csr rs1) :=
  lowBits_intro _ (fields_encodeI ..).1 rfl
theorem LowBits.csrrwi (rd : RegIdx) (csr : CsrNum) (zimm : BitVec 5) : LowBits.Statement (.csrrwi rd csr zimm) :=
  lowBits_intro _ (fields_encodeI ..).1 rfl
theorem LowBits.csrrsi (rd : RegIdx) (csr : CsrNum) (zimm : BitVec 5) : LowBits.Statement (.csrrsi rd csr zimm) :=
  lowBits_intro _ (fields_encodeI ..).1 rfl
theorem LowBits.csrrci (rd : RegIdx) (csr : CsrNum) (zimm : BitVec 5) : LowBits.Statement (.csrrci rd csr zimm) :=
  lowBits_intro _ (fields_encodeI ..).1 rfl
theorem LowBits.csrReadF000 (rd : RegIdx) (csr : CsrNum) (rs1 : RegIdx) : LowBits.Statement (.csrReadF000 rd csr rs1) :=
  lowBits_intro _ (fields_encodeI ..).1 rfl
theorem LowBits.csrReadF100 (rd : RegIdx) (csr : CsrNum) (rs1 : RegIdx) : LowBits.Statement (.csrReadF100 rd csr rs1) :=
  lowBits_intro _ (fields_encodeI ..).1 rfl

end Sys2Proof.Laws
end

