-- ==== Sys2Proof/Laws/Tick.lean ====
section
/-! SUPPORT. Everything a tick of the stores can do, said once (20_memory.md R71 to R98): it waits, answers the one request
outstanding, or stops as the access does. -/

namespace Sys2Proof.Machine

/-! ## The one request outstanding -/

/-- The other bus. -/
def otherBus : BusName → BusName
  | .instruction => .data
  | .data => .instruction

/-- The bus `n` carries the unacknowledged request `r` and the other bus is idle. -/
structure Pending (s : State) (n : BusName) (r : Bus) : Prop where
  bus : busOf s n = r
  idle : busOf s (otherBus n) = .idle
  req : r.requests = true
  wr : r.writeEnable = true → n = .data

/-- Nothing is requested of any slave while no bus requests. -/
theorem requester_none {s : State} {k} (h1 : s.micro.ibus.requests = false) (h2 : s.micro.dbus.requests = false) :
    requester k s = none := by
  unfold requester; rw [h1, h2]

/-- Only the slave behind the requested address has a requester. -/
theorem requester_pending {s : State} {n r} (h : Pending s n r) (k) : requester k s = match route s.config .data r.address with
    | some (k', o) => if k' = k then some (n, o) else none
    | none => none := by
  obtain ⟨hb, hi, hr, -⟩ := h
  cases n
  · simp only [otherBus, busOf] at hb hi
    unfold requester
    rw [hb, hi, hr, route_bus s.config .instruction .data]
    have : Bus.idle.requests = false := rfl
    rw [this]
    cases route s.config .data r.address with
    | none => rfl
    | some x => rfl
  · simp only [otherBus, busOf] at hb hi
    unfold requester
    rw [hb, hi, hr]
    have : Bus.idle.requests = false := rfl
    rw [this]
    generalize route s.config .instruction Bus.idle.address = q
    cases q <;> cases route s.config .data r.address <;> rfl

theorem requests_request (m : MemAccess) : m.request.requests = true := by cases m <;> rfl
theorem requests_acknowledged (r : Bus) (w) : ({r with acknowledge := true, dataOut := w} : Bus).requests = false :=
    by simp [Bus.requests]

/-- No request or exactly one, and a request is the fetch's or the access's. -/
theorem quiet_or_pending {s : State} (h : BusesFollow s) :
   (s.micro.ibus.requests = false ∧ s.micro.dbus.requests = false) ∨ ∃ n r, Pending s n r := by
  unfold BusesFollow at h
  split at h
  · left; rw [h.1, h.2]; exact ⟨rfl, rfl⟩
  · left; rw [h.1, h.2]; exact ⟨rfl, rfl⟩
  · left; rw [h.1, h.2]; exact ⟨rfl, rfl⟩
  · obtain ⟨hd, hi | ⟨-, hc | ⟨w, hc, -⟩⟩⟩ := h
    · left; rw [hi, hd]; exact ⟨rfl, rfl⟩
    · right; exact ⟨.instruction, _, hc, hd, rfl, fun h => by simp [readRequest, Bus.idle] at h⟩
    · left; simp only [busOf] at hc; rw [hc, hd]; exact ⟨rfl, rfl⟩
  · obtain ⟨hi, i, m, -, -, hd | ⟨-, hc | ⟨w, hc, -⟩⟩⟩ := h
    · left; rw [hi, hd]; exact ⟨rfl, rfl⟩
    · right; exact ⟨.data, _, hc, hi, requests_request m, fun _ => rfl⟩
    · left; simp only [busOf] at hc; rw [hc, hi]; exact ⟨rfl, requests_acknowledged _ _⟩

theorem not_pending {s : State} {n r} (h1 : s.micro.ibus.requests = false) (h2 : s.micro.dbus.requests = false)
    (hp : Pending s n r) : False := by
  have h3 := hp.bus; have h4 := hp.req
  cases n
  · simp only [busOf] at h3; rw [← h3, h1] at h4; cases h4
  · simp only [busOf] at h3; rw [← h3, h2] at h4; cases h4

/-- A bus that requests is the only one. -/
theorem pending_of {s : State} (h : BusesFollow s) {n} (hr : (busOf s n).requests = true) : Pending s n (busOf s n) := by
  rcases quiet_or_pending h with ⟨q1, q2⟩ | ⟨m, r, hp⟩
  · cases n
    · simp only [busOf] at hr; rw [q1] at hr; cases hr
    · simp only [busOf] at hr; rw [q2] at hr; cases hr
  · by_cases hmn : m = n
    · subst hmn; rw [hp.bus]; exact hp
    · have : otherBus m = n := by cases m <;> cases n <;> first | rfl | exact absurd rfl hmn
      have h2 := hp.idle; rw [this] at h2; rw [h2] at hr; cases hr

/-- A request is aligned (20_memory.md R104, R105). -/
theorem pending_aligned {s : State} (h : BusesFollow s) {n r} (hp : Pending s n r) : aligned r.address r.width = true := by
  have hreq := hp.req
  unfold BusesFollow at h
  split at h
  · exact (not_pending (by rw [h.1]; rfl) (by rw [h.2]; rfl) hp).elim
  · exact (not_pending (by rw [h.1]; rfl) (by rw [h.2]; rfl) hp).elim
  · exact (not_pending (by rw [h.1]; rfl) (by rw [h.2]; rfl) hp).elim
  · obtain ⟨hd, hi | ⟨hal, hc | ⟨w, hc, -⟩⟩⟩ := h
    · exact (not_pending (by rw [hi]; rfl) (by rw [hd]; rfl) hp).elim
    · have hb := hp.bus
      cases n
      · rw [hc] at hb; rw [← hb]; exact hal
      · simp only [busOf] at hb; rw [hd] at hb; rw [← hb] at hreq; cases hreq
    · simp only [busOf] at hc
      exact (not_pending (by rw [hc]; exact requests_acknowledged _ _) (by rw [hd]; rfl) hp).elim
  · obtain ⟨hi, i, m, -, -, hd | ⟨hal, hc | ⟨w, hc, -⟩⟩⟩ := h
    · exact (not_pending (by rw [hi]; rfl) (by rw [hd]; rfl) hp).elim
    · have hb := hp.bus
      cases n
      · simp only [busOf] at hb; rw [hi] at hb; rw [← hb] at hreq; cases hreq
      · rw [hc] at hb; rw [← hb]; cases m <;> exact hal
    · simp only [busOf] at hc
      exact (not_pending (by rw [hi]; rfl) (by rw [hc]; exact requests_acknowledged _ _) hp).elim

/-- While a request is unacknowledged the ExecutionUnit only waits. -/
theorem eu_waits {s : State} (h : BusesFollow s) {n r} (hp : Pending s n r) (t : State) : euTick s t = .next t := by
  have hreq := hp.req
  unfold BusesFollow at h
  split at h
  · exact (not_pending (by rw [h.1]; rfl) (by rw [h.2]; rfl) hp).elim
  · exact (not_pending (by rw [h.1]; rfl) (by rw [h.2]; rfl) hp).elim
  · exact (not_pending (by rw [h.1]; rfl) (by rw [h.2]; rfl) hp).elim
  · rename_i he
    obtain ⟨hd, hi | ⟨hal, hc | ⟨w, hc, -⟩⟩⟩ := h
    · exact (not_pending (by rw [hi]; rfl) (by rw [hd]; rfl) hp).elim
    · simp only [busOf] at hc
      simp only [euTick, he, fetchWaitTick, hc]; rfl
    · simp only [busOf] at hc
      exact (not_pending (by rw [hc]; exact requests_acknowledged _ _) (by rw [hd]; rfl) hp).elim
  · rename_i he
    obtain ⟨hi, i, m, hdc, hma, hd | ⟨hal, hc | ⟨w, hc, -⟩⟩⟩ := h
    · exact (not_pending (by rw [hi]; rfl) (by rw [hd]; rfl) hp).elim
    · simp only [busOf] at hc
      have hcy : s.micro.dbus.cycle = true := by rw [hc]; cases m <;> rfl
      have hack : s.micro.dbus.acknowledge = false := by rw [hc]; cases m <;> rfl
      simp only [euTick, he, hdc, hma, memWaitTick]
      cases m <;> simp only [hcy, hack, if_true, Bool.false_eq_true, if_false]
    · simp only [busOf] at hc
      exact (not_pending (by rw [hi]; rfl) (by rw [hc]; exact requests_acknowledged _ _) hp).elim

theorem pending_unique {s : State} {n m r r'} (hp : Pending s n r) (hp' : Pending s m r') : m = n ∧ r' = r := by
  by_cases hmn : m = n
  · subst hmn; exact ⟨rfl, by rw [← hp'.bus, hp.bus]⟩
  · have : otherBus n = m := by cases m <;> cases n <;> first | rfl | exact absurd rfl hmn
    have h2 := hp.idle; rw [this, hp'.bus] at h2; have := hp'.req; rw [h2] at this; cases this


/-! ## What a tick of the stores answers -/

/-- Ticks till the answer of a request. -/
def ticksToAnswer (s : State) : Nat :=
  match requester .ram s, requester .rom s, requester .flash s with
  | some _, _, _ => if s.micro.ramAck = 0 then 2 else 1
  | none, some _, _ => if s.micro.romAck = 0 then 2 else 1
  | none, none, some _ => match s.micro.spi.state with
    | .reset => 96
    | .powerup => 65 + max 1 s.micro.spi.countdown
    | .waiting => 65
    | .tx => 33 + s.micro.spi.countdown
    | .rx => 32 - (s.micro.flashDev.bits - 32)
  | none, none, none => 0

/-- What no tick of the stores changes. -/
structure Kept (s t : State) : Prop where
  r : t.regs = s.regs
  p : t.pc = s.pc
  c : t.csr = s.csr
  f : t.flash = s.flash
  g : t.config = s.config
  e : t.micro.eu = s.micro.eu

/-- The three outcomes of a tick of the stores. -/
inductive StoresOutcome (s : State) : Except Fault State → Prop where
  | waits (t : State) (hk : Kept s t) (hm : t.mem = s.mem) (hi : t.micro.ibus = s.micro.ibus) (hd : t.micro.dbus = s.micro.dbus)
      (hs : SpiFollows t)
      (hidle : s.micro.ibus.requests = false → s.micro.dbus.requests = false → t.micro.spi.state ≠ .tx ∧
          t.micro.spi.state ≠ .rx)
      (hticks : (∃ n r k o, Pending s n r ∧ route s.config .data r.address = some (k, o)) → ticksToAnswer t < ticksToAnswer s) :
          StoresOutcome s (.ok t)
  | answers (t : State) (n : BusName) (r : Bus) (w : Word) (hp : Pending s n r) (hk : Kept s t)
      (hb : busOf t n = { r with acknowledge := true, dataOut := w }) (ho : busOf t (otherBus n) = .idle)
      (ha : Answered t n r w)
      (hm : if r.writeEnable then ∃ s', memWrite r.address r.width r.dataIn s = .ok s' ∧ t.mem = s'.mem else t.mem = s.mem)
      (hs : SpiFollows t ∧ t.micro.spi.state ≠ .tx ∧ t.micro.spi.state ≠ .rx)
      (hfl : ∀ o, route s.config .data r.address = some (.flash, o) → t.micro.spi.state = .waiting ∧ t.micro.spi.clk = false ∧
          t.micro.spi.cs = false) :
          StoresOutcome s (.ok t)
  | stops (n : BusName) (r : Bus) (f : Fault) (hp : Pending s n r)
      (hroute : ∃ k o, route s.config .data r.address = some (k, o))
      (hf : if r.writeEnable then memWrite r.address r.width r.dataIn s = .error f else memRead n r.address r.width s =
          .error f) : StoresOutcome s (.error f)

/-! ## The SPIFlashController -/

/-- The state with the controller and the device replaced. -/
def withSpi (s : State) (c : SpiController) (d : FlashDevice) : State :=
    { s with micro := { s.micro with spi := c, flashDev := d } }

/-- The same for a flash read. -/
def spiTicksToAnswer (s : State) : Nat := match s.micro.spi.state with
    | .reset => 96
    | .powerup => 65 + max 1 s.micro.spi.countdown
    | .waiting => 65
    | .tx => 33 + s.micro.spi.countdown
    | .rx => 32 - (s.micro.flashDev.bits - 32)

theorem requester_withSpi (s c d k) : requester k (withSpi s c d) = requester k s := rfl

@[simp] theorem clkAt_zero (m : SpiClocking) : clkAt m 0 = false := by cases m <;> rfl
@[simp] theorem clkAt_even (m : SpiClocking) (j : Nat) : clkAt m (2 * j) = false := by
  cases m
  · simp [clkAt]
  · rfl

/-- A tick that sends shifts one bit out, whichever way `spi_clk` is driven. -/
theorem sendTick_eq {m : SpiClocking} {c : SpiController} {j : Nat} (h : c.clk = clkAt m j) :
    c.sendTick m = { c with clk := clkAt m (j + 1), shift := c.shift <<< 1, mosi := (c.shift <<< 1).msb } := by
  cases m
  · have hj : (!decide (j % 2 = 1)) = decide ((j + 1) % 2 = 1) := by
      rw [← decide_not]; exact decide_eq_decide.mpr (by omega)
    simp only [SpiController.sendTick, clkAt] at h ⊢
    rw [h, hj]
  · simp only [SpiController.sendTick, clkAt] at h ⊢
    simp [SpiController.sendEdge, h]

/-- A tick that receives stores one bit, whichever way `spi_clk` is driven. -/
theorem receiveTick_eq {m : SpiClocking} {c : SpiController} {j : Nat} (h : c.clk = clkAt m j) (b : Bool) :
    c.receiveTick m b = { c with clk := clkAt m (j + 1), data := withBit c.data c.countdown b } := by
  cases m
  · have hj : (!decide (j % 2 = 1)) = decide ((j + 1) % 2 = 1) := by
      rw [← decide_not]; exact decide_eq_decide.mpr (by omega)
    simp only [SpiController.receiveTick, clkAt] at h ⊢
    rw [h, hj]
  · simp only [SpiController.receiveTick, clkAt] at h ⊢
    simp [SpiController.receiveEdge, h]

/-- A tick of RX, field by field. -/
theorem rxTick_eq {m : SpiClocking} {c : SpiController} {j : Nat} (h : c.clk = clkAt m j) (b : Bool) :
    c.rxTick m b = { c with
      state := if c.lastBit then .waiting else c.state
      countdown := nextPlace c.countdown
      data := withBit c.data c.countdown b
      cs := !c.lastBit && c.cs
      clk := clkAt m (j + 1) } := by
  simp only [SpiController.rxTick, receiveTick_eq h]
  cases c.lastBit <;> rfl

theorem nextPlace_bitPlace (k : Nat) : nextPlace (bitPlace k) = bitPlace (k + 1) := by
  unfold nextPlace bitPlace
  by_cases h : (8 * (k / 8) + (7 - k % 8)) % 8 = 0
  · rw [if_pos h]; omega
  · rw [if_neg h]; omega

/-- A selected device takes one bit in a clocked tick, the one on `spi_mosi`, whichever way `spi_clk` is driven. -/
theorem next_selected (d : FlashDevice) {m : SpiClocking} {c : SpiController} {j : Nat} (h : c.clk = clkAt m j)
    (hc : c.cs = true) (hst : c.state = .powerup ∨ c.state = .tx ∨ c.state = .rx) : d.next m c = d.clock c.mosi := by
  cases m
  · rcases hst with e | e | e <;> simp [FlashDevice.next, FlashDevice.overTick, hc, e]
  · simp only [clkAt] at h
    rcases hst with e | e | e <;>
      simp [FlashDevice.next, FlashDevice.overTick, FlashDevice.edge, SpiController.sendEdge, SpiController.receiveEdge, h, hc,
          e]

/-- A tick of POWERUP keeps the controller where SpiFollows says. -/
theorem powerupTick_follows {s : State} (hst : s.micro.spi.state = .powerup) (hs : SpiFollows s) (d : FlashDevice) :
    SpiFollows (withSpi s (s.micro.spi.powerupTick s.config.spiClock) d) ∧
    (s.micro.spi.powerupTick s.config.spiClock).state = (if s.micro.spi.countdown ≤ 1 then .waiting else .powerup) := by
  simp only [SpiFollows, hst] at hs
  obtain ⟨h0, h1, h2, h3⟩ := hs
  have hst' : (s.micro.spi.powerupTick s.config.spiClock).state = (if s.micro.spi.countdown ≤ 1 then .waiting else .powerup) :=
      by
    simp [SpiController.powerupTick]
  refine ⟨?_, hst'⟩
  simp only [SpiFollows, withSpi, hst']
  simp only [SpiController.powerupTick, sendTick_eq h0]
  by_cases hl : s.micro.spi.countdown ≤ 1
  · simp only [hl, if_true]
    refine ⟨?_, decide_eq_false (by omega)⟩
    rw [show 30 - s.micro.spi.countdown + 1 = 2 * 15 by omega, clkAt_even]
  · simp only [hl, if_false]
    refine ⟨?_, by omega, by omega, decide_eq_decide.mpr (by omega)⟩
    rw [show 30 - s.micro.spi.countdown + 1 = 30 - (s.micro.spi.countdown - 1) by omega]

/-- A tick of the controller while no flash read is requested. -/
theorem spiTick_unrequested {s : State} (hs : SpiFollows s) (hr : requester .flash s = none) :
    ∃ c d, spiTick s = .ok (withSpi s c d) ∧ SpiFollows (withSpi s c d) ∧ c.state ≠ .tx ∧ c.state ≠ .rx := by
  simp only [spiTick]
  cases hst : s.micro.spi.state
  · refine ⟨_, _, rfl, ?_, ?_, ?_⟩ <;> simp [SpiFollows, withSpi, SpiController.resetTick]
  · obtain ⟨h1, h2⟩ := powerupTick_follows hst hs (s.micro.flashDev.next s.config.spiClock s.micro.spi)
    refine ⟨_, _, rfl, h1, ?_, ?_⟩ <;> (rw [h2]; split <;> simp)
  · simp only [SpiFollows, hst] at hs
    simp only [hr]
    refine ⟨_, _, rfl, ?_, ?_, ?_⟩ <;> simp [SpiFollows, withSpi, hst, hs]
  · simp only [SpiFollows, hst] at hs
    obtain ⟨n, o, j, -, h, -⟩ := hs; rw [hr] at h; cases h
  · simp only [SpiFollows, hst] at hs
    obtain ⟨n, o, j, -, h, -⟩ := hs; rw [hr] at h; cases h

theorem readCommand_opcode (c : Config) (o : Nat) : (readCommand c o).extractLsb' 24 8 = 0x03#8 := by
  have h : flashAddress c o < 2 ^ 24 := Nat.mod_lt _ (by norm_num)
  refine BitVec.eq_of_getLsbD_eq fun i hi => ?_
  have : (BitVec.ofNat 32 (flashAddress c o)).getLsbD (24 + i) = false := by
    rw [BitVec.getLsbD_ofNat]; rw [Nat.testBit_lt_two_pow
        (lt_of_lt_of_le h (Nat.pow_le_pow_right (by norm_num) (by omega)))]; simp
  simp only [readCommand, BitVec.getLsbD_extractLsb', BitVec.getLsbD_or, this, Bool.or_false]
  interval_cases i <;> decide
theorem readCommand_address (c : Config) (o : Nat) : ((readCommand c o).extractLsb' 0 24).toNat = flashAddress c o := by
  have h : flashAddress c o < 2 ^ 24 := Nat.mod_lt _ (by norm_num)
  have : (readCommand c o).extractLsb' 0 24 = BitVec.ofNat 24 (flashAddress c o) := by
    refine BitVec.eq_of_getLsbD_eq fun i hi => ?_
    have h3 : (50331648 : BitVec 32).getLsbD i = false := by interval_cases i <;> decide
    simp only [readCommand, BitVec.getLsbD_extractLsb', BitVec.getLsbD_or, BitVec.getLsbD_ofNat, hi, show i < 32 by omega,
        Nat.zero_add, h3, decide_true, Bool.true_and, Bool.false_or]
  rw [this, BitVec.toNat_ofNat, Nat.mod_eq_of_lt h]

theorem bitPlace_inj {j k : Nat} (h : bitPlace j = bitPlace k) : j = k := by
  simp only [bitPlace] at h; omega
theorem bitPlace_lt {j : Nat} (h : j < 32) : bitPlace j < 32 := by simp only [bitPlace]; omega

/-- One bit replaced. -/
theorem getLsbD_withBit (w : Word) (i : Nat) (b : Bool) (j : Nat) (hi : i < 32) (hj : j < 32) :
    (withBit w i b).getLsbD j = if j = i then b else w.getLsbD j := by
  simp only [withBit, BitVec.getLsbD_or, BitVec.getLsbD_and, BitVec.getLsbD_not, BitVec.getLsbD_shiftLeft, hj,
      BitVec.getLsbD_one, BitVec.getLsbD_setWidth, BitVec.getLsbD_ofBool]
  by_cases h : j = i
  · subst h; simp [hj]
  · by_cases h2 : j < i
    · simp [h, h2]
    · simp [h, h2, show ¬ j - i = 0 by omega, show j - i < 32 by omega, hj]

theorem flashWord_eq_none {f : Memory} {A : Nat} (q : Nat) (hq : q < 4) (h : f.readByte ((A + q) % 2 ^ 24) = none) :
    flashWord f A = none := by
  cases hw : flashWord f A with
  | none => rfl
  | some w =>
    obtain ⟨b0, b1, b2, b3, e0, e1, e2, e3, -⟩ := wordAt_eq_some.mp hw
    interval_cases q
    · rw [Nat.add_zero] at h; rw [h] at e0; cases e0
    · rw [h] at e1; cases e1
    · rw [h] at e2; cases e2
    · rw [h] at e3; cases e3

/-- A tick of the controller while a flash access is requested: it refuses a store, goes on, answers with the flash word,
    or finds a byte
past the image (20_memory.md R89, R93 to R97). -/
theorem spiTick_requested {s : State} {n o} (hs : SpiFollows s)
    (hr : requester .flash s = some (n, o)) :
   ((busOf s n).writeEnable = true ∧ spiTick s = .error .storeToBootStore) ∨
   (∃ c d, spiTick s = .ok (withSpi s c d) ∧ SpiFollows (withSpi s c d) ∧
       spiTicksToAnswer (withSpi s c d) < spiTicksToAnswer s) ∨
   ((busOf s n).writeEnable = false ∧ ∃ c d w, spiTick s = .ok (respond n w (withSpi s c d)) ∧ c.state = .waiting ∧
       (c.clk = false ∧ c.cs = false) ∧ flashWord s.flash (flashAddress s.config o) = some w) ∨
   ((busOf s n).writeEnable = false ∧ spiTick s = .error .flashOutOfRange ∧ flashWord s.flash (flashAddress s.config o) =
       none) := by
  simp only [spiTick]
  cases hst : s.micro.spi.state
  · right; left
    refine ⟨_, _, rfl, ?_, ?_⟩
    · simp [SpiFollows, withSpi, SpiController.resetTick]
    · simp [spiTicksToAnswer, withSpi, SpiController.resetTick, hst]
  · obtain ⟨h1, h2⟩ := powerupTick_follows hst hs (s.micro.flashDev.next s.config.spiClock s.micro.spi)
    simp only [SpiFollows, hst] at hs
    right; left
    refine ⟨_, _, rfl, h1, ?_⟩
    simp only [spiTicksToAnswer, withSpi, h2, hst]
    have hc : (s.micro.spi.powerupTick s.config.spiClock).countdown = s.micro.spi.countdown - 1 := rfl
    by_cases hl : s.micro.spi.countdown ≤ 1
    · simp [hl]
    · simp [hl, hc]; omega
  · simp only [SpiFollows, hst] at hs
    simp only [hr]
    by_cases hw : (busOf s n).writeEnable = true
    · left; simp [hw]
    · right; left
      simp only [hw]
      refine ⟨_, _, rfl, ?_, ?_⟩
      · simp only [SpiFollows, withSpi, SpiController.startRead]
        refine ⟨n, o, 0, by rw [clkAt_zero]; exact hs.1, hr, Bool.eq_false_iff.mpr hw, trivial, by omega, by omega, by simp,
            trivial, ?_⟩
        simp [FlashDevice.next, hs, FlashDevice.idle]
        refine BitVec.eq_of_getLsbD_eq fun i hi => ?_
        simp
      · simp [spiTicksToAnswer, withSpi, SpiController.startRead, hst]
  · simp only [SpiFollows, hst] at hs
    obtain ⟨n', o', j, hck, h1, h2, h3, h4, h5, h6, h7, h8⟩ := hs
    rw [hr] at h1; cases h1
    simp only [hr]
    right; left
    refine ⟨_, _, rfl, ?_, ?_⟩
    · have hm : s.micro.spi.mosi = (readCommand s.config o).getLsbD (31 - j) := by
        rw [h7, h6, BitVec.msb_eq_getLsbD_last, BitVec.getLsbD_shiftLeft]; simp [show ¬ 31 < j by omega]
      have hd : s.micro.flashDev.next s.config.spiClock s.micro.spi =
          { command := readCommand s.config o >>> (32 - (j + 1)), bits := j + 1 } :=
          by
        rw [next_selected _ hck h3 (.inr (.inl hst)), h8]
        simp only [FlashDevice.clock, show j < 32 by omega, if_true, hm]
        congr 1
        refine BitVec.eq_of_getLsbD_eq fun i hi => ?_
        simp only [BitVec.getLsbD_or, BitVec.getLsbD_shiftLeft, BitVec.getLsbD_ushiftRight, BitVec.getLsbD_setWidth,
            BitVec.getLsbD_ofBool, hi]
        by_cases h0 : i = 0
        · subst h0; simp [show 32 - (j + 1) = 31 - j by omega]
        · simp [h0, show ¬ i < 1 by omega, show 32 - j + (i - 1) = 32 - (j + 1) + i by omega]
      rw [hd]
      by_cases h0 : s.micro.spi.countdown = 0
      · have hj : j = 31 := by omega
        subst hj
        simp only [SpiFollows, withSpi, SpiController.txTick, sendTick_eq hck, h0, if_true]
        refine ⟨n, o, 0, rfl, hr, h2, h3, by omega, rfl, ?_, by simp⟩
        simp
      · simp only [SpiFollows, withSpi, SpiController.txTick, sendTick_eq hck, h0, if_false, hst]
        refine ⟨n, o, j + 1, rfl, hr, h2, h3, by omega, by omega, ?_, trivial, rfl⟩
        rw [h6, ← BitVec.shiftLeft_add]
    · have hb : s.micro.flashDev.bits = j := by rw [h8]
      simp only [spiTicksToAnswer, withSpi, SpiController.txTick, sendTick_eq hck, hst]
      by_cases h0 : s.micro.spi.countdown = 0
      · simp [h0]; omega
      · simp [h0]; omega
  · simp only [SpiFollows, hst] at hs
    obtain ⟨n', o', k, hck, h1, h2, h3, h4, h5, h6, h7⟩ := hs
    rw [hr] at h1; cases h1
    simp only [hr]
    right
    have hmiso : s.micro.flashDev.miso s.flash =
        (s.flash.readByte ((flashAddress s.config o + k / 8) % 2 ^ 24)).map fun b => b.getLsbD (7 - k % 8) := by
      rw [h6]; simp only [FlashDevice.miso, readCommand_opcode, readCommand_address, if_true, Nat.add_sub_cancel_left]
    rw [hmiso]
    cases hb : s.flash.readByte ((flashAddress s.config o + k / 8) % 2 ^ 24) with
    | none =>
      right; right
      refine ⟨h2, rfl, ?_⟩
      exact flashWord_eq_none (k / 8) (by omega) hb
    | some b =>
      simp only [Option.map_some]
      have hcd : s.micro.spi.lastBit = decide (k = 31) := by
        simp only [SpiController.lastBit, h5, bitPlace]; exact decide_eq_decide.mpr (by omega)
      by_cases hk : k = 31
      · subst hk
        right; left
        refine ⟨h2, _, _, _, by simp only [hcd, decide_true, if_true]; rfl, ?_, ⟨?_, ?_⟩, ?_⟩ <;>
          simp only [rxTick_eq hck, hcd, decide_true, if_true, Bool.not_true, Bool.false_and]
        · exact clkAt_even _ 32
        · obtain ⟨b0, e0, -⟩ := h7 0 (by omega)
          obtain ⟨b1, e1, -⟩ := h7 8 (by omega)
          obtain ⟨b2, e2, -⟩ := h7 16 (by omega)
          obtain ⟨b3, e3, -⟩ := h7 24 (by omega)
          have hw : flashWord s.flash (flashAddress s.config o) = some (wordOfBytes b0 b1 b2 b3) :=
              wordAt_eq_some.mpr ⟨_, _, _, _, e0, e1, e2, e3, rfl⟩
          rw [hw]; congr 1
          refine BitVec.eq_of_getLsbD_eq fun p hp => ?_
          rw [getLsbD_withBit _ _ _ _ (by rw [h5]; exact bitPlace_lt (by omega)) hp, getLsbD_wordOfBytes]
          have hinv : bitPlace (bitPlace p) = p := by simp only [bitPlace]; omega
          have hj : bitPlace p < 32 := bitPlace_lt hp
          have hm : 7 - bitPlace p % 8 = p % 8 := by simp only [bitPlace]; omega
          have hd8 : bitPlace p / 8 = p / 8 := by simp only [bitPlace]; omega
          have key : ∃ c, s.flash.readByte ((flashAddress s.config o + p / 8) % 2 ^ 24) = some c ∧
              (if p = s.micro.spi.countdown then b.getLsbD (7 - 31 % 8) else s.micro.spi.data.getLsbD p) = c.getLsbD (p % 8) :=
                  by
            by_cases h : p = s.micro.spi.countdown
            · rw [if_pos h]
              have : p = 24 := by rw [h, h5]; rfl
              subst this
              exact ⟨b, hb, rfl⟩
            · rw [if_neg h]
              have hne : bitPlace p ≠ 31 := by
                intro h'; apply h; rw [h5, ← h', hinv]
              obtain ⟨c, hc, hc2⟩ := h7 (bitPlace p) (by omega)
              rw [hinv, hm] at hc2
              rw [hd8] at hc
              exact ⟨c, hc, hc2⟩
          obtain ⟨c, hc, hc2⟩ := key
          rw [hc2]
          rcases Nat.lt_or_ge p 8 with q | q
          · rw [show p / 8 = 0 by omega] at hc; rw [show (0:Nat)/8 = 0 from rfl, hc] at e0; cases e0
            simp [q, Nat.mod_eq_of_lt q]
          rcases Nat.lt_or_ge p 16 with q1 | q1
          · rw [show p / 8 = 1 by omega] at hc; rw [show (8:Nat)/8 = 1 from rfl, hc] at e1; cases e1
            simp [show ¬ p < 8 by omega, q1, show p % 8 = p - 8 by omega]
          rcases Nat.lt_or_ge p 24 with q2 | q2
          · rw [show p / 8 = 2 by omega] at hc; rw [show (16:Nat)/8 = 2 from rfl, hc] at e2; cases e2
            simp [show ¬ p < 8 by omega, show ¬ p < 16 by omega, q2, show p % 8 = p - 16 by omega]
          · rw [show p / 8 = 3 by omega] at hc; rw [show (24:Nat)/8 = 3 from rfl, hc] at e3; cases e3
            simp [show ¬ p < 8 by omega, show ¬ p < 16 by omega, show ¬ p < 24 by omega, show p % 8 = p - 24 by omega]
      · left
        simp only [hcd, hk, decide_false, Bool.false_eq_true, if_false]
        have hdev : s.micro.flashDev.next s.config.spiClock s.micro.spi = { command := readCommand s.config o, bits :=
            32 + (k + 1) } := by
          rw [next_selected _ hck h3 (.inr (.inr hst)), h6]; simp [FlashDevice.clock]; omega
        rw [hdev]
        refine ⟨_, _, rfl, ?_, ?_⟩
        · simp only [SpiFollows, withSpi, rxTick_eq hck, hcd, hk, decide_false, Bool.false_eq_true, if_false, hst]
          refine ⟨n, o, k + 1, rfl, hr, h2, by simp [h3], by omega, by rw [h5, nextPlace_bitPlace], rfl, fun j hj => ?_⟩
          rw [getLsbD_withBit _ _ _ _ (by rw [h5]; exact bitPlace_lt (by omega)) (bitPlace_lt (by omega)), h5]
          by_cases hjk : j = k
          · subst hjk; exact ⟨b, hb, by simp⟩
          · obtain ⟨c, hc, hc2⟩ := h7 j (by omega)
            refine ⟨c, hc, ?_⟩
            rw [if_neg (fun h => hjk (bitPlace_inj h)), hc2]
        · simp only [spiTicksToAnswer, withSpi, rxTick_eq hck, hcd, hk, decide_false, Bool.false_eq_true, if_false, hst, h6]
          omega

/-! ## All three -/

/-- The state with the two acknowledge counters replaced. -/
def withAcks (s : State) (a b : Nat) : State := { s with micro := { s.micro with ramAck := a, romAck := b } }
theorem requester_withAck (s a b k) : requester k (withAcks s a b) = requester k s := rfl
theorem spiFollows_withAck (s a b) : SpiFollows (withAcks s a b) ↔ SpiFollows s := Iff.rfl

theorem withSpi_kept (s a b c d) : Kept s (withSpi (withAcks s a b) c d) := ⟨rfl, rfl, rfl, rfl, rfl, rfl⟩
theorem respond_eu (n w s) : (respond n w s).micro.eu = s.micro.eu := by cases n <;> rfl
theorem respond_spi (n w s) : (respond n w s).micro.spi = s.micro.spi := by cases n <;> rfl
theorem respond_bus (n w s) : busOf (respond n w s) n = { busOf s n with acknowledge := true, dataOut := w } :=
    by cases n <;> rfl
theorem respond_other (n w s) : busOf (respond n w s) (otherBus n) = busOf s (otherBus n) := by cases n <;> rfl

theorem ticksToAnswer_ram {s x} (h : requester .ram s = some x) : ticksToAnswer s = if s.micro.ramAck = 0 then 2 else 1 := by
  unfold ticksToAnswer; rw [h]
theorem ticksToAnswer_rom {s x} (h0 : requester .ram s = none) (h : requester .rom s = some x) :
    ticksToAnswer s = if s.micro.romAck = 0 then 2 else 1 := by
  unfold ticksToAnswer; rw [h0, h]
theorem ticksToAnswer_flash {s x} (h0 : requester .ram s = none) (h1 : requester .rom s = none)
    (h : requester .flash s = some x) : ticksToAnswer s = spiTicksToAnswer s := by
  unfold ticksToAnswer; rw [h0, h1, h]; rfl

theorem spiFollows_congr {s t : State} (h1 : t.micro.spi = s.micro.spi) (h2 : t.micro.flashDev = s.micro.flashDev)
    (h3 : t.flash = s.flash) (h4 : t.config = s.config)
  (h5 : s.micro.spi.state ≠ .tx ∧ s.micro.spi.state ≠ .rx ∨ (t.micro.ibus = s.micro.ibus ∧ t.micro.dbus = s.micro.dbus))
      (h : SpiFollows s) : SpiFollows t := by
  rcases h5 with ⟨h5, h6⟩ | ⟨h5, h6⟩
  · unfold SpiFollows at h ⊢; rw [h1]
    cases hst : s.micro.spi.state <;> rw [hst] at h h5 h6
    · trivial
    · rw [h4]; exact h
    · exact h
    · exact absurd rfl h5
    · exact absurd rfl h6
  · have hr : requester .flash t = requester .flash s := by unfold requester; rw [h4, h5, h6]
    have hb : ∀ n, busOf t n = busOf s n := by intro n; cases n; exact h5; exact h6
    unfold SpiFollows at h ⊢; rw [h1]
    simp only [h2, h3, h4, hr, hb] at h ⊢
    exact h

theorem answered_read {s : State} {n r k o w} (hw : r.writeEnable = false) (hr : route s.config .data r.address = some (k, o))
    (hs : storeWord s k o = .ok w) (w' : Word)
   (hl : lowBytes r.width w' = lowBytes r.width (w >>> laneShift k o)) : Answered s n r w' := by
  simp only [Answered, hw, Bool.false_eq_true, if_false]
  refine memRead_eq_ok.mpr ⟨k, o, w, ?_, hs, hl⟩
  rw [route_bus _ n .data]; exact hr

/-- The free bits that a ROM or RAM shifts in are above every bit that an access within the word keeps. -/
theorem lowBytes_shiftedOut (n : Width) (a : Word) (sh : Nat) (w : Word) (h : sh + 8 * Width.bytes n ≤ 32) :
    lowBytes n (shiftedOut a sh w) = lowBytes n (w >>> sh) := by
  unfold shiftedOut
  by_cases h0 : sh = 0
  · subst h0; simp
  · rw [if_neg h0]
    have key : ∀ i, i < 8 * Width.bytes n →
        ((w >>> sh) ||| (Config.shiftFill a &&& ~~~((BitVec.allOnes 32) >>> sh))).getLsbD i = (w >>> sh).getLsbD i := by
      intro i hi
      simp only [BitVec.getLsbD_or, BitVec.getLsbD_and, BitVec.getLsbD_not, BitVec.getLsbD_ushiftRight, BitVec.getLsbD_allOnes]
      simp [show sh + i < 32 by omega]
    generalize ((w >>> sh) ||| (Config.shiftFill a &&& ~~~((BitVec.allOnes 32) >>> sh))) = x at *
    generalize w >>> sh = y at *
    cases n
    · simp only [lowBytes, Width.bytes] at key ⊢
      refine BitVec.eq_of_getLsbD_eq fun i hi => ?_
      simp only [BitVec.getLsbD_setWidth, BitVec.getLsbD_extractLsb']
      by_cases h8 : i < 8
      · have := key i (by omega); simp only [BitVec.getLsbD_eq_getElem hi] at this; simp [h8, hi, this]
      · simp [h8]
    · simp only [lowBytes, Width.bytes] at key ⊢
      refine BitVec.eq_of_getLsbD_eq fun i hi => ?_
      simp only [BitVec.getLsbD_setWidth, BitVec.getLsbD_extractLsb']
      by_cases h8 : i < 16
      · have := key i (by omega); simp only [BitVec.getLsbD_eq_getElem hi] at this; simp [h8, hi, this]
      · simp [h8]
    · simp only [lowBytes, Width.bytes] at key ⊢
      refine BitVec.eq_of_getLsbD_eq fun i hi => key i (by omega)

theorem laneShift_within {c : Config} {a : Word} {k o n} (hr : route c .data a = some (k, o)) (ha : aligned a n = true) :
    laneShift k o + 8 * Width.bytes n ≤ 32 := by
  have := aligned_within ha
  cases k
  · obtain ⟨-, -, rfl⟩ := (route_eq_boot (by simp)).mp hr
    simp only [laneShift]; omega
  · simp only [laneShift]; omega
  · obtain ⟨h1, -⟩ := route_eq_ram.mp hr
    have h5 : ramBase % 4 = 0 := by norm_num [ramBase]
    simp only [laneShift]; omega

theorem spiFollows_not_reading {s : State} (hs : SpiFollows s) (hr : requester .flash s = none) : s.micro.spi.state ≠ .tx ∧
    s.micro.spi.state ≠ .rx := by
  unfold SpiFollows at hs
  split at hs
  · rename_i h; simp [h]
  · rename_i h; simp [h]
  · rename_i h; simp [h]
  · obtain ⟨n, o, j, -, h, -⟩ := hs; rw [hr] at h; cases h
  · obtain ⟨n, o, j, -, h, -⟩ := hs; rw [hr] at h; cases h

theorem busOf_other_idle {s : State} {n} (h : busOf s (otherBus n) = .idle) (h2 : (busOf s n).requests = false) :
    s.micro.ibus.requests = false ∧ s.micro.dbus.requests = false := by
  cases n
  · simp only [busOf, otherBus] at h h2; exact ⟨h2, by rw [h]; rfl⟩
  · simp only [busOf, otherBus] at h h2; exact ⟨by rw [h]; rfl, h2⟩

/-- The rest of a tick in which the RAM or the ROM has answered. -/
theorem after_answer {s u : State} {n r w} (hp : Pending s n r) (hs : SpiFollows s)
    (hfl : requester .flash s = none)
   (hb : busOf u n = { r with acknowledge := true, dataOut := w }) (ho : busOf u (otherBus n) = .idle) (hk : Kept s u)
   (h1 : u.micro.spi = s.micro.spi) (h2 : u.micro.flashDev = s.micro.flashDev) (ha : Answered u n r w)
   (hm : if r.writeEnable then ∃ s', memWrite r.address r.width r.dataIn s = .ok s' ∧ u.mem = s'.mem else u.mem = s.mem) :
   StoresOutcome s (spiTick u) := by
  have hq := busOf_other_idle ho (by rw [hb]; exact requests_acknowledged _ _)
  have hfu : requester .flash u = none := requester_none hq.1 hq.2
  have hsu : SpiFollows u := spiFollows_congr h1 h2 hk.f hk.g (.inl (spiFollows_not_reading hs hfl)) hs
  obtain ⟨c, d, e1, e2⟩ := spiTick_unrequested hsu hfu
  rw [e1]
  refine .answers _ n r w hp ⟨hk.r, hk.p, hk.c, hk.f, hk.g, hk.e⟩ ?_ ?_ ?_ hm e2
      (fun o hr => by have := requester_pending hp .flash; rw [hr, hfl] at this; simp at this)
  · cases n <;> exact hb
  · cases n <;> exact ho
  · unfold Answered at ha ⊢
    split at ha
    · rename_i hw
      rw [if_pos hw]
      obtain ⟨q1, q2⟩ := memWrite_eq_ok.mp ha
      refine memWrite_eq_ok.mpr ⟨q1, ?_⟩
      have : u.mem = u.mem.writeBytes r.address.toNat (storeBytes r.width r.dataIn) := congrArg State.mem q2
      simp only [withSpi]; rw [← this]
    · rename_i hw
      rw [if_neg hw]
      rw [← ha]; exact memRead_congr rfl rfl rfl _ _ _

theorem memRead_of_storeWord_error {s : State} {n : BusName} {r : Bus} {k o f}
    (hr : route s.config .data r.address = some (k, o)) (hs : storeWord s k o = .error f) : memRead n r.address r.width s =
        .error f := by
  unfold memRead
  rw [route_bus _ n .data, hr]; simp only [hs]

/-- Everything a tick of the stores can do. -/
theorem stores_outcome {s : State} (hwf : s.mem.wf) (hb : BusesFollow s) (hs : SpiFollows s)
   (hal : ∀ n r, Pending s n r → aligned r.address r.width = true) : StoresOutcome s (storesTick s) := by
  rcases quiet_or_pending hb with ⟨q1, q2⟩ | ⟨n, r, hp⟩
  · have e : storesTick s = spiTick (withAcks s 0 0) := by
      simp only [storesTick, ramTick, requester_none q1 q2]
      have : requester .rom ({ s with micro := { s.micro with ramAck := 0 } } : State) = none := requester_none q1 q2
      simp only [romTick, this]; rfl
    obtain ⟨c, d, h1, h2⟩ := spiTick_unrequested (s := withAcks s 0 0) hs (requester_none q1 q2)
    rw [e, h1]
    refine .waits _ (withSpi_kept _ _ _ _ _) rfl rfl rfl h2.1 (fun _ _ => ?_) ?_
    · exact h2.2
    · rintro ⟨n, r, k, o, hp, -⟩
      have := hp.req
      cases n
      · have h := hp.bus; simp only [busOf] at h; rw [← h, q1] at this; cases this
      · have h := hp.bus; simp only [busOf] at h; rw [← h, q2] at this; cases this
  · have hreq := requester_pending hp
    cases hr : route s.config .data r.address with
    | none =>
      have hn : ∀ k, requester k s = none := fun k => by rw [hreq k, hr]
      have e : storesTick s = spiTick (withAcks s 0 0) := by
        simp only [storesTick, ramTick, hn]
        have : requester .rom ({ s with micro := { s.micro with ramAck := 0 } } : State) = none := hn .rom
        simp only [romTick, this]; rfl
      obtain ⟨c, d, h1, h2⟩ := spiTick_unrequested (s := withAcks s 0 0) hs (hn .flash)
      rw [e, h1]
      refine .waits _ (withSpi_kept _ _ _ _ _) rfl rfl rfl h2.1 (fun _ _ => ?_) ?_
      · exact h2.2
      · rintro ⟨n', r', k, o, hp', hr'⟩
        have h1 := requester_pending hp' k
        rw [hr', hn] at h1; simp at h1
    | some x =>
      obtain ⟨k, o⟩ := x
      have hk : ∀ k', requester k' s = if k = k' then some (n, o) else none := fun k' => by rw [hreq k', hr]
      have hane := hal n r hp
      have hlane := laneShift_within hr hane
      have nq : ¬ (s.micro.ibus.requests = false ∧ s.micro.dbus.requests = false) := by
        rintro ⟨q1, q2⟩
        have := hp.req
        cases n
        · have h := hp.bus; simp only [busOf] at h; rw [← h, q1] at this; cases this
        · have h := hp.bus; simp only [busOf] at h; rw [← h, q2] at this; cases this
      cases k
      · -- rom
        have k1 : requester .ram s = none := by rw [hk]; rfl
        have k2 : requester .rom s = some (n, o) := by rw [hk]; rfl
        have k3 : requester .flash s = none := by rw [hk]; rfl
        have k2' : requester .rom ({ s with micro := { s.micro with ramAck := 0 } } : State) = some (n, o) := k2
        have hbs : busOf ({ s with micro := { s.micro with ramAck := 0 } } : State) n = r := by rw [← hp.bus]; cases n <;> rfl
        simp only [storesTick, ramTick, k1, romTick, k2', hbs]
        by_cases hc : s.micro.romAck + 1 < ackLatency
        · rw [if_pos hc]
          obtain ⟨c, d, h1, h2⟩ := spiTick_unrequested (s := withAcks s 0 (s.micro.romAck + 1)) hs k3
          simp only [withAcks] at h1
          simp only [h1]
          refine .waits _ (withSpi_kept _ _ _ _ _) rfl rfl rfl h2.1 (fun q1 q2 => absurd ⟨q1, q2⟩ nq)
              (fun _ => ?_)
          rw [ticksToAnswer_rom (s := s) (x := (n, o)) k1 k2]; refine lt_of_eq_of_lt
              (ticksToAnswer_rom (s := withSpi (withAcks s 0 (s.micro.romAck + 1)) c d) (x := (n, o)) k1 k2) ?_
          simp only [ackLatency] at hc
          simp [withSpi, withAcks, show s.micro.romAck = 0 by omega]
        · rw [if_neg hc]
          by_cases hw : r.writeEnable = true
          · simp only [hw, if_true]
            refine .stops n r _ hp ⟨_, _, hr⟩ ?_
            rw [if_pos hw]
            simp only [memWrite, hr]
          · simp only [hw]
            have hsw : storeWord ({ s with micro := { s.micro with ramAck := 0 } } : State) .rom o = storeWord s .rom o := rfl
            simp only [hsw]
            cases hs0 : storeWord s .rom o with
            | error f =>
              refine .stops n r _ hp ⟨_, _, hr⟩ ?_
              rw [if_neg hw]; exact memRead_of_storeWord_error hr hs0
            | ok w =>
              refine after_answer (w := shiftedOut r.address (laneShift .rom o) w) hp hs k3 ?_ ?_ ?_ ?_ ?_ ?_ ?_
              · rw [respond_bus]; rw [← hp.bus]; cases n <;> rfl
              · rw [respond_other, ← hp.idle]; cases n <;> rfl
              · refine ⟨?_, ?_, ?_, ?_, ?_, ?_⟩ <;> simp [respond_eu]
              · rw [respond_spi]
              · cases n <;> rfl
              · refine answered_read (k := .rom) (o := o) (w := w) (by simpa using hw)
                  (by simpa using hr) ?_ _ (lowBytes_shiftedOut _ _ _ _ hlane)
                rw [← hs0]; exact storeWord_congr (by simp) (by simp) (by simp) _ _
              · rw [if_neg hw]; simp
      · -- flash
        have k1 : requester .ram s = none := by rw [hk]; rfl
        have k2 : requester .rom s = none := by rw [hk]; rfl
        have k3 : requester .flash s = some (n, o) := by rw [hk]; rfl
        have e : storesTick s = spiTick (withAcks s 0 0) := by
          simp only [storesTick, ramTick, k1]
          have : requester .rom ({ s with micro := { s.micro with ramAck := 0 } } : State) = none := k2
          simp only [romTick, this]; rfl
        rw [e]
        have hbs : busOf (withAcks s 0 0) n = r := by rw [← hp.bus]; cases n <;> rfl
        rcases spiTick_requested (s := withAcks s 0 0) hs k3 with ⟨hw, h1⟩ | ⟨c, d, h1, h2, h3⟩ |
            ⟨hw, c, d, w, h1, h2, h2', h3⟩ | ⟨hw, h1, h2⟩
        · rw [h1]; rw [hbs] at hw
          refine .stops n r _ hp ⟨_, _, hr⟩ ?_
          rw [if_pos hw]; simp only [memWrite, hr]
        · rw [h1]
          refine .waits _ (withSpi_kept _ _ _ _ _) rfl rfl rfl h2 (fun q1 q2 => absurd ⟨q1, q2⟩ nq) (fun _ => ?_)
          rw [ticksToAnswer_flash (s := s) k1 k2 k3]; exact lt_of_eq_of_lt
              (ticksToAnswer_flash (s := withSpi (withAcks s 0 0) c d) (x := (n, o)) k1 k2 k3) h3
        · rw [h1]; rw [hbs] at hw
          refine .answers _ n r w hp ?_ ?_ ?_ ?_ ?_ ?_
              (fun _ _ => ⟨by rw [respond_spi]; exact h2, by rw [respond_spi]; exact h2'⟩)
          · refine ⟨?_, ?_, ?_, ?_, ?_, ?_⟩ <;> simp [respond_eu, withSpi, withAcks]
          · rw [respond_bus]; rw [← hbs]; cases n <;> rfl
          · rw [respond_other, ← hp.idle]; cases n <;> rfl
          · refine answered_read (k := .flash) (o := o) (w := w) hw (by simp only [respond_config]; exact hr) ?_ _
              (by simp [laneShift])
            simp only [storeWord]
            have : flashWord (respond n w (withSpi (withAcks s 0 0) c d)).flash
                (flashAddress (respond n w (withSpi (withAcks s 0 0) c d)).config o) = some w := by
              simp only [respond_flash, respond_config]; exact h3
            rw [this]
          · rw [hw]; simp [withSpi, withAcks]
          · have hst : (respond n w (withSpi (withAcks s 0 0) c d)).micro.spi = c := by rw [respond_spi]; rfl
            refine ⟨?_, by rw [hst, h2]; simp, by rw [hst, h2]; simp⟩
            unfold SpiFollows; rw [hst, h2]; exact h2'
        · rw [h1]; rw [hbs] at hw
          refine .stops n r _ hp ⟨_, _, hr⟩ ?_
          rw [hw]
          refine memRead_of_storeWord_error hr ?_
          simp only [storeWord]
          have : flashWord s.flash (flashAddress s.config o) = none := h2
          rw [this]
      · -- ram
        have k1 : requester .ram s = some (n, o) := by rw [hk]; rfl
        have k2 : requester .rom s = none := by rw [hk]; rfl
        have k3 : requester .flash s = none := by rw [hk]; rfl
        by_cases hc : s.micro.ramAck + 1 < ackLatency
        · have e : storesTick s = spiTick (withAcks s (s.micro.ramAck + 1) 0) := by
            simp only [storesTick, ramTick, k1, if_pos hc]
            have : requester .rom ({ s with micro := { s.micro with ramAck := s.micro.ramAck + 1 } } : State) = none := k2
            simp only [romTick, this]; rfl
          obtain ⟨c, d, h1, h2⟩ := spiTick_unrequested (s := withAcks s (s.micro.ramAck + 1) 0) hs k3
          rw [e, h1]
          refine .waits _ (withSpi_kept _ _ _ _ _) rfl rfl rfl h2.1 (fun q1 q2 => absurd ⟨q1, q2⟩ nq)
              (fun _ => ?_)
          rw [ticksToAnswer_ram (s := s) (x := (n, o)) k1]; refine lt_of_eq_of_lt
              (ticksToAnswer_ram (s := withSpi (withAcks s (s.micro.ramAck + 1) 0) c d) (x := (n, o)) k1) ?_
          simp only [ackLatency] at hc
          simp [withSpi, withAcks, show s.micro.ramAck = 0 by omega]
        · have hbs : busOf s n = r := hp.bus
          simp only [storesTick, ramTick, k1, if_neg hc, hbs]
          by_cases hw : r.writeEnable = true
          · simp only [hw, if_true]
            cases hmw : memWrite r.address r.width r.dataIn ({ s with micro := { s.micro with ramAck := 0 } } : State) with
            | error f =>
              refine .stops n r _ hp ⟨_, _, hr⟩ ?_
              rw [if_pos hw]
              by_cases hin : InRam s r.address
              · have := (memWrite_eq_ok (s := ({ s with micro := { s.micro with ramAck := 0 } } : State)) (n := r.width)
                  (v := r.dataIn)).mpr ⟨hin, rfl⟩
                rw [hmw] at this; cases this
              · rw [memWrite_stops (s := ({ s with micro := { s.micro with ramAck := 0 } } : State)) hin] at hmw
                rw [memWrite_stops hin]; exact hmw
            | ok t' =>
              obtain ⟨hin, rfl⟩ := memWrite_eq_ok.mp hmw
              simp only
              generalize hv : respond n r.dataOut _ = v
              have hvb : busOf v n = { r with acknowledge := true, dataOut := r.dataOut } := by
                rw [← hv, respond_bus, ← hp.bus]; cases n <;> rfl
              have hvo : busOf v (otherBus n) = .idle := by rw [← hv, respond_other, ← hp.idle]; cases n <;> rfl
              have hq := busOf_other_idle hvo (by rw [hvb]; exact requests_acknowledged _ _)
              simp only [romTick, requester_none hq.1 hq.2]
              have hvm : v.mem = s.mem.writeBytes r.address.toNat (storeBytes r.width r.dataIn) := by rw [← hv]; simp
              refine after_answer (w := r.dataOut) hp hs k3 ?_ ?_ ?_ ?_ ?_ ?_ ?_
              · rw [← hvb]; cases n <;> rfl
              · rw [← hvo]; cases n <;> rfl
              · subst hv; refine ⟨?_, ?_, ?_, ?_, ?_, ?_⟩ <;> simp [respond_eu]
              · subst hv; simp [respond_spi]
              · subst hv; cases n <;> rfl
              · unfold Answered; rw [if_pos hw]
                refine memWrite_eq_ok.mpr ⟨?_, ?_⟩
                · have : v.config = s.config := by rw [← hv]; simp
                  simpa [InRam, this] using hin
                · simp only [hvm, writeBytes_twice _ _ _ hwf]
              · rw [if_pos hw]
                exact ⟨_, memWrite_eq_ok.mpr ⟨hin, rfl⟩, hvm⟩
          · simp only [hw]
            cases hs0 : storeWord s .ram o with
            | error f =>
              refine .stops n r _ hp ⟨_, _, hr⟩ ?_
              rw [if_neg hw]; exact memRead_of_storeWord_error hr hs0
            | ok w =>
              simp only [Bool.false_eq_true, if_false]
              generalize hv : respond n (shiftedOut r.address (laneShift .ram o) w) _ = v
              have hvb : busOf v n = { r with acknowledge := true, dataOut := shiftedOut r.address (laneShift .ram o) w } := by
                rw [← hv, respond_bus, ← hp.bus]; cases n <;> rfl
              have hvo : busOf v (otherBus n) = .idle := by rw [← hv, respond_other, ← hp.idle]; cases n <;> rfl
              have hq := busOf_other_idle hvo (by rw [hvb]; exact requests_acknowledged _ _)
              simp only [romTick, requester_none hq.1 hq.2]
              refine after_answer (w := shiftedOut r.address (laneShift .ram o) w) hp hs k3 ?_ ?_ ?_ ?_ ?_ ?_ ?_
              · rw [← hvb]; cases n <;> rfl
              · rw [← hvo]; cases n <;> rfl
              · subst hv; refine ⟨?_, ?_, ?_, ?_, ?_, ?_⟩ <;> simp [respond_eu]
              · subst hv; simp [respond_spi]
              · subst hv; cases n <;> rfl
              · refine answered_read (k := .ram) (o := o) (w := w)
                  (by simpa using hw) ?_ ?_ _ (lowBytes_shiftedOut _ _ _ _ hlane)
                · subst hv; simpa using hr
                · rw [← hs0]; subst hv; exact storeWord_congr (by simp) (by simp) (by simp) _ _
              · rw [if_neg hw]; subst hv; simp

theorem stores_outcome_of {s : State} (hi : RunInv s) (h : MicroInv s) : StoresOutcome s (storesTick s) :=
  stores_outcome hi.1 h.1 h.2 (fun _ _ hp => pending_aligned h.1 hp)


/-- A request that a store serves still needs a tick. -/
theorem ticksToAnswer_pos {s : State} {n r k o} (hp : Pending s n r) (hr : route s.config .data r.address = some (k, o))
    (hs : SpiFollows s) : 0 < ticksToAnswer s := by
  have hk : ∀ k', requester k' s = if k = k' then some (n, o) else none := fun k' => by rw [requester_pending hp k', hr]
  cases k
  · rw [ticksToAnswer_rom (x := (n, o)) (by rw [hk]; rfl) (by rw [hk]; rfl)]; split <;> omega
  · rw [ticksToAnswer_flash (x := (n, o)) (by rw [hk]; rfl) (by rw [hk]; rfl) (by rw [hk]; rfl)]
    unfold spiTicksToAnswer
    unfold SpiFollows at hs
    split
    · omega
    · omega
    · omega
    · omega
    · rename_i h1; rw [h1] at hs
      obtain ⟨_, _, k, _, _, _, _, hk31, _, hdev, _⟩ := hs
      rw [hdev]; simp; omega
  · rw [ticksToAnswer_ram (x := (n, o)) (by rw [hk]; rfl)]; split <;> omega

end Sys2Proof.Machine
end

