-- ==== Sys2Proof/Tests/Slice0.lean ====
section
/-! SUPPORT. The model's own tests. Expected values are the spec's: a `V`, `F` or `E` number is a row of
spec/95_test_vectors.md, an `R` number the worked example of that rule. -/

namespace Sys2Proof.Tests

open Sys2Proof.Machine

/-! ## WellFormed: an ill-formed term for each check -/

/-- An odd offset has no word (30_encoding.md R135, R137). -/
theorem test_wellFormed_refuses_odd_offsets :
    (Instr.jal 1 1).wellFormed = false ∧ (Instr.beq 1 2 1).wellFormed = false ∧ (Instr.bne 1 2 0x1FFF).wellFormed = false ∧
    (Instr.blt 1 2 3).wellFormed = false ∧ (Instr.bge 1 2 5).wellFormed = false ∧ (Instr.bltu 1 2 7).wellFormed = false ∧
    (Instr.bgeu 1 2 9).wellFormed = false := by decide

/-- The words of these read forms are ECALL's, EBREAK's and MRET's (30_encoding.md R147). -/
theorem test_wellFormed_refuses_trap_numbers :
    (Instr.csrReadF000 0 0x000 0).wellFormed = false ∧ (Instr.csrReadF000 0 0x001 0).wellFormed = false ∧
    (Instr.csrReadF000 0 0x302 0).wellFormed = false := by decide

theorem test_wellFormed_accepts_the_rest :
    (Instr.beq 1 2 2).wellFormed = true ∧ (Instr.csrReadF000 0 0x105 0).wellFormed = true ∧
    (Instr.csrReadF100 0 0x000 0).wellFormed = true := by decide

/-! ## Decoding, by words written out from the formats of 30_encoding.md R132 and the table of R140 to R147 -/

/-- R194. -/
theorem test_decode_lui : (0x123452B7 : Word) = 0b00010010001101000101_00101_0110111 ∧
    decodeWord 0x123452B7 = .ok (.lui 5 0x12345) := by decide
/-- R195. -/
theorem test_decode_auipc : (0x00001297 : Word) = 0b00000000000000000001_00101_0010111 ∧
    decodeWord 0x00001297 = .ok (.auipc 5 0x00001) := by decide
/-- V34. -/
theorem test_decode_jal : (0xFFDFF06F : Word) = 0b1_1111111110_1_11111111_00000_1101111 ∧
    decodeWord 0xFFDFF06F = .ok (.jal 0 0x1FFFFC) := by decide
/-- R243. -/
theorem test_decode_jalr : (0x004280E7 : Word) = 0b000000000100_00101_000_00001_1100111 ∧
    decodeWord 0x004280E7 = .ok (.jalr 1 5 4) := by decide
/-- R244. -/
theorem test_decode_beq : (0x00208463 : Word) = 0b0_000000_00010_00001_000_0100_0_1100011 ∧
    decodeWord 0x00208463 = .ok (.beq 1 2 8) := by decide
/-- R245. -/
theorem test_decode_bne : (0xFE209CE3 : Word) = 0b1_111111_00010_00001_001_1100_1_1100011 ∧
    decodeWord 0xFE209CE3 = .ok (.bne 1 2 0x1FF8) := by decide
/-- V42. -/
theorem test_decode_blt : (0x0020C463 : Word) = 0b0_000000_00010_00001_100_0100_0_1100011 ∧
    decodeWord 0x0020C463 = .ok (.blt 1 2 8) := by decide
/-- V43. -/
theorem test_decode_bge : (0x0020D463 : Word) = 0b0_000000_00010_00001_101_0100_0_1100011 ∧
    decodeWord 0x0020D463 = .ok (.bge 1 2 8) := by decide
/-- V45. -/
theorem test_decode_bltu : (0x0020E463 : Word) = 0b0_000000_00010_00001_110_0100_0_1100011 ∧
    decodeWord 0x0020E463 = .ok (.bltu 1 2 8) := by decide
/-- V46. -/
theorem test_decode_bgeu : (0x0020F463 : Word) = 0b0_000000_00010_00001_111_0100_0_1100011 ∧
    decodeWord 0x0020F463 = .ok (.bgeu 1 2 8) := by decide
/-- R265. -/
theorem test_decode_lb : (0x00408283 : Word) = 0b000000000100_00001_000_00101_0000011 ∧
    decodeWord 0x00408283 = .ok (.lb 5 1 4) := by decide
/-- R266. -/
theorem test_decode_lh : (0x00509283 : Word) = 0b000000000101_00001_001_00101_0000011 ∧
    decodeWord 0x00509283 = .ok (.lh 5 1 5) := by decide
/-- V58. -/
theorem test_decode_lw : (0xFFC0A283 : Word) = 0b111111111100_00001_010_00101_0000011 ∧
    decodeWord 0xFFC0A283 = .ok (.lw 5 1 0xFFC) := by decide
/-- V51. -/
theorem test_decode_lbu : (0x0030C283 : Word) = 0b000000000011_00001_100_00101_0000011 ∧
    decodeWord 0x0030C283 = .ok (.lbu 5 1 3) := by decide
/-- V53. -/
theorem test_decode_lhu : (0x0020D283 : Word) = 0b000000000010_00001_101_00101_0000011 ∧
    decodeWord 0x0020D283 = .ok (.lhu 5 1 2) := by decide
/-- V61. -/
theorem test_decode_sb : (0x002081A3 : Word) = 0b0000000_00010_00001_000_00011_0100011 ∧
    decodeWord 0x002081A3 = .ok (.sb 1 2 3) := by decide
/-- R271. -/
theorem test_decode_sh : (0x007092A3 : Word) = 0b0000000_00111_00001_001_00101_0100011 ∧
    decodeWord 0x007092A3 = .ok (.sh 1 7 5) := by decide
/-- R272. -/
theorem test_decode_sw : (0x0070A223 : Word) = 0b0000000_00111_00001_010_00100_0100011 ∧
    decodeWord 0x0070A223 = .ok (.sw 1 7 4) := by decide
/-- R196. -/
theorem test_decode_addi : (0xFFF00093 : Word) = 0b111111111111_00000_000_00001_0010011 ∧
    decodeWord 0xFFF00093 = .ok (.addi 1 0 0xFFF) := by decide
/-- V8. -/
theorem test_decode_slti : (0xFFF12093 : Word) = 0b111111111111_00010_010_00001_0010011 ∧
    decodeWord 0xFFF12093 = .ok (.slti 1 2 0xFFF) := by decide
/-- V11. -/
theorem test_decode_sltiu : (0x00113093 : Word) = 0b000000000001_00010_011_00001_0010011 ∧
    decodeWord 0x00113093 = .ok (.sltiu 1 2 1) := by decide
/-- V12. -/
theorem test_decode_xori : (0xFFF14093 : Word) = 0b111111111111_00010_100_00001_0010011 ∧
    decodeWord 0xFFF14093 = .ok (.xori 1 2 0xFFF) := by decide
/-- V13. -/
theorem test_decode_ori : (0x80016093 : Word) = 0b100000000000_00010_110_00001_0010011 ∧
    decodeWord 0x80016093 = .ok (.ori 1 2 0x800) := by decide
/-- V14. -/
theorem test_decode_andi : (0x7FF17093 : Word) = 0b011111111111_00010_111_00001_0010011 ∧
    decodeWord 0x7FF17093 = .ok (.andi 1 2 0x7FF) := by decide
/-- V15. -/
theorem test_decode_slli : (0x01F11093 : Word) = 0b0000000_11111_00010_001_00001_0010011 ∧
    decodeWord 0x01F11093 = .ok (.slli 1 2 31) := by decide
/-- V16. -/
theorem test_decode_srli : (0x01F15093 : Word) = 0b0000000_11111_00010_101_00001_0010011 ∧
    decodeWord 0x01F15093 = .ok (.srli 1 2 31) := by decide
/-- V17. -/
theorem test_decode_srai : (0x41F15093 : Word) = 0b0100000_11111_00010_101_00001_0010011 ∧
    decodeWord 0x41F15093 = .ok (.srai 1 2 31) := by decide
/-- V19. -/
theorem test_decode_add : (0x003100B3 : Word) = 0b0000000_00011_00010_000_00001_0110011 ∧
    decodeWord 0x003100B3 = .ok (.add 1 2 3) := by decide
/-- V20. -/
theorem test_decode_sub : (0x403100B3 : Word) = 0b0100000_00011_00010_000_00001_0110011 ∧
    decodeWord 0x403100B3 = .ok (.sub 1 2 3) := by decide
/-- V22. -/
theorem test_decode_sll : (0x003110B3 : Word) = 0b0000000_00011_00010_001_00001_0110011 ∧
    decodeWord 0x003110B3 = .ok (.sll 1 2 3) := by decide
/-- V24. -/
theorem test_decode_slt : (0x003120B3 : Word) = 0b0000000_00011_00010_010_00001_0110011 ∧
    decodeWord 0x003120B3 = .ok (.slt 1 2 3) := by decide
/-- V25. -/
theorem test_decode_sltu : (0x003130B3 : Word) = 0b0000000_00011_00010_011_00001_0110011 ∧
    decodeWord 0x003130B3 = .ok (.sltu 1 2 3) := by decide
/-- V27. -/
theorem test_decode_xor : (0x003140B3 : Word) = 0b0000000_00011_00010_100_00001_0110011 ∧
    decodeWord 0x003140B3 = .ok (.xor 1 2 3) := by decide
/-- V28. -/
theorem test_decode_srl : (0x003150B3 : Word) = 0b0000000_00011_00010_101_00001_0110011 ∧
    decodeWord 0x003150B3 = .ok (.srl 1 2 3) := by decide
/-- V29. -/
theorem test_decode_sra : (0x403150B3 : Word) = 0b0100000_00011_00010_101_00001_0110011 ∧
    decodeWord 0x403150B3 = .ok (.sra 1 2 3) := by decide
/-- V30. -/
theorem test_decode_or : (0x003160B3 : Word) = 0b0000000_00011_00010_110_00001_0110011 ∧
    decodeWord 0x003160B3 = .ok (.or 1 2 3) := by decide
/-- V31. -/
theorem test_decode_and : (0x003170B3 : Word) = 0b0000000_00011_00010_111_00001_0110011 ∧
    decodeWord 0x003170B3 = .ok (.and 1 2 3) := by decide
/-- R273. -/
theorem test_decode_fence : (0x0FF0000F : Word) = 0b0000_1111_1111_00000_000_00000_0001111 ∧
    decodeWord 0x0FF0000F = .ok (.fence 0 15 15 0 0) := by decide
/-- R304. -/
theorem test_decode_ecall : (0x00000073 : Word) = 0b000000000000_00000_000_00000_1110011 ∧
    decodeWord 0x00000073 = .ok (.ecall 0 0) := by decide
/-- R305. -/
theorem test_decode_ebreak : (0x00100073 : Word) = 0b000000000001_00000_000_00000_1110011 ∧
    decodeWord 0x00100073 = .ok (.ebreak 0 0) := by decide
/-- R306. -/
theorem test_decode_mret : (0x30200073 : Word) = 0b001100000010_00000_000_00000_1110011 ∧
    decodeWord 0x30200073 = .ok (.mret 0 0) := by decide
/-- V72. -/
theorem test_decode_csrrw : (0x305312F3 : Word) = 0b001100000101_00110_001_00101_1110011 ∧
    decodeWord 0x305312F3 = .ok (.csrrw 5 0x305 6) := by decide
/-- R298. -/
theorem test_decode_csrrs : (0x300322F3 : Word) = 0b001100000000_00110_010_00101_1110011 ∧
    decodeWord 0x300322F3 = .ok (.csrrs 5 0x300 6) := by decide
/-- V75. -/
theorem test_decode_csrrc : (0x300332F3 : Word) = 0b001100000000_00110_011_00101_1110011 ∧
    decodeWord 0x300332F3 = .ok (.csrrc 5 0x300 6) := by decide
/-- V77. -/
theorem test_decode_csrrwi : (0x342FD2F3 : Word) = 0b001101000010_11111_101_00101_1110011 ∧
    decodeWord 0x342FD2F3 = .ok (.csrrwi 5 0x342 31) := by decide
/-- V79. -/
theorem test_decode_csrrsi : (0x3432E2F3 : Word) = 0b001101000011_00101_110_00101_1110011 ∧
    decodeWord 0x3432E2F3 = .ok (.csrrsi 5 0x343 5) := by decide
/-- V80. -/
theorem test_decode_csrrci : (0x3050F2F3 : Word) = 0b001100000101_00001_111_00101_1110011 ∧
    decodeWord 0x3050F2F3 = .ok (.csrrci 5 0x305 1) := by decide
/-- V91. -/
theorem test_decode_csrReadF000 : (0x10500073 : Word) = 0b000100000101_00000_000_00000_1110011 ∧
    decodeWord 0x10500073 = .ok (.csrReadF000 0 0x105 0) := by decide
/-- V90. -/
theorem test_decode_csrReadF100 : (0x300042F3 : Word) = 0b001100000000_00000_100_00101_1110011 ∧
    decodeWord 0x300042F3 = .ok (.csrReadF100 5 0x300 0) := by decide

/-- Fewer than four bytes spell nothing, and what follows four is handed back. -/
theorem test_decode_bytes :
    decodeBytes [0x13, 0x00, 0x00] = .error .truncated ∧ decodeBytes [0x13, 0x00, 0x00, 0x00, 0x6F] = .ok
        (.addi 0 0 0, [0x6F]) ∧
    decodeTableWord 32 0x00000013 = some (.addi 0 0 0) ∧ decodeTableWord 32 0 = none := by decide

/-- The source's own program (R154), a store with a negative offset (V58's form), and 10_state.md R32. -/
theorem test_assembler_text :
    asmText (.addi 1 0 29) = "addi x1, x0, 29" ∧ asmText (.add 3 1 2) = "add x3, x1, x2" ∧
    asmText (.lw 5 1 0xFFC) = "lw x5, -4(x1)" ∧ asmText (.fence 0 15 15 0 0) = "fence iorw, iorw" ∧
    abiName 8 = "s0" ∧ abiName 17 = "a7" ∧ abiName 31 = "t6" := by decide

/-- The constants of programs P0 and P6, and the two short forms of `li` (R155). -/
theorem test_pseudo_instructions :
    Pseudo.expand (.li 2 0x0F0A0B0C) = [.lui 2 0x0F0A1, .addi 2 2 0xB0C] ∧
    Pseudo.expand (.li 2 0x02A00513) = [.lui 2 0x02A00, .addi 2 2 0x513] ∧
    Pseudo.expand (.li 1 0xFFFFF800) = [.addi 1 0 0x800] ∧ Pseudo.expand (.li 1 0x20000000) = [.lui 1 0x20000] := by decide

/-! ## Small states and what a step shows of them -/

/-- The reset state with the given pc and registers, and the word where the step fetches. -/
def start (pc : Word) (regs : List (RegIdx × Word)) (w : Word) : State :=
  (regs.foldl (fun s p => setReg s p.1 p.2) { State.reset with pc := pc }).withFetchWord 32 w.toNat

/-- A CSR's writable fields set from a value. -/
def withCsr (n : CsrName) (v : Word) (s : State) : State := { s with csr := csrStore s.csr v n }

/-- A word placed in memory. -/
def withRam (a v : Word) (s : State) : State := { s with mem := s.mem.writeBytes a.toNat (wordBytes v) }

/-- What the next state shows, if the step answers one. -/
def shows {α : Type} (f : State → α) (s : State) : Option α :=
  match step s with
  | .next t => some (f t)
  | _ => none

/-- A register and the pc after one step. -/
def seen (s : State) (r : RegIdx) : Option (Word × Word) := shows (fun t => (getReg t r, t.pc)) s

/-- A RAM word and the pc after one step. -/
def seenRam (s : State) (a : Word) : Option (Option Word × Word) := shows (fun t => (ramWordAt t a, t.pc)) s

/-- A register, a CSR and the pc after one step. -/
def seenCsr (s : State) (r : RegIdx) (n : CsrName) : Option (Word × Word × Word) :=
  shows (fun t => (getReg t r, csrValue t.csr n, t.pc)) s

/-- mcause, mepc, mstatus and the pc after one step. -/
def seenTrap (s : State) : Option (Word × Word × Word × Word) :=
  shows (fun t => (csrValue t.csr .mcause, csrValue t.csr .mepc, csrValue t.csr .mstatus, t.pc)) s

/-- The pc and mie after one step. -/
def seenPcAndMie (s : State) : Option (Word × BitVec 1) := shows (fun t => (t.pc, t.csr.mstatus.mie)) s

/-! ## One step of each instruction -/

/-- V1. -/
theorem test_step_lui :
    seen (start 0x00000000 [] 0x800000B7) 1 = some (0x80000000, 0x00000004) := by decide
/-- V2. -/
theorem test_step_lui_x0 :
    seen (start 0x00000000 [] 0x12345037) 0 = some (0x00000000, 0x00000004) := by decide
/-- V3. -/
theorem test_step_auipc :
    seen (start 0x00000010 [] 0xFFFFF117) 2 = some (0xFFFFF010, 0x00000014) := by decide
/-- V4. -/
theorem test_step_auipc_ram :
    seen (start 0x20000004 [] 0x00001117) 2 = some (0x20001004, 0x20000008) := by decide
/-- V5. -/
theorem test_step_addi :
    seen (start 0x00000000 [] 0xFFF10093) 1 = some (0xFFFFFFFF, 0x00000004) := by decide
/-- V6. -/
theorem test_step_addi_wraps :
    seen (start 0x00000000 [(2, 0x7FFFFFFF)] 0x00110093) 1 = some (0x80000000, 0x00000004) := by decide
/-- V8. -/
theorem test_step_slti :
    seen (start 0x00000000 [(2, 0x80000000)] 0xFFF12093) 1 = some (0x00000001, 0x00000004) := by decide
/-- V10. -/
theorem test_step_sltiu :
    seen (start 0x00000000 [(2, 0xFFFFFFFE)] 0xFFF13093) 1 = some (0x00000001, 0x00000004) := by decide
/-- V12. -/
theorem test_step_xori :
    seen (start 0x00000000 [(2, 0x0F0F0F0F)] 0xFFF14093) 1 = some (0xF0F0F0F0, 0x00000004) := by decide
/-- V13. -/
theorem test_step_ori :
    seen (start 0x00000000 [(2, 0x00000001)] 0x80016093) 1 = some (0xFFFFF801, 0x00000004) := by decide
/-- V14. -/
theorem test_step_andi :
    seen (start 0x00000000 [(2, 0xFFFFFFFF)] 0x7FF17093) 1 = some (0x000007FF, 0x00000004) := by decide
set_option maxRecDepth 4000 in
/-- V15. -/
theorem test_step_slli :
    seen (start 0x00000000 [(2, 0x00000003)] 0x01F11093) 1 = some (0x80000000, 0x00000004) := by decide
/-- V16. -/
theorem test_step_srli :
    seen (start 0x00000000 [(2, 0x80000000)] 0x01F15093) 1 = some (0x00000001, 0x00000004) := by decide
/-- V17. -/
theorem test_step_srai :
    seen (start 0x00000000 [(2, 0x80000000)] 0x41F15093) 1 = some (0xFFFFFFFF, 0x00000004) := by decide
/-- V19. -/
theorem test_step_add :
    seen (start 0x00000000 [(2, 0xFFFFFFFF), (3, 0x00000001)] 0x003100B3) 1 = some (0x00000000, 0x00000004) := by decide
/-- V32. -/
theorem test_step_add_same_register :
    seen (start 0x00000000 [(2, 0x40000000)] 0x00210133) 2 = some (0x80000000, 0x00000004) := by decide
/-- V21. -/
theorem test_step_sub :
    seen (start 0x00000000 [(2, 0x80000000), (3, 0x00000001)] 0x403100B3) 1 = some (0x7FFFFFFF, 0x00000004) := by decide
set_option maxRecDepth 4000 in
/-- V22. -/
theorem test_step_sll :
    seen (start 0x00000000 [(2, 0x00000001), (3, 0x00000021)] 0x003110B3) 1 = some (0x00000002, 0x00000004) := by decide
set_option maxRecDepth 4000 in
/-- V23. -/
theorem test_step_sll_by_reversal :
    seen (start 0x00000000 [(2, 0x80000001), (3, 0xFFFFFFFF)] 0x003110B3) 1 = some (0x80000000, 0x00000004) := by decide
/-- V24. -/
theorem test_step_slt :
    seen (start 0x00000000 [(2, 0xFFFFFFFF), (3, 0x00000000)] 0x003120B3) 1 = some (0x00000001, 0x00000004) := by decide
/-- V25. -/
theorem test_step_sltu :
    seen (start 0x00000000 [(2, 0xFFFFFFFF), (3, 0x00000000)] 0x003130B3) 1 = some (0x00000000, 0x00000004) := by decide
/-- V27. -/
theorem test_step_xor :
    seen (start 0x00000000 [(2, 0xAAAAAAAA), (3, 0xFFFFFFFF)] 0x003140B3) 1 = some (0x55555555, 0x00000004) := by decide
/-- V28. -/
theorem test_step_srl :
    seen (start 0x00000000 [(2, 0x80000000), (3, 0x0000003F)] 0x003150B3) 1 = some (0x00000001, 0x00000004) := by decide
/-- V29. -/
theorem test_step_sra :
    seen (start 0x00000000 [(2, 0x80000000), (3, 0x00000024)] 0x403150B3) 1 = some (0xF8000000, 0x00000004) := by decide
/-- V30. -/
theorem test_step_or :
    seen (start 0x00000000 [(2, 0xF0000000), (3, 0x0000000F)] 0x003160B3) 1 = some (0xF000000F, 0x00000004) := by decide
/-- V31. -/
theorem test_step_and :
    seen (start 0x00000000 [(2, 0xF0F0F0F0), (3, 0xFF00FF00)] 0x003170B3) 1 = some (0xF000F000, 0x00000004) := by decide
/-- V33. -/
theorem test_step_jal :
    seen (start 0x00000100 [] 0x008000EF) 1 = some (0x00000104, 0x00000108) := by decide
/-- V34. -/
theorem test_step_jal_backward :
    seen (start 0x00000100 [] 0xFFDFF06F) 0 = some (0x00000000, 0x000000FC) := by decide
/-- V37. -/
theorem test_step_jalr_same_register :
    seen (start 0x00000100 [(2, 0x00000200)] 0x00010167) 2 = some (0x00000104, 0x00000200) := by decide
/-- V38. -/
theorem test_step_jalr_keeps_bit_0 :
    seen (start 0x00000100 [(2, 0x00000200)] 0x001100E7) 1 = some (0x00000104, 0x00000201) := by decide
/-- V39. -/
theorem test_step_beq_taken :
    seen (start 0x00000100 [(1, 0x00000005), (2, 0x00000005)] 0x00208863) 1 = some (0x00000005, 0x00000110) := by decide
/-- V40. -/
theorem test_step_beq_not_taken :
    seen (start 0x00000100 [(1, 0x00000005), (2, 0x00000006)] 0x00208863) 1 = some (0x00000005, 0x00000104) := by decide
/-- V41. -/
theorem test_step_bne_backward :
    seen (start 0x00000100 [(1, 0x00000005), (2, 0x00000006)] 0xFE209CE3) 1 = some (0x00000005, 0x000000F8) := by decide
/-- V48. -/
theorem test_step_bne_not_taken :
    seen (start 0x00000100 [] 0x00001163) 0 = some (0x00000000, 0x00000104) := by decide
/-- V42. -/
theorem test_step_blt :
    seen (start 0x00000100 [(1, 0xFFFFFFFF)] 0x0020C463) 2 = some (0x00000000, 0x00000108) := by decide
/-- V43. -/
theorem test_step_bge :
    seen (start 0x00000100 [(1, 0xFFFFFFFF)] 0x0020D463) 2 = some (0x00000000, 0x00000104) := by decide
/-- V44. -/
theorem test_step_bge_equal :
    seen (start 0x00000100 [(1, 0x00000007), (2, 0x00000007)] 0x0020D463) 2 = some (0x00000007, 0x00000108) := by decide
/-- V45. -/
theorem test_step_bltu :
    seen (start 0x00000100 [(1, 0xFFFFFFFF)] 0x0020E463) 2 = some (0x00000000, 0x00000104) := by decide
/-- V46. -/
theorem test_step_bgeu :
    seen (start 0x00000100 [(1, 0xFFFFFFFF)] 0x0020F463) 2 = some (0x00000000, 0x00000108) := by decide
/-- V50. -/
theorem test_step_lb :
    seen (withRam 0x20000000 0x8899AABB (start 0 [(1, 0x20000000)] 0x00308283)) 5 = some (0xFFFFFF88, 4) := by decide
/-- V51. -/
theorem test_step_lbu :
    seen (withRam 0x20000000 0x8899AABB (start 0 [(1, 0x20000000)] 0x0030C283)) 5 = some (0x00000088, 4) := by decide
/-- V54. -/
theorem test_step_lh_inside_word :
    seen (withRam 0x20000000 0x8899AABB (start 0 [(1, 0x20000000)] 0x00109283)) 5 = some (0xFFFF99AA, 4) := by decide
/-- V53. -/
theorem test_step_lhu :
    seen (withRam 0x20000000 0x8899AABB (start 0 [(1, 0x20000000)] 0x0020D283)) 5 = some (0x00008899, 4) := by decide
/-- V58. -/
theorem test_step_lw :
    seen (withRam 0x20000000 0x8899AABB (start 0 [(1, 0x20000004)] 0xFFC0A283)) 5 = some (0x8899AABB, 4) := by decide
/-- V61. -/
theorem test_step_sb :
    seenRam (withRam 0x20000000 0x8899AABB (start 0 [(1, 0x20000000), (2, 0x123456EF)] 0x002081A3)) 0x20000000
      = some (some 0xEF99AABB, 4) := by decide
/-- V62. -/
theorem test_step_sh_inside_word :
    seenRam (withRam 0x20000000 0x8899AABB (start 0 [(1, 0x20000000), (2, 0x1234CAFE)] 0x002090A3)) 0x20000000
      = some (some 0x88CAFEBB, 4) := by decide
/-- V65. -/
theorem test_step_sw :
    seenRam (withRam 0x20000000 0x8899AABB (start 0 [(1, 0x20000000), (2, 0xDEADBEEF)] 0x0020A023)) 0x20000000
      = some (some 0xDEADBEEF, 4) := by decide
/-- V55. -/
theorem test_step_lh_misaligned :
    seenTrap (withCsr .mtvec 0x00000200 (withCsr .mstatus 0x00000008 (start 0x00000010 [(1, 0x20000000)] 0x00309283)))
      = some (0x00000004, 0x00000010, 0, 0x00000200) := by decide
/-- V57. -/
theorem test_step_lw_misaligned :
    seenTrap (withCsr .mtvec 0x00000200 (withCsr .mstatus 0x00000000 (start 0x00000010 [(1, 0x20000000)] 0x0020A283)))
      = some (0x00000004, 0x00000010, 0, 0x00000200) := by decide
/-- V64. -/
theorem test_step_sh_misaligned :
    seenTrap (withCsr .mtvec 0x00000200
        (withCsr .mstatus 0x00000000 (start 0x00000010 [(1, 0x20000000), (2, 0x1234CAFE)] 0x002091A3)))
      = some (0x00000006, 0x00000010, 0, 0x00000200) := by decide
/-- V66. -/
theorem test_step_sw_misaligned_vectored :
    seenTrap (withCsr .mtvec 0x00000201
        (withCsr .mstatus 0x00000000 (start 0x00000010 [(1, 0x20000000), (2, 0xDEADBEEF)] 0x0020A0A3)))
      = some (0x00000006, 0x00000010, 0, 0x00000218) := by decide
/-- V86. -/
theorem test_step_ecall :
    seenTrap (withCsr .mtvec 0x00000100 (withCsr .mstatus 0x00000008 (start 0x00000040 [] 0x00000073)))
      = some (0x0000000B, 0x00000040, 0, 0x00000100) := by decide
/-- V87. -/
theorem test_step_ebreak_vectored :
    seenTrap (withCsr .mtvec 0x00000101 (withCsr .mstatus 0x00000000 (start 0x00000040 [] 0x00100073)))
      = some (0x00000003, 0x00000040, 0, 0x0000010C) := by decide
/-- V71. -/
theorem test_step_fence :
    seen (start 0 [] 0x0FF0000F) 0 = some (0, 4) := by decide
/-- V72. -/
theorem test_step_csrrw :
    seenCsr (start 0 [(6, 0xFFFFFFFF)] 0x305312F3) 5 .mtvec = some (0x00000000, 0xFFFFFFFD, 4) := by decide
/-- V84. -/
theorem test_step_csrrw_same_register :
    seenCsr (start 0 [(6, 0x00000100)] 0x34131373) 6 .mepc = some (0x00000000, 0x00000100, 4) := by decide
/-- V74. -/
theorem test_step_csrrs :
    seenCsr (start 0 [(6, 0xFFFFFFFF)] 0x300322F3) 5 .mstatus = some (0x00000000, 0x00000008, 4) := by decide
/-- V85. -/
theorem test_step_csrrs_minstret_wraps :
    seenCsr (withCsr .minstret 0x0000FFFF (start 0 [] 0xB02022F3)) 5 .minstret = some (0x00000000, 0x00000000, 4) := by decide
/-- V75. -/
theorem test_step_csrrc :
    seenCsr (withCsr .mstatus 0x00000008 (start 0 [(6, 0x00000008)] 0x300332F3)) 5 .mstatus
      = some (0x00000008, 0x00000000, 4) := by decide
/-- V76. -/
theorem test_step_csrrc_nothing :
    seenCsr (withCsr .mepc 0x00000100 (start 0 [] 0x341032F3)) 5 .mepc = some (0x00000100, 0x00000100, 4) := by decide
/-- V77. -/
theorem test_step_csrrwi :
    seenCsr (withCsr .mcause 0x0000000B (start 0 [] 0x342FD2F3)) 5 .mcause = some (0x0000000B, 0x0000001F, 4) := by decide
/-- V79. -/
theorem test_step_csrrsi :
    seenCsr (withCsr .mtval 0x00000050 (start 0 [] 0x3432E2F3)) 5 .mtval = some (0x00000050, 0x00000055, 4) := by decide
/-- V80. -/
theorem test_step_csrrci :
    seenCsr (withCsr .mtvec 0x00000101 (start 0 [] 0x3050F2F3)) 5 .mtvec = some (0x00000101, 0x00000100, 4) := by decide
/-- V90. -/
theorem test_step_csrReadF100 :
    seenCsr (withCsr .mstatus 0x00000008 (start 0 [] 0x300042F3)) 5 .mstatus = some (0x00000008, 0x00000008, 4) := by decide
/-- V91. -/
theorem test_step_csrReadF000 :
    seenCsr (start 0 [] 0x10500073) 0 .mtvec = some (0x00000000, 0x00000000, 4) := by decide
/-- V88. -/
theorem test_step_mret :
    seenPcAndMie (withCsr .mepc 0x00000124 (start 0 [] 0x30200073)) = some (0x00000124, 1) := by decide

/-! ## Fetches and stops -/

/-- F2: a misaligned fetch, vectored. -/
theorem test_fetch_misaligned :
    seenTrap (withCsr .mtvec 0x00000081 (withCsr .mstatus 0x00000008 { State.reset with pc := 1 }))
      = some (1, 0, 0, 0x00000084) := by decide
/-- F3: a fetch from RAM. -/
theorem test_fetch_ram : seen (start 0x20000000 [] 0x00100093) 1 = some (1, 0x20000004) := by decide
/-- F4. -/
theorem test_fetch_unmapped : step { State.reset with pc := 0x40000000 } = .fault .hangNoResponder := rfl
/-- F5. -/
theorem test_fetch_past_rom : step { State.reset with mem := [(0, 0x13)], pc := 0x10 } = .fault .romOutOfRange := rfl
/-- F6. -/
theorem test_fetch_past_ram : step { State.reset with pc := 0x3FFFFFFC } = .fault .ramOutOfRange := rfl
/-- F7. -/
theorem test_fetch_unenumerated :
    step (start 0 [] 0x00000000) = .refused (.unenumerated .opcode) ∧
    step (start 0 [] 0x02208033) = .refused (.unenumerated .funct7) := ⟨rfl, rfl⟩
/-- V67. -/
theorem test_store_boot : step (start 0 [(2, 0xDEADBEEF)] 0x0020A023) = .fault .storeToBootStore := rfl
/-- V68. -/
theorem test_load_unmapped : step (start 0 [(1, 0x40000000)] 0x0000A103) = .fault .hangNoResponder := rfl
/-- V69. -/
theorem test_load_past_ram : step (start 0 [(1, 0x20001000)] 0x0000A103) = .fault .ramOutOfRange := rfl
/-- V70. -/
theorem test_store_past_ram : step (start 0 [(1, 0x3FFFFFFC)] 0x0020A023) = .fault .ramOutOfRange := rfl

/-- E6 and E7: the command words. -/
theorem test_read_commands :
    readCommand Config.default 4 = 0x03000004 ∧ readCommand { Config.default with flashBase := 0x100000 } 4 = 0x03100004 ∧
    readCommand Config.default 0x01FFFFFC = 0x03FFFFFC ∧
    readCommand { Config.default with flashBase := 0xFFFFFC } 8 = 0x03000004 ∧
    SpiController.reset.resetTick.shift = 0xAB000000 := by decide

/-- "falling edge = write, rising edge = sample" (20_memory.md R90), on a register whose next bit differs from the one on the line. -/
theorem test_spi_edges :
    (let c := { SpiController.served 0 with state := .tx, shift := 0x80000000, countdown := 24, mosi := true, cs := true }
     c.sendEdge.mosi = true ∧ c.sendEdge.sendEdge.mosi = false ∧
     FlashDevice.idle.edge c = { command := 1, bits := 1 } ∧ FlashDevice.idle.edge c.sendEdge = .idle ∧
     (c.receiveEdge true).data = 0x01000000 ∧ ((c.receiveEdge true).receiveEdge false).data = 0x01000000) := by decide

/-- "The serial clock toggles every tick" (90_conflicts.md C10), one bit a tick (20_memory.md R94), and the countdown "wraps by +15 after
every completed byte", the fourth too (R95). -/
theorem test_spi_one_edge_a_tick :
    (let c := { SpiController.served 0 with state := .rx, shift := 0x40000000, countdown := 24, cs := true }
     (c.sendTick .edgePerTick).clk = true ∧ ((c.sendTick .edgePerTick).sendTick .edgePerTick).clk = false ∧
     (c.sendTick .edgePerTick).mosi = true ∧ (c.rxTick .edgePerTick true).countdown = 39 ∧
     (c.rxTick .edgePerTick true).state = .waiting ∧ (c.rxTick .edgePerTick true).data = 0x01000000) := by decide

/-! ## Every statement's hypotheses can be met: the states -/

/-- Whether an outcome is a next state. -/
def goesOn (r : Result) : Bool :=
  match r with
  | .next _ => true
  | _ => false

/-- The next state of an outcome. -/
def answer (r : Result) : State :=
  match r with
  | .next t => t
  | _ => .reset

theorem eq_next_answer {r : Result} (h : goesOn r = true) : r = .next (answer r) := by
  cases r <;> simp_all [goesOn, answer]

/-- The bytes of `addi x1, x0, 1` at address 0 of a boot store. -/
def addiImage : Memory := [(0, 0x93), (1, 0x00), (2, 0x10), (3, 0x00)]

/-- A ROM-backed machine with that image. -/
def romMachine : State := { State.reset with mem := addiImage }

/-- A flash-backed machine with that image, its controller waiting. -/
def flashMachine : State :=
  { State.reset with
    flash := addiImage
    config := { Config.default with bootStore := .flash }
    micro := { Micro.reset with spi := .served 0 } }

/-- A machine with the ExecutionUnit in a state, a word latched and a request on a bus. -/
def underWay (n : BusName) (b : Bus) (e : EuState) (ir : Word) (s : State) : State :=
  setBus n b { s with micro := { s.micro with eu := { s.micro.eu with state := e, ir := ir } } }

/-- `sw x2, 0(x1)` under way at the address in x1. -/
def storing (a : Word) : State :=
  underWay .data (writeRequest .word a 0) .memWait 0x0020A023 (setReg State.reset 1 a)

/-- `lw x2, 0(x1)` under way at the address in x1. -/
def loading (a : Word) : State :=
  underWay .data (readRequest .word a) .memWait 0x0000A103 (setReg State.reset 1 a)

/-- A fetch under way. -/
def fetching (a : Word) (s : State) : State :=
  underWay .instruction (readRequest .word a) .fetchWait 0 { s with pc := a }

/-- A latched word about to be decoded. -/
def decoding (ir : Word) : State := underWay .data .idle .decodeExecute ir State.reset

/-- `flashMachine` with the first bit of a read command on the wire. -/
def sending : State :=
  let s := fetching 0 flashMachine
  { s with
    micro := { s.micro with
      spi := { state := .tx, shift := 0x03000000, countdown := 31, data := 0, cs := true, clk := false, mosi := false } } }

/-- `flashMachine` with the whole command sent and no bit received. -/
def receiving : State :=
  let s := fetching 0 flashMachine
  { s with
    micro := { s.micro with
      spi := { state := .rx, shift := 0, countdown := 7, data := 0, cs := true, clk := false, mosi := false }
      flashDev := { command := 0x03000000, bits := 32 } } }

/-- The reset machine with one register set. -/
def withReg (r : RegIdx) (v : Word) : State := setReg State.reset r v

/-! ## The invariants on them -/

theorem runInv_reset : RunInv State.reset := by unfold RunInv; decide
theorem runInv_rom : RunInv romMachine := by unfold RunInv; decide
theorem runInv_flash : RunInv flashMachine := by unfold RunInv; decide

theorem runInv_of {s t : State} (h : RunInv s) (hr : t.regs[0] = 0) (hm : t.mem = s.mem) (hf : t.flash = s.flash) : RunInv t := by
  unfold RunInv at *; rw [hm, hf]; exact ⟨h.1, h.2.1, h.2.2.1, h.2.2.2.1, hr⟩

theorem runInv_withReg (r : RegIdx) (v : Word) (h : (withReg r v).regs[0] = 0) : RunInv (withReg r v) :=
  runInv_of runInv_reset h (by simp [withReg]) (by simp [withReg])

theorem microInv_reset : MicroInv State.reset := And.intro (And.intro rfl rfl) trivial
theorem microInv_flash : MicroInv flashMachine := And.intro (And.intro rfl rfl) ⟨rfl, rfl⟩
theorem microInv_lostFetch : MicroInv (fetching 0x40000000 State.reset) :=
  And.intro (And.intro rfl (Or.inr (And.intro rfl (Or.inl rfl)))) trivial
theorem microInv_flashFetch : MicroInv (fetching 0 flashMachine) :=
  And.intro (And.intro rfl (Or.inr (And.intro rfl (Or.inl rfl)))) ⟨rfl, rfl⟩
theorem microInv_loading {a : Word} (ha : aligned a .word = true)
    (hd : decodeWord 0x0000A103 = .ok (.lw 2 1 0))
    (hm : memAccess (.lw 2 1 0) (loading a) = some (.load .word true 2 a)) : MicroInv (loading a) :=
  And.intro (And.intro rfl ⟨_, _, hd, hm, Or.inr (And.intro ha (Or.inl rfl))⟩) trivial
theorem microInv_storing {a : Word} (ha : aligned a .word = true)
    (hd : decodeWord 0x0020A023 = .ok (.sw 1 2 0))
    (hm : memAccess (.sw 1 2 0) (storing a) = some (.store .word a 0)) : MicroInv (storing a) :=
  And.intro (And.intro rfl ⟨_, _, hd, hm, Or.inr (And.intro ha (Or.inl rfl))⟩) trivial
theorem microInv_decoding (ir : Word) : MicroInv (decoding ir) := And.intro (And.intro rfl rfl) trivial
theorem microInv_sending : MicroInv sending :=
  And.intro (And.intro rfl (Or.inr (And.intro rfl (Or.inl rfl))))
    ⟨.instruction, 0, 0, rfl, by decide, rfl, rfl, by decide, rfl, by decide, rfl, by decide⟩
theorem microInv_receiving : MicroInv receiving :=
  And.intro (And.intro rfl (Or.inr (And.intro rfl (Or.inl rfl))))
    ⟨.instruction, 0, 0, rfl, by decide, rfl, rfl, by decide, rfl, by decide, fun _ h => nomatch h⟩

/-! ## The witnesses: one per statement with hypotheses, one conjunct per clause, at its boundary values -/

theorem test_met_DecodeOfEncode :
    (Instr.jal 31 0x1FFFFE).wellFormed = true ∧ (Instr.bgeu 31 31 0x1FFE).wellFormed = true ∧
    (Instr.csrReadF000 31 0xFFF 31).wellFormed = true ∧ (Instr.lui 31 0xFFFFF).wellFormed = true := by decide

theorem test_met_EncodeOfDecode :
    decodeWord 0xFFFFF073 = .ok (.csrrci 0 0xFFF 31) ∧ decodeWord 0xFFFFFFEF = .ok (.jal 31 0x1FFFFE) := by decide

theorem test_met_OnlyReadFormRowOverlaps :
    ∃ r ∈ opcodeTable, ∃ r' ∈ opcodeTable, r.covers 0x00100073 = true ∧ r'.covers 0x00100073 = true ∧ r ≠ r' :=
  ⟨⟨"ebreak", 0xFFF0707F, 0x00100073⟩, by decide, ⟨"csr_read_f000", 0x0000707F, 0x00000073⟩, by decide, by decide⟩

/-- F7 and the lists of 30_encoding.md R151. -/
theorem test_refused_words :
    decodeWord 0x00000000 = .error .opcode ∧ decodeWord 0xFFFFFFFF = .error .opcode ∧
    decodeWord 0x00001067 = .error .funct3 ∧ decodeWord 0x00002063 = .error .funct3 ∧ decodeWord 0x00003063 = .error .funct3 ∧
    decodeWord 0x00003003 = .error .funct3 ∧ decodeWord 0x00007003 = .error .funct3 ∧ decodeWord 0x00003023 = .error .funct3 ∧
    decodeWord 0x0000100F = .error .funct3 ∧ decodeWord 0x02208033 = .error .funct7 ∧ decodeWord 0x40001033 = .error .funct7 ∧
    decodeWord 0x40001013 = .error .shamt ∧ decodeWord 0x02005013 = .error .shamt := by decide

theorem test_met_AluFunctionCode :
    (decodeWord 0x403100B3 = .ok (.sub 1 2 3) ∧ opcodeOf 0x403100B3 = 0b0110011 ∧
      aluOpOf (funct3Of 0x403100B3) ((0x403100B3 : Word).extractLsb' 30 1) = some .sub) ∧
    (decodeWord 0x41F15093 = .ok (.srai 1 2 31) ∧ opcodeOf 0x41F15093 = 0b0010011 ∧ funct3Of 0x41F15093 = 0b101 ∧
      aluOpOf (funct3Of 0x41F15093) ((0x41F15093 : Word).extractLsb' 30 1) = some .sra) ∧
    (decodeWord 0xFFF10093 = .ok (.addi 1 2 0xFFF) ∧ opcodeOf 0xFFF10093 = 0b0010011 ∧ funct3Of 0xFFF10093 ≠ 0b101 ∧
      aluOpOf (funct3Of 0xFFF10093) 0 = some .add) := by decide

theorem test_met_AssertedReset : RunInv flashMachine := runInv_flash

/-- The two regions and the flash address filled to their last word and byte. -/
theorem test_met_ConstructedStores :
    4 * (List.replicate (2 ^ 27) (0 : Word)).length ≤ ramBase ∧ 4 * (2 ^ 27) ≤ ramBase ∧
    (List.replicate (2 ^ 24) (0 : Byte)).length ≤ 2 ^ 24 := by
  simp only [List.length_replicate]; decide

/-- From the ROM, from the last word of the RAM and from the flash. -/
theorem test_met_StepRunsDecodedInstruction :
    (romMachine.micro.eu.state = .fetch ∧ Answers romMachine romMachine.pc ∧ byteSeen romMachine 0 = some 0x93 ∧
      byteSeen romMachine 1 = some 0x00 ∧ byteSeen romMachine 2 = some 0x10 ∧ byteSeen romMachine 3 = some 0x00 ∧
      decodeBytes [0x93, 0x00, 0x10, 0x00] = .ok (.addi 1 0 1, [])) ∧
    (Answers (start 0x20000FFC [] 0x00100093) 0x20000FFC ∧ byteSeen (start 0x20000FFC [] 0x00100093) 0x20000FFC = some 0x93 ∧
      byteSeen (start 0x20000FFC [] 0x00100093) 0x20000FFE = some 0x10) ∧
    (Answers flashMachine flashMachine.pc ∧ byteSeen flashMachine 0 = some 0x93 ∧ byteSeen flashMachine 2 = some 0x10) :=
  ⟨⟨rfl, ⟨.rom, 0, 0x00100093, by decide⟩, by decide⟩, ⟨⟨.ram, 0xFFC, 0x00100093, by decide⟩, by decide⟩,
    ⟨.flash, 0, 0x00100093, by decide⟩, by decide⟩

theorem test_met_PlacedWordRuns :
    (RunInv State.reset ∧ route State.reset.config .instruction State.reset.pc = some (.rom, 0)) ∧
    (RunInv { State.reset with pc := 0x20000FFC } ∧ (0x20000FFC : Word).toNat % 4 = 0 ∧
      route State.reset.config .instruction 0x20000FFC = some (.ram, 0xFFC) ∧ 0xFFC / 4 < State.reset.config.ramWords) ∧
    (RunInv flashMachine ∧ route flashMachine.config .instruction flashMachine.pc = some (.flash, 0)) ∧
    decodeWord 0x30200073 = .ok (.mret 0 0) :=
  ⟨⟨runInv_reset, by decide⟩, ⟨runInv_of runInv_reset rfl rfl rfl, by decide⟩, ⟨runInv_flash, by decide⟩, by decide⟩

theorem test_met_MisalignedFetchTraps :
    ∀ k : Nat, k ∈ [1, 2, 3] → (start (BitVec.ofNat 32 k) [] 0).micro.eu.state = .fetch ∧
      (start (BitVec.ofNat 32 k) [] 0).pc.toNat % 4 ≠ 0 := by decide

theorem test_met_MinstretCountsFetches :
    (romMachine.micro.eu.state = .fetch ∧ goesOn (step romMachine) = true ∧ romMachine.pc.toNat % 4 = 0) ∧
    (∀ a, csrWritten (.addi 1 0 1) = some a → csrNamed romMachine.config.csrAddr a ≠ some .minstret) ∧
    (goesOn (step { State.reset with pc := 3 }) = true ∧ (3 : Word).toNat % 4 ≠ 0) :=
  ⟨by decide, by simp [csrWritten], by decide⟩

/-- The first address of no region, and the last. -/
theorem test_met_UnmappedAccessHangs :
    ({ State.reset with pc := 0x40000000 } : State).micro.eu.state = .fetch ∧ (0x40000000 : Word).toNat % 4 = 0 ∧
    0x40000000 ≤ (loadAddress (withReg 1 0x40000000) 1 0).toNat ∧ (loadAddress (withReg 1 0x40000000) 1 0).toNat % 4 = 0 ∧
    0x40000000 ≤ (storeAddress (withReg 1 0xFFFFFFFD) 1 0xFFF).toNat ∧
    (storeAddress (withReg 1 0xFFFFFFFD) 1 0xFFF).toNat % 4 = 0 := by decide

/-- A fetch, a byte, a halfword and a word access at the first and the last address past the RAM array, past the ROM image and past the
flash image; a store at the first and the last of the RAM region past the array and at the last of the boot region. -/
theorem test_met_OutOfRangeAccessFaults :
    (State.reset.micro.eu.state = .fetch ∧ outOfRange State.reset 0x20001000 = some .ramOutOfRange ∧
      outOfRange State.reset 0x3FFFFFFC = some .ramOutOfRange ∧ outOfRange romMachine 4 = some .romOutOfRange ∧
      outOfRange romMachine 0x1FFFFFFC = some .romOutOfRange ∧ outOfRange flashMachine 4 = some .flashOutOfRange) ∧
    (loadAddress (withReg 1 0x3FFFFFFF) 1 0 = 0x3FFFFFFF ∧ outOfRange (withReg 1 0x3FFFFFFF) 0x3FFFFFFF = some .ramOutOfRange) ∧
    (loadAddress romMachine 0 5 = 5 ∧ outOfRange romMachine 5 = some .romOutOfRange) ∧
    (loadAddress flashMachine 0 2 = 2 ∧ outOfRange flashMachine 2 = some .flashOutOfRange) ∧
    (storeAddress (withReg 1 0x20001000) 1 0 = 0x20001000 ∧ ¬InRam (withReg 1 0x20001000) 0x20001000 ∧
      storeAddress (withReg 1 0x3FFFFFFF) 1 0 = 0x3FFFFFFF ∧ ¬InRam (withReg 1 0x3FFFFFFF) 0x3FFFFFFF) ∧
    ((storeAddress (withReg 1 0x1FFFFFFC) 1 0).toNat < ramBase ∧ (storeAddress (withReg 1 0x1FFFFFFC) 1 0).toNat % 4 = 0) := by
  unfold InRam
  exact ⟨by decide, by decide, by decide, ⟨by decide, by rfl⟩, by decide, by decide⟩

theorem test_met_UnenumeratedWordRefused :
    (start 0 [] 0x02208033).micro.eu.state = .fetch ∧ (start 0 [] 0x02208033).pc.toNat % 4 = 0 ∧
    fetch (start 0 [] 0x02208033) = .ok 0x02208033 ∧ decodeWord 0x02208033 = .error .funct7 := by decide

theorem test_met_JumpResults : evenOffset (0x1FFFFE : BitVec 21) = true ∧ evenOffset (0x100000 : BitVec 21) = true := by decide

theorem test_met_BranchResults : evenOffset (0x1FFE : BitVec 13) = true ∧ evenOffset (0x1000 : BitVec 13) = true := by decide

/-- V35 and V38. -/
theorem test_met_MisalignedTargetTrapsNext :
    State.reset.micro.eu.state = .fetch ∧
    (isTransfer (.jal 1 2) = true ∧ goesOn (exec (.jal 1 2) .reset) = true ∧
      (answer (exec (.jal 1 2) .reset)).pc.toNat % 4 ≠ 0) ∧
    (isTransfer (.jalr 1 2 1) = true ∧ goesOn (exec (.jalr 1 2 1) (withReg 2 0x200)) = true ∧
      (answer (exec (.jalr 1 2 1) (withReg 2 0x200))).pc.toNat % 4 ≠ 0) := by decide

/-- The first and the last byte of the RAM, its last word, and both boot stores. -/
theorem test_met_LoadResults :
    ((0x20000000 : Word) = getReg (withReg 1 0x20000000) 1 + (0 : BitVec 12).signExtend 32 ∧
      Answers (withReg 1 0x20000000) 0x20000000) ∧
    ((0x20000FFF : Word) = getReg (withReg 1 0x20001000) 1 + (0xFFF : BitVec 12).signExtend 32 ∧
      Answers (withReg 1 0x20001000) 0x20000FFF) ∧
    (Answers (withReg 1 0x20000FFC) 0x20000FFC ∧ Answers (withReg 1 0x20000FFE) 0x20000FFE) ∧
    (Answers romMachine 3 ∧ Answers flashMachine 0) :=
  ⟨⟨by decide, .ram, 0, 0, by decide⟩, ⟨by decide, .ram, 0xFFF, 0, by decide⟩,
    ⟨⟨.ram, 0xFFC, 0, by decide⟩, .ram, 0xFFE, 0, by decide⟩, ⟨.rom, 3, 0x00100093, by decide⟩, .flash, 0, 0x00100093,
        by decide⟩

theorem test_met_MisalignedAccessTraps :
    (loadAddress (withReg 1 0x20000000) 1 3).toNat % 4 = 3 ∧ (loadAddress (withReg 1 0x20000000) 1 1).toNat % 4 ≠ 0 ∧
    (loadAddress (withReg 1 0x20000000) 1 2).toNat % 4 ≠ 0 ∧ (storeAddress (withReg 1 0x20000000) 1 0xFFF).toNat % 4 = 3 ∧
    (storeAddress (withReg 1 0x20000000) 1 1).toNat % 4 ≠ 0 ∧ (loadAddress (withReg 1 0x20000000) 1 1).toNat % 4 ≠ 3 ∧
    goesOn (exec (.lb 5 1 3) (withReg 1 0x20000000)) = true ∧ goesOn (exec (.lh 5 1 1) (withReg 1 0x20000000)) = true ∧
    goesOn (exec (.sh 1 5 1) (withReg 1 0x20000000)) = true ∧ goesOn (exec (.sw 1 5 0) (withReg 1 0x20000000)) = true := by decide

/-- The first word of the RAM and its last byte. -/
theorem test_met_StoreResults :
    (RunInv (withReg 1 0x20000000) ∧ (0x20000000 : Word) = getReg (withReg 1 0x20000000) 1 + (0 : BitVec 12).signExtend 32 ∧
      InRam (withReg 1 0x20000000) 0x20000000 ∧ (0x20000000 : Word).toNat % 4 = 0) ∧
    (RunInv (withReg 1 0x20001000) ∧ (0x20000FFF : Word) = getReg (withReg 1 0x20001000) 1 + (0xFFF : BitVec 12).signExtend 32 ∧
      InRam (withReg 1 0x20001000) 0x20000FFF) ∧
    (InRam (withReg 1 0x20000FFE) 0x20000FFE ∧ (0x20000FFE : Word).toNat % 4 ≠ 3) :=
  ⟨⟨runInv_withReg 1 0x20000000 (by decide), by unfold InRam; decide⟩,
    ⟨runInv_withReg 1 0x20001000 (by decide), by unfold InRam; decide⟩, by unfold InRam; decide⟩

theorem test_met_StoreThenLoad :
    RunInv (withReg 1 0x20000FFC) ∧ InRam (withReg 1 0x20000FFC) (storeAddress (withReg 1 0x20000FFC) 1 0) ∧
    goesOn (exec (.sw 1 2 0) (withReg 1 0x20000FFC)) = true ∧ (storeAddress (withReg 1 0x20000FFC) 1 0).toNat % 4 = 0 ∧
    loadAddress (answer (exec (.sw 1 2 0) (withReg 1 0x20000FFC))) 1 (0 + BitVec.ofNat 12 3) =
      storeAddress (withReg 1 0x20000FFC) 1 0 + BitVec.ofNat 32 3 :=
  ⟨runInv_withReg 1 0x20000FFC (by decide), by unfold InRam; decide, by decide⟩

theorem test_met_FetchSeesStore :
    RunInv (withReg 1 0x20000FFC) ∧ (storeAddress (withReg 1 0x20000FFC) 1 0).toNat % 4 = 0 ∧
    InRam (withReg 1 0x20000FFC) (storeAddress (withReg 1 0x20000FFC) 1 0) ∧
    goesOn (exec (.sw 1 2 0) (withReg 1 0x20000FFC)) = true :=
  ⟨runInv_withReg 1 0x20000FFC (by decide), by decide, by unfold InRam; decide, by decide⟩

theorem test_met_CsrInstructionResults :
    csrNamed State.reset.config.csrAddr 0x300 = some .mstatus ∧ csrNamed State.reset.config.csrAddr 0x305 = some .mtvec ∧
    csrNamed State.reset.config.csrAddr 0x341 = some .mepc ∧ csrNamed State.reset.config.csrAddr 0x342 = some .mcause ∧
    csrNamed State.reset.config.csrAddr 0x343 = some .mtval ∧ csrNamed State.reset.config.csrAddr 0xB02 = some .minstret :=
        by decide

theorem test_met_UnknownCsrReadsZero :
    csrNamed State.reset.config.csrAddr 0x000 = none ∧ csrNamed State.reset.config.csrAddr 0xC00 = none ∧
    csrNamed State.reset.config.csrAddr 0xFFF = none := by decide

theorem test_met_CsrReadForms :
    decodeWord 0x10500073 = .ok (.csrReadF000 0 0x105 0) ∧ decodeWord 0x10200073 = .ok (.csrReadF000 0 0x102 0) := by decide

theorem test_met_TrapVectorAddress :
    (0x80 : Word) = place 32 2 (0x20 : BitVec 30) ∧ ({ mode := 1, base := 0x20 } : Mtvec).mode = 1 ∧
    ({ mode := 0, base := 0x20 } : Mtvec).mode = 0 := by decide

/-- csrrwi x5, mtval, 1 and csrrwi x5, mtvec, 1. -/
theorem test_met_MtvalAndMtvecOnlyByCsr :
    (goesOn (step (start 0 [] 0x3430D2F3)) = true ∧ (answer (step (start 0 [] 0x3430D2F3))).csr.mtval ≠ State.reset.csr.mtval) ∧
    (goesOn (step (start 0 [] 0x3050D2F3)) = true ∧ (answer (step (start 0 [] 0x3050D2F3))).csr.mtvec ≠ State.reset.csr.mtvec) ∧
    (start 0 [] 0x3430D2F3).micro.eu.state = .fetch ∧ (start 0 [] 0x3050D2F3).micro.eu.state = .fetch := by decide

/-- V86, V77 and F7. -/
theorem test_met_OnlyFiveCausesAreRaised :
    (start 0 [] 0x00000073).micro.eu.state = .fetch ∧
    (goesOn (step (start 0 [] 0x00000073)) = true ∧
        (answer (step (start 0 [] 0x00000073))).csr.mcause ≠ State.reset.csr.mcause) ∧
    (goesOn (step (start 0 [] 0x342FD2F3)) = true ∧
        (answer (step (start 0 [] 0x342FD2F3))).csr.mcause ≠ State.reset.csr.mcause) ∧
    (start 0 [] 0x00000000).pc.toNat % 4 = 0 ∧ fetch (start 0 [] 0x00000000) = .ok 0 ∧ decodeWord 0 = .error .opcode :=
        by decide

theorem test_met_StepKeepsInv : RunInv romMachine ∧ step romMachine = .next (answer (step romMachine)) :=
  ⟨runInv_rom, eq_next_answer (by decide)⟩

theorem test_met_NeverChanged : RunInv flashMachine ∧ step flashMachine = .next (answer (step flashMachine)) :=
  ⟨runInv_flash, eq_next_answer (by decide)⟩

/-- sb x2, 0(x1) with x1 = 0x20000FFF and x2 = 0xEF, the last byte of the RAM. -/
theorem test_met_MemoryChangesOnlyByStores :
    RunInv { withReg 1 0x20000FFF with mem := [(0, 0x23), (1, 0x80), (2, 0x20), (3, 0x00)], regs :=
        (setReg (withReg 1 0x20000FFF) 2 0xEF).regs } ∧
    (let s := { withReg 1 0x20000FFF with mem := [(0, 0x23), (1, 0x80), (2, 0x20), (3, 0x00)], regs :=
        (setReg (withReg 1 0x20000FFF) 2 0xEF).regs }
     s.micro.eu.state = .fetch ∧ goesOn (step s) = true ∧
       (answer (step s)).mem.readByte 0x20000FFF ≠ s.mem.readByte 0x20000FFF) := by
  constructor
  · unfold RunInv; decide
  · decide

theorem test_met_RegistersChangeOnlyAsDestination :
    romMachine.micro.eu.state = .fetch ∧ goesOn (step romMachine) = true ∧
    getReg (answer (step romMachine)) 1 ≠ getReg romMachine 1 := by decide

/-- A plain instruction, a jump to a misaligned target, MRET and a trap. -/
theorem test_met_WhereThePcGoes :
    (romMachine.micro.eu.state = .fetch ∧ goesOn (step romMachine) = true) ∧
    (goesOn (step (start 0 [] 0x002000EF)) = true ∧ (answer (step (start 0 [] 0x002000EF))).pc.toNat % 4 ≠ 0) ∧
    goesOn (step (start 0 [] 0x30200073)) = true ∧ goesOn (step (start 0 [] 0x00000073)) = true := by decide

theorem test_met_MicroarchitectureIsInvisible :
    arch flashMachine = arch { flashMachine with micro := .reset } ∧ flashMachine.micro ≠ Micro.reset ∧
    flashMachine.micro.eu.state = .fetch := by decide

theorem test_met_StepLeavesTheMachineIdle : Idle romMachine ∧ step romMachine = .next (answer (step romMachine)) :=
  ⟨⟨rfl, rfl, rfl, rfl, rfl, rfl⟩, eq_next_answer (by decide)⟩

theorem twin_of {f : State} (hc : f.config = { romMachine.config with bootStore := .flash }) (hr : f.regs = romMachine.regs)
    (hp : f.pc = romMachine.pc) (hx : f.csr = romMachine.csr) (hm : f.mem = [])
    (hf : ∀ c ∈ addiImage, f.flash.readByte (flashAddress f.config c.1) = some c.2) : Twin romMachine f := by
  refine ⟨rfl, hc, hr, hp, hx, fun a ha => ?_, fun o b ho h => hf (o, b) ?_⟩
  · rw [hm]
    have : a ≠ 0 ∧ a ≠ 1 ∧ a ≠ 2 ∧ a ≠ 3 := by simp only [ramBase] at ha; omega
    simp [romMachine, addiImage, Memory.readByte, eq_comm, this]
  · simp only [romMachine, addiImage, Memory.readByte] at h
    have hu : Memory.unlisted o = none := if_neg fun hn => Nat.not_lt.mpr hn.1 ho
    rw [hu] at h
    split at h <;> [skip; (split at h <;> [skip; (split at h <;> [skip; split at h])])] <;> simp_all [addiImage]

theorem test_met_RomAndFlashRunInLockstep :
    Twin romMachine flashMachine ∧ romMachine.micro.eu.state = .fetch ∧ flashMachine.micro.eu.state = .fetch ∧
    RunInv romMachine ∧ RunInv flashMachine ∧ step romMachine = .next (answer (step romMachine)) :=
  ⟨twin_of rfl rfl rfl rfl rfl (by decide), rfl, rfl, runInv_rom, runInv_flash, eq_next_answer (by decide)⟩

/-- `flashMachine` with an image of its own. -/
def withImage (l : List Byte) : State := { flashMachine with flash := Memory.writeBytes [] 0 l }

theorem image_byte (l : List Byte) (a : Nat) (h : a < l.length) : (withImage l).flash.readByte a = l[a]? := by
  show (Memory.writeBytes [] 0 l).readByte a = _
  rw [readByte_writeBytes _ _ _ _ wf_nil, if_pos ⟨Nat.zero_le a, by omega⟩, Nat.sub_zero]

theorem twin_withImage (l : List Byte) (hl : l.length = 2 ^ 24)
    (h : l[0]? = some 0x93 ∧ l[1]? = some 0x00 ∧ l[2]? = some 0x10 ∧ l[3]? = some 0x00) :
    Twin romMachine (withImage l) ∧ RunInv (withImage l) ∧ ∀ A, A < 2 ^ 24 → ∃ b, (withImage l).flash.readByte A = some b := by
  have hb : ∀ a, a < 2 ^ 24 → (withImage l).flash.readByte a = l[a]? := fun a ha => image_byte l a (hl.symm ▸ ha)
  refine ⟨twin_of rfl rfl rfl rfl rfl fun c hc => ?_,
    ⟨wf_nil, wf_writeBytes _ _ _ wf_nil, by simp [withImage, flashMachine, State.reset], fun c hc => ?_, rfl⟩,
    fun A hA => ⟨l[A]'(hl.symm ▸ hA), ?_⟩⟩
  · simp only [addiImage, List.mem_cons, List.not_mem_nil, or_false] at hc
    rcases hc with rfl | rfl | rfl | rfl
    · exact (hb 0 (by decide)).trans h.1
    · exact (hb 1 (by decide)).trans h.2.1
    · exact (hb 2 (by decide)).trans h.2.2.1
    · exact (hb 3 (by decide)).trans h.2.2.2
  · rcases mem_writeBytes hc with h | h
    · exact h.2.trans_eq ((Nat.zero_add _).trans hl)
    · exact nomatch h
  · rw [hb A hA, List.getElem?_eq_getElem (hl.symm ▸ hA)]

/-- An image as long as the flash address allows. -/
theorem test_met_RomAndFlashRunInLockstep_fullDevice : ∃ l,
    Twin romMachine (withImage l) ∧ RunInv (withImage l) ∧ ∀ A, A < 2 ^ 24 → ∃ b, (withImage l).flash.readByte A = some b :=
  ⟨_, twin_withImage ([0x93, 0x00, 0x10, 0x00] ++ List.replicate (2 ^ 24 - 4) 0)
    (by rw [List.length_append, List.length_replicate]; decide) ⟨rfl, rfl, rfl, rfl⟩⟩

theorem test_met_SpiWakesTheFlash :
    (let s := { flashMachine with micro := .reset }
     s.micro.spi.state = .reset) ∧
    (let s := { flashMachine with micro := { Micro.reset with spi := SpiController.reset.resetTick } }
     s.micro.spi.state = .powerup) ∧ State.reset.config.bootStore = .rom ∧ State.reset.micro.spi.state = .reset := by decide

/-- Idle, and a fetch at the last word of the boot region. -/
theorem test_met_SpiLatchesReadCommand :
    (MicroInv flashMachine ∧ flashMachine.config.bootStore = .flash ∧ flashMachine.micro.spi.state = .waiting ∧
      ∀ m, (busOf flashMachine m).requests = false) ∧
    (MicroInv (fetching 0x1FFFFFFC flashMachine) ∧ (fetching 0x1FFFFFFC flashMachine).micro.spi.state = .waiting ∧
      (busOf (fetching 0x1FFFFFFC flashMachine) .instruction).requests = true ∧
      (busOf (fetching 0x1FFFFFFC flashMachine) .data).requests = false ∧
      (busOf (fetching 0x1FFFFFFC flashMachine) .instruction).writeEnable = false ∧
      (busOf (fetching 0x1FFFFFFC flashMachine) .instruction).address.toNat < ramBase) :=
  ⟨⟨microInv_flash, rfl, rfl, fun m => by cases m <;> rfl⟩,
    ⟨And.intro (And.intro rfl (Or.inr (And.intro rfl (Or.inl rfl)))) ⟨rfl, rfl⟩, rfl, rfl, rfl, rfl, by decide⟩⟩

theorem test_met_SpiReadReturnsFlashWord :
    RunInv flashMachine ∧ MicroInv flashMachine ∧ flashMachine.micro.eu.state = .fetch ∧
        flashMachine.config.bootStore = .flash ∧
    flashMachine.micro.spi.state = .waiting ∧ flashMachine.pc.toNat % 4 = 0 ∧ flashMachine.pc.toNat < ramBase ∧
    flashMachine.flash.readByte (flashAddress flashMachine.config 0) = some 0x93 ∧
    flashMachine.flash.readByte ((flashAddress flashMachine.config 0 + 1) % 2 ^ 24) = some 0x00 ∧
    flashMachine.flash.readByte ((flashAddress flashMachine.config 0 + 2) % 2 ^ 24) = some 0x10 ∧
    flashMachine.flash.readByte ((flashAddress flashMachine.config 0 + 3) % 2 ^ 24) = some 0x00 :=
  ⟨runInv_flash, microInv_flash, by decide⟩

/-- A fetch from the ROM, and a load from and a store to the last word of the RAM, whose two ticks go on. -/
theorem test_met_AcknowledgeAfterTwoTicks :
    (let s := { fetching 0 romMachine with mem := addiImage }
     RunInv s ∧ MicroInv s ∧ (busOf s .instruction).requests = true ∧ route s.config .instruction 0 = some (.rom, 0) ∧
       s.micro.romAck = 0 ∧ s.micro.ramAck = 0 ∧ goesOn (ticks 2 s) = true) ∧
    (let s := loading 0x20000FFC
     RunInv s ∧ MicroInv s ∧ (busOf s .data).requests = true ∧ route s.config .data 0x20000FFC = some (.ram, 0xFFC) ∧
       s.micro.romAck = 0 ∧ s.micro.ramAck = 0 ∧ goesOn (ticks 2 s) = true) ∧
    (let s := storing 0x20000FFC
     RunInv s ∧ MicroInv s ∧ (busOf s .data).requests = true ∧ goesOn (ticks 2 s) = true) :=
  ⟨⟨runInv_of runInv_rom rfl rfl rfl, And.intro (And.intro rfl (Or.inr (And.intro rfl (Or.inl rfl)))) trivial,
      by decide⟩,
    ⟨runInv_of runInv_reset (by decide) rfl rfl, microInv_loading (by decide) (by decide) (by decide), by decide⟩,
    ⟨runInv_of runInv_reset (by decide) rfl rfl, microInv_storing (by decide) (by decide) (by decide), by decide⟩⟩

/-- A fetch at the first unmapped address and a load from the last word. -/
theorem test_met_UnmappedRequestWaitsForEver :
    (RunInv (fetching 0x40000000 State.reset) ∧ MicroInv (fetching 0x40000000 State.reset) ∧
      (busOf (fetching 0x40000000 State.reset) .instruction).requests = true ∧
      0x40000000 ≤ (busOf (fetching 0x40000000 State.reset) .instruction).address.toNat) ∧
    (RunInv (loading 0xFFFFFFFC) ∧ MicroInv (loading 0xFFFFFFFC) ∧ (busOf (loading 0xFFFFFFFC) .data).requests = true ∧
      0x40000000 ≤ (busOf (loading 0xFFFFFFFC) .data).address.toNat) :=
  ⟨⟨runInv_of runInv_reset rfl rfl rfl, microInv_lostFetch, by decide⟩,
    ⟨runInv_of runInv_reset (by decide) rfl rfl, microInv_loading (by decide) (by decide) (by decide), by decide⟩⟩

/-- Every state of the ExecutionUnit but TRAP_ENTRY, TX and RX. -/
theorem test_met_TickKeepsInvariants :
    (RunInv State.reset ∧ MicroInv State.reset ∧ goesOn (tick State.reset) = true) ∧
    (RunInv (fetching 0 flashMachine) ∧ MicroInv (fetching 0 flashMachine) ∧ goesOn (tick (fetching 0 flashMachine)) = true) ∧
    (RunInv (decoding 0x13) ∧ MicroInv (decoding 0x13) ∧ goesOn (tick (decoding 0x13)) = true) ∧
    (RunInv sending ∧ MicroInv sending ∧ goesOn (tick sending) = true) ∧
    (RunInv receiving ∧ MicroInv receiving ∧ goesOn (tick receiving) = true) :=
  ⟨⟨runInv_reset, microInv_reset, by decide⟩, ⟨runInv_of runInv_flash rfl rfl rfl, microInv_flashFetch, by decide⟩,
    ⟨runInv_of runInv_reset rfl rfl rfl, microInv_decoding _, by decide⟩,
    ⟨runInv_of runInv_flash rfl rfl rfl, microInv_sending, by decide⟩,
    ⟨runInv_of runInv_flash rfl rfl rfl, microInv_receiving, by decide⟩⟩

/-- A tick that goes on, one that retires, one that faults (a store to the ROM, one tick before its answer) and one that
refuses. -/
theorem test_met_TickRefinesStep :
    (RunInv State.reset ∧ MicroInv State.reset ∧ goesOn (tick State.reset) = true) ∧
    (RunInv (decoding 0x13) ∧ MicroInv (decoding 0x13) ∧ (answer (tick (decoding 0x13))).micro.eu.state = .fetch) ∧
    (let s := { storing 0 with micro := { (storing 0).micro with romAck := 1 } }
     RunInv s ∧ MicroInv s ∧ tick s = .fault .storeToBootStore) ∧
    (RunInv (decoding 0) ∧ MicroInv (decoding 0) ∧ tick (decoding 0) = .refused (.unenumerated .opcode)) :=
  ⟨⟨runInv_reset, microInv_reset, by decide⟩, ⟨runInv_of runInv_reset rfl rfl rfl, microInv_decoding _, by decide⟩,
    ⟨runInv_of runInv_reset rfl rfl rfl,
      And.intro (And.intro rfl ⟨.sw 1 2 0, .store .word 0 0, by decide, by decide, Or.inr (And.intro (by decide) (Or.inl rfl))⟩)
        trivial, rfl⟩,
    ⟨runInv_of runInv_reset rfl rfl rfl, microInv_decoding _, rfl⟩⟩

theorem test_met_TicksCompleteTheStep :
    (RunInv romMachine ∧ MicroInv romMachine ∧ step romMachine ≠ .fault .hangNoResponder) ∧
    (RunInv receiving ∧ MicroInv receiving ∧ step receiving ≠ .fault .hangNoResponder) :=
  ⟨⟨runInv_rom, microInv_reset, by rw [eq_next_answer (r := step romMachine) (by decide)]; exact nofun⟩,
    ⟨runInv_of runInv_flash rfl rfl rfl, microInv_receiving,
      by rw [eq_next_answer (r := step receiving) (by decide)]; exact nofun⟩⟩

end Sys2Proof.Tests
end

section
/-! Statements about the state (10_state.md): what the registers and the pc hold after reset, and a CSR's value and a CSR write by
the numbers of the fields (R48). -/

namespace Sys2Proof.Machine

/-! ## After reset (R34, R38) -/

@[simp] theorem getReg_reset (j : RegIdx) : getReg State.reset j = 0 := by
  unfold getReg State.reset
  split
  · rfl
  · exact Vector.getElem_replicate _

@[simp] theorem pc_reset : State.reset.pc = 0 := rfl

/-- Settles O8: every entry of the register file is 0 in the reset state, and so is the pc. -/
theorem resetRegistersAndPc : Obligations.ResetRegistersAndPc := ⟨getReg_reset, pc_reset⟩

/-! ## Fields by their numbers -/

/-- A field that fits where it is laid is its number times 2 to its lowest bit. -/
theorem toNat_place {n m lo : Nat} (v : BitVec n) (h : lo + n ≤ m) : (place m lo v).toNat = v.toNat * 2 ^ lo := by
  have hv : v.toNat * 2 ^ lo < 2 ^ m := calc
    v.toNat * 2 ^ lo < 2 ^ n * 2 ^ lo := Nat.mul_lt_mul_of_pos_right v.isLt (Nat.two_pow_pos lo)
    _ = 2 ^ (lo + n) := by rw [← pow_add, Nat.add_comm]
    _ ≤ 2 ^ m := Nat.pow_le_pow_right two_pos h
  have hn : v.toNat < 2 ^ m := v.isLt.trans_le (Nat.pow_le_pow_right two_pos (by omega))
  rw [place, BitVec.toNat_shiftLeft, BitVec.toNat_setWidth, Nat.shiftLeft_eq, Nat.mod_eq_of_lt hn, Nat.mod_eq_of_lt hv]

/-- A field laid at bit 0 is its number. -/
theorem toNat_place_zero {n m : Nat} (v : BitVec n) (h : n ≤ m) : (place m 0 v).toNat = v.toNat := by
  rw [toNat_place v (by omega), pow_zero, Nat.mul_one]

/-- The OR of two fields is their sum where the first ends at or below the second's lowest bit: no bit lies in both. -/
theorem toNat_place_or_place {k n m lo hi : Nat} (v : BitVec n) (w : BitVec k) (hlo : lo + n ≤ hi) (hhi : hi + k ≤ m) :
    (place m lo v ||| place m hi w).toNat = v.toNat * 2 ^ lo + w.toNat * 2 ^ hi := by
  have hv : (place m lo v).toNat = v.toNat * 2 ^ lo := toNat_place v (by omega)
  have hlt : v.toNat * 2 ^ lo < 2 ^ hi := by
    rw [← toNat_place v hlo]
    exact (place hi lo v).isLt
  rw [BitVec.toNat_or, hv, toNat_place w hhi, Nat.or_comm, ← Nat.shiftLeft_eq w.toNat, ← Nat.shiftLeft_add_eq_or_of_lt hlt,
    Nat.add_comm]

/-- The bits of a field's range, as a number. -/
theorem toNat_extractLsb'_eq_div_mod {m : Nat} (v : BitVec m) (lo n : Nat) :
    (v.extractLsb' lo n).toNat = v.toNat / 2 ^ lo % 2 ^ n := by
  rw [BitVec.extractLsb'_toNat, Nat.shiftRight_eq_div_pow]

/-- The bits of a range that reaches the top of the word. -/
theorem toNat_extractLsb'_top {m lo n : Nat} (v : BitVec m) (h : lo + n = m) :
    (v.extractLsb' lo n).toNat = v.toNat / 2 ^ lo := by
  have hv : v.toNat / 2 ^ lo < 2 ^ n := Nat.div_lt_of_lt_mul (by rw [← pow_add, h]; exact v.isLt)
  rw [toNat_extractLsb'_eq_div_mod, Nat.mod_eq_of_lt hv]

/-- The bits of a range that starts at bit 0. -/
theorem toNat_extractLsb'_bottom {m : Nat} (v : BitVec m) (n : Nat) : (v.extractLsb' 0 n).toNat = v.toNat % 2 ^ n := by
  rw [toNat_extractLsb'_eq_div_mod, pow_zero, Nat.div_one]

/-! ## The value of each register is the sum of its fields (R42 to R48) -/

theorem toNat_csrValue_mstatus (c : CsrBank) :
    (csrValue c .mstatus).toNat = c.mstatus.mie.toNat * 2 ^ 3 + c.mstatus.mpie.toNat * 2 ^ 7 :=
  toNat_place_or_place c.mstatus.mie c.mstatus.mpie (by decide) (by decide)

theorem toNat_csrValue_mtvec (c : CsrBank) :
    (csrValue c .mtvec).toNat = c.mtvec.mode.toNat + c.mtvec.base.toNat * 2 ^ 2 := by
  have h := toNat_place_or_place (m := 32) (lo := 0) (hi := 2) c.mtvec.mode c.mtvec.base (by decide) (by decide)
  rwa [pow_zero, Nat.mul_one] at h

theorem toNat_csrValue_mepc (c : CsrBank) : (csrValue c .mepc).toNat = c.mepc.epc.toNat * 2 ^ 2 :=
  toNat_place c.mepc.epc (by decide)

theorem toNat_csrValue_mcause (c : CsrBank) :
    (csrValue c .mcause).toNat = c.mcause.interrupt.toNat * 2 ^ 31 + c.mcause.ecode.toNat := by
  have h := toNat_place_or_place (m := 32) (lo := 0) (hi := 31) c.mcause.ecode c.mcause.interrupt (by decide) (by decide)
  rwa [pow_zero, Nat.mul_one, BitVec.or_comm, Nat.add_comm] at h

theorem toNat_csrValue_mtval (c : CsrBank) : (csrValue c .mtval).toNat = c.mtval.einfo.toNat :=
  toNat_place_zero c.mtval.einfo (by decide)

theorem toNat_csrValue_minstret (c : CsrBank) : (csrValue c .minstret).toNat = c.minstret.instrs.toNat :=
  toNat_place_zero c.minstret.instrs (by decide)

/-- Settles O38: the read half is the sum of disjoint fields, the write half the bits of each field's range, and the other registers
keep their value (`csrValue_csrStore_ne`). -/
theorem csrValueIsItsFields : Obligations.CsrValueIsItsFields := by
  intro c v
  refine ⟨toNat_csrValue_mstatus c, toNat_csrValue_mtvec c, toNat_csrValue_mepc c, toNat_csrValue_mcause c,
    toNat_csrValue_mtval c, toNat_csrValue_minstret c, ?mie, ?mpie, ?mode, ?base, ?epc, ?interrupt, ?ecode, ?einfo, ?instrs,
    csrValue_csrStore_ne c v⟩
  case mie => exact toNat_extractLsb'_eq_div_mod v 3 1
  case mpie => rfl
  case mode => exact toNat_extractLsb'_bottom v 1
  case base => exact toNat_extractLsb'_top v (by decide)
  case epc => exact toNat_extractLsb'_top v (by decide)
  case interrupt => exact toNat_extractLsb'_top v (by decide)
  case ecode => exact toNat_extractLsb'_bottom v 31
  case einfo => rfl
  case instrs => exact toNat_extractLsb'_bottom v 16

end Sys2Proof.Machine
end

section
/-! Statements about the execution cycle (40_execution_cycle.md): the misaligned fetch (R171), by what TRAP ENTRY does for every
cause (60_exceptions.md R336). -/

namespace Sys2Proof.Machine

/-! ## TRAP ENTRY (60_exceptions.md R336) -/

/-- The top 30 bits of an address, as mepc holds them, are its quotient by 4. -/
theorem toNat_addressField (a : Word) : ((a >>> 2).setWidth 30).toNat = a.toNat / 4 := by
  rw [BitVec.toNat_setWidth, BitVec.toNat_ushiftRight, Nat.shiftRight_eq_div_pow, Nat.mod_eq_of_lt (by omega)]

/-- Laid back at bit 2, they are the address rounded down to a multiple of 4. -/
theorem place_addressField (a : Word) : place 32 2 ((a >>> 2).setWidth 30) = a &&& 0xFFFFFFFC := by
  have hfits : ((a >>> 2).setWidth 30).setWidth 32 = a >>> 2 := by
    apply BitVec.eq_of_toNat_eq
    rw [BitVec.toNat_setWidth, toNat_addressField, BitVec.toNat_ushiftRight, Nat.shiftRight_eq_div_pow]
    omega
  calc place 32 2 ((a >>> 2).setWidth 30)
      _ = a >>> 2 <<< 2 := by rw [place, hfits]
      _ = a &&& 0xFFFFFFFC := BitVec.shiftLeft_ushiftRight

/-- TRAP ENTRY leaves the state that `TrapTaken` describes, whatever the cause and the faulting pc. -/
theorem trapTaken_takeTrap (c : Cause) (f : Word) (s : State) : TrapTaken c c.code.toNat f s (takeTrap c f s) := by
  refine ⟨rfl, rfl, toNat_addressField f, place_addressField f, rfl, rfl, rfl, rfl, rfl, rfl, rfl, ?registers, ?bytes, rfl⟩
  case registers => exact getReg_takeTrap c f s
  case bytes => exact fun _ => ⟨rfl, rfl⟩

/-! ## The misaligned fetch (R171) -/

/-- In FETCH at a misaligned pc a step is TRAP ENTRY and nothing else. -/
theorem step_of_fetch_misaligned {s : State} (hs : s.micro.eu.state = .fetch) (ha : s.pc.toNat % 4 ≠ 0) :
    step s = .next (takeTrap .instructionAddressMisaligned s.pc s) := by
  simp only [step, runToRetire, hs, not_aligned_word ha, Bool.false_eq_true, if_false]

/-- Settles O15: the step is TRAP ENTRY (`step_of_fetch_misaligned`), which touches neither bus nor minstret. -/
theorem misalignedFetchTraps : Obligations.MisalignedFetchTraps := fun s hs ha =>
  ⟨takeTrap .instructionAddressMisaligned s.pc s, step_of_fetch_misaligned hs ha, trapTaken_takeTrap _ s.pc s, rfl, rfl, rfl⟩

end Sys2Proof.Machine
end

section
/-! Which row of the opcode table covers a word first (30_encoding.md R149): two rows that cover one word agree on the bits that both
look at, and only the rows of SYSTEM words of funct3 000 do. -/

namespace Sys2Proof

/-- No other row of the table agrees with this one on the bits that both look at. -/
def Row.Sole (r : Row) : Prop := ∀ r' ∈ opcodeTable, r'.pattern &&& r.mask = r.pattern &&& r'.mask → r' = r

theorem Row.covers_iff (r : Row) (w : Word) : r.covers w = true ↔ w &&& r.mask = r.pattern := beq_iff_eq

/-- Two rows that cover one word agree on the bits that both look at. -/
theorem Row.agree_of_covers {r r' : Row} {w : Word} (h : r.covers w = true) (h' : r'.covers w = true) :
    r'.pattern &&& r.mask = r.pattern &&& r'.mask := by
  rw [← (r.covers_iff w).mp h, ← (r'.covers_iff w).mp h', BitVec.and_assoc, BitVec.and_assoc, BitVec.and_comm r.mask]

/-- A row that no other agrees with is the first to cover each word that it covers. -/
theorem firstRow_of_sole {r : Row} {w : Word} (hr : r ∈ opcodeTable) (hs : r.Sole) (hc : r.covers w = true) :
    firstRow w = some r.mnemonic := by
  have hsome : (opcodeTable.find? (·.covers w)).isSome = true := List.find?_isSome.mpr ⟨r, hr, hc⟩
  obtain ⟨r', hf⟩ := Option.isSome_iff_exists.mp hsome
  have hc' := List.find?_some hf
  have heq : r' = r := hs r' (List.mem_of_find?_eq_some hf) (Row.agree_of_covers hc hc')
  rw [firstRow, hf, heq, Option.map_some]

/-- Every row is the only one on its bits, but those that fix opcode SYSTEM and funct3 000 (R149). -/
theorem sole_or_system_zero :
    ∀ r ∈ opcodeTable, r.Sole ∨ (r.mask &&& 0x0000707F = 0x0000707F ∧ r.pattern &&& 0x0000707F = 0x00000073) := by
  unfold Row.Sole
  decide

/-- A word that a row of SYSTEM and funct3 000 covers has that opcode and funct3. -/
theorem system_zero_of_covers {r : Row} {w : Word} (hm : r.mask &&& 0x0000707F = 0x0000707F)
    (hp : r.pattern &&& 0x0000707F = 0x00000073) (hc : r.covers w = true) :
    opcodeOf w = 0b1110011 ∧ funct3Of w = 0b000 := by
  have hw : w &&& 0x0000707F = 0x00000073 := by
    rw [← hp, ← (r.covers_iff w).mp hc, BitVec.and_assoc, hm]
  have hop : opcodeOf (w &&& 0x0000707F) = opcodeOf w := by
    rw [opcodeOf, BitVec.extractLsb'_and]
    exact BitVec.and_allOnes
  have hf : funct3Of (w &&& 0x0000707F) = funct3Of w := by
    rw [funct3Of, BitVec.extractLsb'_and]
    exact BitVec.and_allOnes
  rw [← hop, ← hf, hw]
  exact ⟨rfl, rfl⟩

/-- The first row that covers an instruction's word is its own, unless the word is one of SYSTEM with funct3 000. -/
theorem firstRow_encode {i : Instr} (ht : Laws.TableRow.Statement i)
    (hi : opcodeOf (encode i) ≠ 0b1110011 ∨ funct3Of (encode i) ≠ 0b000) : firstRow (encode i) = some i.mnemonic := by
  obtain ⟨r, hr, hname, hc⟩ := ht
  rw [← hname]
  rcases sole_or_system_zero r hr with hs | ⟨hm, hp⟩
  · exact firstRow_of_sole hr hs hc
  · obtain ⟨hop, hf⟩ := system_zero_of_covers hm hp hc
    exact absurd hi (by simp [hop, hf])

end Sys2Proof
end

section
/-! Statements about the integer instructions (41_integer.md): what a commit writes and leaves (40_execution_cycle.md R175, R176), the
ALU's sum and difference by numbers, and the spelling of LUI and of the OP class. -/

namespace Sys2Proof.Machine

/-! ## What an integer instruction writes and leaves (R31, R175, R176) -/

/-- A register write is what `RegisterWritten` describes, x0 included. -/
theorem registerWritten_setReg (s : State) (rd : RegIdx) (v : Word) : RegisterWritten rd v s (setReg s rd v) := by
  refine ⟨fun j hj => ?others, ?written⟩
  case others => simp [getReg_setReg, hj]
  case written =>
    by_cases h : rd = 0
    · simp [h]
    · rw [getReg_setReg, if_pos ⟨rfl, h⟩, if_neg h]

/-- An instruction that commits `v'` to `rd` writes that value, by whatever name `v` it has, and leaves everything else but the pc. -/
theorem writesRegister_of_commit {i : Instr} {s : State} {rd : RegIdx} {v v' : Word} (h : exec i s = commit rd v' s) (hv : v' = v) :
    WritesRegister i s rd v (s.pc + 4) := by
  subst hv
  refine ⟨advance (setReg s rd v'), h, registerWritten_setReg s rd v', ?pc, ?csrs, ?bytes, ?config⟩
  case pc => rw [advance_pc, setReg_pc]
  case csrs => intro a; rw [advance_csr, advance_config, setReg_csr, setReg_config]
  case bytes => intro a; rw [advance_mem, advance_flash, setReg_mem, setReg_flash]; exact ⟨rfl, rfl⟩
  case config => rw [advance_config, setReg_config]

/-! ## Sum and difference (R191, R193) -/

/-- ADD is the sum of the unsigned numbers modulo 2^32. -/
theorem alu_add_toNat (a b : Word) : alu .add a b = BitVec.ofNat 32 (a.toNat + b.toNat) := by
  rw [BitVec.ofNat_add, BitVec.ofNat_toNat, BitVec.ofNat_toNat, BitVec.setWidth_eq, BitVec.setWidth_eq]
  rfl

/-- SUB is the difference of the signed numbers modulo 2^32. -/
theorem alu_sub_toInt (a b : Word) : alu .sub a b = BitVec.ofInt 32 (a.toInt - b.toInt) := by
  rw [alu_sub]
  apply BitVec.eq_of_toInt_eq
  rw [BitVec.toInt_sub, BitVec.toInt_ofInt]

/-! ## Spellings (R194, R205 to R214) -/

/-- LUI is read back from its word, which its own row covers first. -/
theorem spelledAs_lui (rd : RegIdx) (imm : BitVec 20) : SpelledAs (.lui rd imm) "lui" 0b0110111 none := by
  obtain ⟨hop, hrd, himm⟩ := fields_encodeU 0b0110111 rd imm
  have hdecode : decodeWord (encodeU 0b0110111 rd imm) = .ok (.lui rd imm) := by
    simp only [decodeWord, hop, hrd, himm]
    rfl
  have hne : opcodeOf (encode (.lui rd imm)) ≠ 0b1110011 := by
    rw [encode, hop]
    decide
  exact ⟨hop, (fun _ h => nomatch h), firstRow_encode (Laws.TableRow.lui rd imm) (.inl hne), hdecode⟩

/-- An OP word is decoded by its funct7 and funct3 (30_encoding.md R142). -/
theorem decodeWord_of_op {w : Word} (h : opcodeOf w = 0b0110011) : decodeWord w = decodeOp w := by
  simp only [decodeWord, h]
  rfl

/-- An instruction encoded in the R format with opcode OP is spelled by its funct3 and funct7 once the decoder reads it back. -/
theorem spelledAs7_op {i : Instr} {f7 : BitVec 7} {f3 : BitVec 3} {rd rs1 rs2 : RegIdx}
    (he : encode i = encodeR f7 f3 0b0110011 rd rs1 rs2) (ht : Laws.TableRow.Statement i)
    (hd : ∀ w, funct7Of w = f7 → funct3Of w = f3 → rdOf w = rd → rs1Of w = rs1 → rs2Of w = rs2 → decodeOp w = .ok i) :
    SpelledAs7 i i.mnemonic 0b0110011 f3 f7 := by
  obtain ⟨hop, hf3, hf7, hrd, hrs1, hrs2⟩ := fields_encodeR f7 f3 0b0110011 rd rs1 rs2
  rw [← he] at hop hf3 hf7 hrd hrs1 hrs2
  have hne : opcodeOf (encode i) ≠ 0b1110011 := by
    rw [hop]
    decide
  have hdecode : decodeWord (encode i) = .ok i := by
    rw [decodeWord_of_op hop, hd _ hf7 hf3 hrd hrs1 hrs2]
  exact ⟨⟨hop, fun _ h => hf3.trans (Option.some.inj h), firstRow_encode ht (.inl hne), hdecode⟩, hf7⟩

/-! ## The statements -/

/-- Settles O20: LUI commits its immediate, whose number is `imm * 2^12` (`immU_eq`). -/
theorem luiResult : Obligations.LuiResult := fun _ rd imm =>
  ⟨spelledAs_lui rd imm, writesRegister_of_commit rfl (immU_eq imm)⟩

/-- Settles O23: each of the ten commits what the ALU, or the shift by reversal, computes, and Laws/Alu.lean gives the number. -/
theorem opResults : Obligations.OpResults := by
  intro s rd rs1 rs2
  refine ⟨⟨spelledAs7_op rfl (Laws.TableRow.add rd rs1 rs2) ?_, writesRegister_of_commit rfl (alu_add_toNat _ _)⟩,
    ⟨spelledAs7_op rfl (Laws.TableRow.sub rd rs1 rs2) ?_, writesRegister_of_commit rfl (alu_sub_toInt _ _)⟩,
    ⟨spelledAs7_op rfl (Laws.TableRow.sll rd rs1 rs2) ?_, writesRegister_of_commit rfl (shiftLeft_toNat _ _)⟩,
    ⟨spelledAs7_op rfl (Laws.TableRow.slt rd rs1 rs2) ?_, writesRegister_of_commit rfl (alu_slt _ _)⟩,
    ⟨spelledAs7_op rfl (Laws.TableRow.sltu rd rs1 rs2) ?_, writesRegister_of_commit rfl (alu_sltu _ _)⟩,
    ⟨spelledAs7_op rfl (Laws.TableRow.xor rd rs1 rs2) ?_, writesRegister_of_commit rfl rfl⟩,
    ⟨spelledAs7_op rfl (Laws.TableRow.srl rd rs1 rs2) ?_, writesRegister_of_commit rfl (alu_srl _ _)⟩,
    ⟨spelledAs7_op rfl (Laws.TableRow.sra rd rs1 rs2) ?_, writesRegister_of_commit rfl (alu_sra _ _)⟩,
    ⟨spelledAs7_op rfl (Laws.TableRow.or rd rs1 rs2) ?_, writesRegister_of_commit rfl rfl⟩,
    ⟨spelledAs7_op rfl (Laws.TableRow.and rd rs1 rs2) ?_, writesRegister_of_commit rfl rfl⟩⟩
  -- what is left is the decoder's answer to each pair of funct7 and funct3 (R142)
  all_goals
    intro w hf7 hf3 hrd hrs1 hrs2
    simp only [decodeOp, hf7, hf3, hrd, hrs1, hrs2]
    rfl

end Sys2Proof.Machine
end

section
/-! Statements about the control transfers (42_control_transfer.md): each branch condition R241 by the numbers that R244 to R249
compare, the spelling of the BRANCH class, and what an instruction that only sets the pc leaves. -/

namespace Sys2Proof.Machine

/-! ## The condition of each funct3 (R241) -/

theorem branchTaken_beq (a b : Word) : branchTaken 0b000 a b = decide (a = b) := by
  calc branchTaken 0b000 a b
      _ = aluZero (alu .sub a b) := by simp [branchTaken, branchOp]
      _ = decide (a = b) := aluZero_sub a b

theorem branchTaken_bne (a b : Word) : branchTaken 0b001 a b = decide (a ≠ b) := by
  calc branchTaken 0b001 a b
      _ = !aluZero (alu .sub a b) := by simp [branchTaken, branchOp]
      _ = decide (a ≠ b) := by rw [aluZero_sub, decide_not]

theorem branchTaken_blt (a b : Word) : branchTaken 0b100 a b = decide (a.toInt < b.toInt) := by
  calc branchTaken 0b100 a b
      _ = !aluZero (alu .slt a b) := by simp [branchTaken, branchOp]
      _ = decide (a.toInt < b.toInt) := by rw [aluZero_slt, Bool.not_not]

theorem branchTaken_bge (a b : Word) : branchTaken 0b101 a b = decide (a.toInt ≥ b.toInt) := by
  calc branchTaken 0b101 a b
      _ = aluZero (alu .slt a b) := by simp [branchTaken, branchOp]
      _ = decide (a.toInt ≥ b.toInt) := by rw [aluZero_slt, ← decide_not, decide_eq_decide, Int.not_lt]

theorem branchTaken_bltu (a b : Word) : branchTaken 0b110 a b = decide (a.toNat < b.toNat) := by
  calc branchTaken 0b110 a b
      _ = !aluZero (alu .sltu a b) := by simp [branchTaken, branchOp]
      _ = decide (a.toNat < b.toNat) := by rw [aluZero_sltu, Bool.not_not]

theorem branchTaken_bgeu (a b : Word) : branchTaken 0b111 a b = decide (a.toNat ≥ b.toNat) := by
  calc branchTaken 0b111 a b
      _ = aluZero (alu .sltu a b) := by simp [branchTaken, branchOp]
      _ = decide (a.toNat ≥ b.toNat) := by rw [aluZero_sltu, ← decide_not, decide_eq_decide, Nat.not_lt]

/-! ## What a branch moves and leaves -/

/-- An instruction whose answer is the state before with another pc only moves the pc. -/
theorem onlyMovesPc_of_setPc {i : Instr} {s : State} {target : Word} (h : exec i s = .next (setPc s target)) :
    OnlyMovesPc i s target :=
  ⟨setPc s target, h, setPc_pc s target, fun _ => rfl, fun _ => rfl, fun _ => ⟨rfl, rfl⟩, setPc_config s target⟩

/-- A branch of condition `p` only moves the pc, to its target where `p` holds and to the next word where not. -/
theorem onlyMovesPc_of_branch {i : Instr} {s : State} {f3 : BitVec 3} {rs1 rs2 : RegIdx} {offset : BitVec 13} {p : Prop}
    [Decidable p] (h : exec i s = branch f3 rs1 rs2 offset s) (hp : branchTaken f3 (getReg s rs1) (getReg s rs2) = decide p) :
    OnlyMovesPc i s (if p then s.pc + offset.signExtend 32 else s.pc + 4) := by
  apply onlyMovesPc_of_setPc
  rw [h, branch, hp]
  by_cases hc : p
  case pos => rw [decide_eq_true hc, if_pos rfl, if_pos hc]; rfl
  case neg => rw [decide_eq_false hc, if_neg Bool.false_ne_true, if_neg hc]; rfl

/-! ## Spelling (30_encoding.md R143) -/

/-- A BRANCH word is decoded by its funct3. -/
theorem decodeWord_of_branch {w : Word} (h : opcodeOf w = 0b1100011) : decodeWord w = decodeBranch w := by
  simp only [decodeWord, h]
  rfl

/-- An instruction encoded in the B format with opcode BRANCH and an even offset is spelled by its funct3 once the decoder reads it
back. -/
theorem spelledAs_branch {i : Instr} {f3 : BitVec 3} {rs1 rs2 : RegIdx} {offset : BitVec 13} (heven : evenOffset offset = true)
    (he : encode i = encodeB f3 0b1100011 rs1 rs2 offset) (ht : Laws.TableRow.Statement i)
    (hd : ∀ w, funct3Of w = f3 → rs1Of w = rs1 → rs2Of w = rs2 → immBOf w = offset → decodeBranch w = .ok i) :
    SpelledAs i i.mnemonic 0b1100011 (some f3) := by
  obtain ⟨hop, hf3, hrs1, hrs2, himm⟩ := fields_encodeB f3 0b1100011 rs1 rs2 offset heven
  rw [← he] at hop hf3 hrs1 hrs2 himm
  have hne : opcodeOf (encode i) ≠ 0b1110011 := by
    rw [hop]
    decide
  have hdecode : decodeWord (encode i) = .ok i := by
    rw [decodeWord_of_branch hop, hd _ hf3 hrs1 hrs2 himm]
  exact ⟨hop, fun _ h => hf3.trans (Option.some.inj h), firstRow_encode ht (.inl hne), hdecode⟩

/-! ## The statement -/

/-- Settles O27: each of the six is `branch` at its funct3, whose condition the `branchTaken_` lemma of its name gives. -/
theorem branchResults : Obligations.BranchResults := by
  intro s rs1 rs2 offset
  refine ⟨fun heven => ?spelled,
    onlyMovesPc_of_branch rfl (branchTaken_beq _ _), onlyMovesPc_of_branch rfl (branchTaken_bne _ _),
    onlyMovesPc_of_branch rfl (branchTaken_blt _ _), onlyMovesPc_of_branch rfl (branchTaken_bge _ _),
    onlyMovesPc_of_branch rfl (branchTaken_bltu _ _), onlyMovesPc_of_branch rfl (branchTaken_bgeu _ _)⟩
  case spelled =>
    refine ⟨spelledAs_branch heven rfl (Laws.TableRow.beq rs1 rs2 offset) ?_,
      spelledAs_branch heven rfl (Laws.TableRow.bne rs1 rs2 offset) ?_,
      spelledAs_branch heven rfl (Laws.TableRow.blt rs1 rs2 offset) ?_,
      spelledAs_branch heven rfl (Laws.TableRow.bge rs1 rs2 offset) ?_,
      spelledAs_branch heven rfl (Laws.TableRow.bltu rs1 rs2 offset) ?_,
      spelledAs_branch heven rfl (Laws.TableRow.bgeu rs1 rs2 offset) ?_⟩
    -- what is left is the decoder's answer to each funct3 (R143)
    all_goals
      intro w hf3 hrs1 hrs2 himm
      simp only [decodeBranch, hf3, hrs1, hrs2, himm]
      rfl

end Sys2Proof.Machine
end

section
/-! Statements about loads and stores (43_load_store.md): which accesses trap as misaligned (R261), and the pc and the CSRs of those
that do not. -/

namespace Sys2Proof.Machine

/-! ## A misaligned access (R261) -/

theorem not_aligned_half {a : Word} (h : a.toNat % 4 = 3) : aligned a .half = false :=
  Bool.eq_false_iff.mpr fun ha => aligned_half.mp ha h

/-- A misaligned load takes trap 4, at its own pc. -/
theorem trapTaken_of_load_misaligned {i : Instr} {s : State} {n : Width} {signed : Bool} {rd : RegIdx} {a : Word}
    (h : exec i s = load n signed rd a s) (ha : aligned a n = false) :
    ∃ t, exec i s = .next t ∧ TrapTaken .loadAddressMisaligned 4 s.pc s t := by
  refine ⟨takeTrap .loadAddressMisaligned s.pc s, ?_, trapTaken_takeTrap _ s.pc s⟩
  rw [h, load, ha, if_neg Bool.false_ne_true]

/-- A misaligned store takes trap 6, at its own pc. -/
theorem trapTaken_of_store_misaligned {i : Instr} {s : State} {n : Width} {a v : Word}
    (h : exec i s = store n a v s) (ha : aligned a n = false) :
    ∃ t, exec i s = .next t ∧ TrapTaken .storeAddressMisaligned 6 s.pc s t := by
  refine ⟨takeTrap .storeAddressMisaligned s.pc s, ?_, trapTaken_takeTrap _ s.pc s⟩
  rw [h, store, ha, if_neg Bool.false_ne_true]

/-! ## An aligned access that completes (R262, R263) -/

/-- An aligned load that completes goes to the next word and leaves every CSR. -/
theorem load_aligned_pc_csr {s t : State} {n : Width} {signed : Bool} {rd : RegIdx} {a : Word} (ha : aligned a n = true)
    (h : load n signed rd a s = .next t) : t.pc = s.pc + 4 ∧ t.csr = s.csr := by
  cases hr : memRead .data a n s with
  | ok v =>
    rw [load_eq_next ha hr] at h
    cases h
    simp
  | error f =>
    rw [load_eq_fault ha hr] at h
    cases h

/-- An aligned store that completes goes to the next word and leaves every CSR. -/
theorem store_aligned_pc_csr {s t : State} {n : Width} {a v : Word} (ha : aligned a n = true)
    (h : store n a v s = .next t) : t.pc = s.pc + 4 ∧ t.csr = s.csr := by
  cases hw : memWrite a n v s with
  | ok u =>
    obtain ⟨hin, -⟩ := memWrite_eq_ok.mp hw
    rw [store_eq_next ha hin] at h
    cases h
    exact ⟨rfl, rfl⟩
  | error f =>
    rw [store_eq_fault ha hw] at h
    cases h

/-! ## The statement -/

/-- Settles O30: each of the eight is `load` or `store` at its width, which traps where `aligned` fails (R261) and where it holds
moves the pc and no CSR. -/
theorem misalignedAccessTraps : Obligations.MisalignedAccessTraps := by
  intro s rd rs1 rs2 imm
  refine ⟨fun ha => ⟨trapTaken_of_load_misaligned (exec_lh ..) (not_aligned_half ha),
      trapTaken_of_load_misaligned (exec_lhu ..) (not_aligned_half ha)⟩,
    fun ha => trapTaken_of_load_misaligned (exec_lw ..) (not_aligned_word ha),
    fun ha => trapTaken_of_store_misaligned (exec_sh ..) (not_aligned_half ha),
    fun ha => trapTaken_of_store_misaligned (exec_sw ..) (not_aligned_word ha), fun i t h hi => ?completes⟩
  case completes =>
    simp only [List.mem_cons, List.not_mem_nil, or_false] at hi
    obtain (rfl | rfl | rfl) | ⟨rfl | rfl, ha⟩ | ⟨rfl, ha⟩ | ⟨rfl, ha⟩ | ⟨rfl, ha⟩ := hi
    · exact load_aligned_pc_csr (aligned_byte _) h -- LB
    · exact load_aligned_pc_csr (aligned_byte _) h -- LBU
    · exact store_aligned_pc_csr (aligned_byte _) h -- SB
    · exact load_aligned_pc_csr (aligned_half.mpr ha) h -- LH
    · exact load_aligned_pc_csr (aligned_half.mpr ha) h -- LHU
    · exact load_aligned_pc_csr (aligned_word.mpr ha) h -- LW
    · exact store_aligned_pc_csr (aligned_half.mpr ha) h -- SH
    · exact store_aligned_pc_csr (aligned_word.mpr ha) h -- SW

end Sys2Proof.Machine
end

section
/-! Statements about the SYSTEM instructions (44_system.md): the spelling of the class, a CSR write function as one store (R291,
R292), and what MRET changes (R306). -/

namespace Sys2Proof.Machine

/-! ## Spelling (30_encoding.md R147, R149) -/

/-- No row of the table looks at a bit outside opcode, funct3 and inst[31:20]. -/
theorem rowMask_within_csr_fields : ∀ r ∈ opcodeTable, 0xFFF0707F &&& r.mask = r.mask := by decide

/-- So those bits alone say which row covers a word first. -/
theorem firstRow_masked (w : Word) : firstRow (w &&& 0xFFF0707F) = firstRow w := by
  have hcovers : ∀ r ∈ opcodeTable, r.covers (w &&& 0xFFF0707F) = r.covers w := by
    intro r hr
    rw [Row.covers, Row.covers, BitVec.and_assoc, rowMask_within_csr_fields r hr]
  rw [firstRow, firstRow, List.find?_congr hcovers]

/-- A SYSTEM word is decoded by its funct3 and its CSR number, and never refused. -/
theorem decodeWord_of_system {w : Word} (h : opcodeOf w = 0b1110011) : decodeWord w = .ok (decodeSystem w) := by
  simp only [decodeWord, h]
  rfl

/-- An instruction encoded in the I format with opcode SYSTEM is spelled by its funct3 once its row comes first and the decoder reads it
back. -/
theorem spelledAs_system {i : Instr} {f3 : BitVec 3} {rd rs1 : RegIdx} {csr : CsrNum}
    (he : encode i = encodeI f3 0b1110011 rd rs1 csr) (hrow : firstRow (encode i) = some i.mnemonic)
    (hd : ∀ w, funct3Of w = f3 → csrOf w = csr → rdOf w = rd → rs1Of w = rs1 → decodeSystem w = i) :
    SpelledAs i i.mnemonic 0b1110011 (some f3) := by
  obtain ⟨hop, hf3, hrd, hrs1, -, hcsr⟩ := fields_encodeI f3 0b1110011 rd rs1 csr
  rw [← he] at hop hf3 hrd hrs1 hcsr
  have hdecode : decodeWord (encode i) = .ok i := by
    rw [decodeWord_of_system hop, hd _ hf3 hcsr hrd hrs1]
  exact ⟨hop, fun _ h => hf3.trans (Option.some.inj h), hrow, hdecode⟩

/-- A SYSTEM instruction whose funct3 is not 000 has no rival row, whatever its CSR number. -/
theorem spelledAs_csr {i : Instr} {f3 : BitVec 3} {rd rs1 : RegIdx} {csr : CsrNum} (hne : f3 ≠ 0b000)
    (he : encode i = encodeI f3 0b1110011 rd rs1 csr) (ht : Laws.TableRow.Statement i)
    (hd : ∀ w, funct3Of w = f3 → csrOf w = csr → rdOf w = rd → rs1Of w = rs1 → decodeSystem w = i) :
    SpelledAs i i.mnemonic 0b1110011 (some f3) := by
  obtain ⟨-, hf3, -⟩ := fields_encodeI f3 0b1110011 rd rs1 csr
  rw [← he] at hf3
  rw [← hf3] at hne
  exact spelledAs_system he (firstRow_encode ht (.inr hne)) hd

/-- The rows of ECALL, EBREAK and the read form look at opcode and funct3 too, but MRET's comes before the last and differs from the
others in the CSR number. -/
theorem firstRow_mret (rd rs1 : RegIdx) : firstRow (encode (.mret rd rs1)) = some "mret" := by
  have hmasked : encode (.mret rd rs1) &&& 0xFFF0707F = 0x30200073 := by
    obtain ⟨hop, hf3, -, -, -, hcsr⟩ := fields_encodeI 0b000 0b1110011 rd rs1 0x302
    rw [mask_csr, encode, hop, hf3, hcsr]
    decide
  rw [← firstRow_masked, hmasked]
  decide

theorem spelledAs_mret (rd rs1 : RegIdx) : SpelledAs (.mret rd rs1) "mret" 0b1110011 (some 0b000) := by
  refine spelledAs_system rfl (firstRow_mret rd rs1) ?_
  intro w hf3 hcsr hrd hrs1
  simp only [decodeSystem, hf3, hcsr, hrd, hrs1]
  rfl

/-! ## A write function as one store (R291, R292) -/

/-- A field is read back from where it is laid. -/
theorem extractLsb'_place {n m lo : Nat} (v : BitVec n) (h : lo + n ≤ m) : (place m lo v).extractLsb' lo n = v := by
  apply BitVec.eq_of_toNat_eq
  rw [toNat_extractLsb'_eq_div_mod, toNat_place v h, Nat.mul_div_cancel _ (Nat.two_pow_pos lo), Nat.mod_eq_of_lt v.isLt]

/-- A field as wide as the word is the word. -/
theorem place_self {m : Nat} (v : BitVec m) : place m 0 v = v := BitVec.eq_of_toNat_eq (toNat_place_zero v (Nat.le_refl m))

/-- A field leaves the bits outside its range 0. -/
theorem extractLsb'_place_of_disjoint {k n m lo lo' : Nat} (v : BitVec n) (h : lo + n ≤ lo' ∨ lo' + k ≤ lo) :
    (place m lo v).extractLsb' lo' k = 0 := by
  refine BitVec.eq_of_getLsbD_eq fun i hi => ?_
  have hout : lo' + i < lo ∨ n ≤ lo' + i - lo := by omega
  rw [BitVec.getLsbD_extractLsb', getLsbD_place]
  rcases hout with h | h <;> simp [h]

/-- Storing a register's own value changes nothing: each field is read back from its place, past the other. -/
theorem csrStore_csrValue (c : CsrBank) (n : CsrName) : csrStore c (csrValue c n) n = c := by
  cases n <;>
    simp [csrStore, csrValue, BitVec.extractLsb'_or, extractLsb'_place, extractLsb'_place_of_disjoint, place_self]

section
variable {m : CsrAddr} {a : CsrNum} {n : CsrName} (hn : csrNamed m a = some n) (c : CsrBank) (op : Word)
include hn

theorem csrRead_of_named : csrRead m c a = csrValue c n := by
  rw [csrRead, hn]

theorem csrApply_write : csrApply m c a .write op = csrStore c op n := by
  rw [csrApply, hn]
  rfl

/-- SET stores the OR; that it skips the store for operand 0 does not show. -/
theorem csrApply_set : csrApply m c a .set op = csrStore c (op ||| csrValue c n) n := by
  by_cases h : op = 0
  case pos =>
    have hsame : op ||| csrValue c n = csrValue c n := by rw [h]; exact BitVec.zero_or
    rw [hsame, csrStore_csrValue]
    simp only [csrApply, hn, csrNew, h, if_true]
  case neg => simp only [csrApply, hn, csrNew, h, if_false]

/-- CLEAR stores the AND NOT; that it skips the store for operand 0 does not show. -/
theorem csrApply_clear : csrApply m c a .clear op = csrStore c (~~~op &&& csrValue c n) n := by
  by_cases h : op = 0
  case pos =>
    have hsame : ~~~op &&& csrValue c n = csrValue c n := by rw [h]; exact BitVec.allOnes_and
    rw [hsame, csrStore_csrValue]
    simp only [csrApply, hn, csrNew, h, if_true]
  case neg => simp only [csrApply, hn, csrNew, h, if_false]

end

/-- A CSR instruction whose write function stores `new` into the register does what `AppliesCsr` says (R293, R296). -/
theorem appliesCsr_of_csrStore {i : Instr} {s : State} {fn : CsrFn} {rd : RegIdx} {csr : CsrNum} {op new : Word} {n : CsrName}
    (h : exec i s = csrInstruction fn rd csr op s) (hn : csrNamed s.config.csrAddr csr = some n)
    (happly : csrApply s.config.csrAddr s.csr csr fn op = csrStore s.csr new n) : AppliesCsr i s rd n new := by
  have hnext : exec i s = .next (advance (setReg { s with csr := csrStore s.csr new n } rd (csrValue s.csr n))) := by
    rw [h, csrInstruction, csrRead_of_named hn, happly]
  refine ⟨_, hnext, registerWritten_setReg _ rd (csrValue s.csr n), ?pc, ?value, ?others, ?bytes, ?config⟩
  case pc => rw [advance_pc, setReg_pc]
  case value => rw [advance_csr, setReg_csr]; exact csrValue_csrStore s.csr new n
  case others => intro k hk; rw [advance_csr, setReg_csr]; exact csrValue_csrStore_ne s.csr new n k hk
  case bytes => intro x; rw [advance_mem, advance_flash, setReg_mem, setReg_flash]; exact ⟨rfl, rfl⟩
  case config => rw [advance_config, setReg_config]

/-! ## The statements -/

/-- Settles O35: each of the six is `csrInstruction` at its write function, which stores the operand, the OR or the AND NOT
(`csrApply_write`, `csrApply_set`, `csrApply_clear`). -/
theorem csrInstructionResults : Obligations.CsrInstructionResults := by
  intro s rd rs1 zimm csr n hn
  refine ⟨
    ⟨spelledAs_csr (by decide) rfl (Laws.TableRow.csrrw rd csr rs1) ?_, appliesCsr_of_csrStore rfl hn (csrApply_write hn _ _)⟩,
    ⟨spelledAs_csr (by decide) rfl (Laws.TableRow.csrrs rd csr rs1) ?_, appliesCsr_of_csrStore rfl hn (csrApply_set hn _ _)⟩,
    ⟨spelledAs_csr (by decide) rfl (Laws.TableRow.csrrc rd csr rs1) ?_, appliesCsr_of_csrStore rfl hn (csrApply_clear hn _ _)⟩,
    ⟨spelledAs_csr (by decide) rfl (Laws.TableRow.csrrwi rd csr zimm) ?_, appliesCsr_of_csrStore rfl hn (csrApply_write hn _ _)⟩,
    ⟨spelledAs_csr (by decide) rfl (Laws.TableRow.csrrsi rd csr zimm) ?_, appliesCsr_of_csrStore rfl hn (csrApply_set hn _ _)⟩,
    ⟨spelledAs_csr (by decide) rfl (Laws.TableRow.csrrci rd csr zimm) ?_, appliesCsr_of_csrStore rfl hn (csrApply_clear hn _ _)⟩⟩
  -- what is left is the decoder's answer to each funct3 (R147)
  all_goals
    intro w hf3 hcsr hrd hrs1
    simp only [decodeSystem, hf3, hcsr, hrd, hrs1]
    rfl

/-- Settles O40: MRET is `trapReturn`, whose pc is mepc's field laid at bit 2 and whose only other change is mie. -/
theorem mretResult : Obligations.MretResult := by
  intro s rd rs1
  obtain ⟨-, -, -, -, -, hcsr⟩ := fields_encodeI 0b000 0b1110011 rd rs1 0x302
  refine ⟨spelledAs_mret rd rs1, hcsr, trapReturn s, rfl, rfl, rfl, ?pc, rfl, rfl, rfl, rfl, rfl, ?registers, ?bytes, rfl⟩
  case pc => rw [trapReturn_pc, toNat_place s.csr.mepc.epc (by decide)]; exact Nat.mul_comm _ 4
  case registers => exact getReg_trapReturn s
  case bytes => exact fun _ => ⟨rfl, rfl⟩

end Sys2Proof.Machine
end

section
/-! Statements about exceptions (60_exceptions.md): what TRAP ENTRY does for every cause (R336), and that only a CSR instruction
writes mtval or mtvec (R338, 10_state.md R43). -/

namespace Sys2Proof.Machine

/-- Settles O41: `takeTrap` is one record update, so every cause leaves the state of `TrapTaken` (`trapTaken_takeTrap`). -/
theorem trapEntryEffect : Obligations.TrapEntryEffect := trapTaken_takeTrap

/-- An instruction changes mtval or mtvec only by a CSR write that names it: of the other ways to change the bank (`exec_csr`), a trap
and MRET write neither. -/
theorem exec_mtval_mtvec {i : Instr} {s t : State} (h : exec i s = .next t) :
    (t.csr.mtval ≠ s.csr.mtval → ∃ a, csrWritten i = some a ∧ csrNamed s.config.csrAddr a = some .mtval) ∧
    (t.csr.mtvec ≠ s.csr.mtvec → ∃ a, csrWritten i = some a ∧ csrNamed s.config.csrAddr a = some .mtvec) := by
  obtain hcsr | ⟨a, fn, op, hw, hcsr⟩ | ⟨c, -, rfl⟩ | rfl := exec_csr h
  · rw [hcsr]
    exact ⟨absurd rfl, absurd rfl⟩
  · obtain ⟨-, -, hmtval, hmtvec, -⟩ := csrApply_same s.config.csrAddr s.csr a fn op
    rw [hcsr]
    exact ⟨fun hne => ⟨a, hw, not_imp_comm.mp hmtval hne⟩, fun hne => ⟨a, hw, not_imp_comm.mp hmtvec hne⟩⟩
  · exact ⟨absurd (takeTrap_mtval c s.pc s), absurd (takeTrap_mtvec c s.pc s)⟩
  · exact ⟨absurd rfl, absurd rfl⟩

/-- Settles O43: the step is the trap of a misaligned pc, which writes neither, or `exec` of the fetched word's instruction, where
fetching and counting leave both (`exec_mtval_mtvec`). -/
theorem mtvalAndMtvecOnlyByCsr : Obligations.MtvalAndMtvecOnlyByCsr := by
  intro s t hs h
  obtain ⟨-, rfl⟩ | ⟨w, i, -, hf, hd, hx⟩ := step_cases_fetch hs h
  case inl => exact ⟨absurd (takeTrap_mtval _ s.pc s), absurd (takeTrap_mtvec _ s.pc s)⟩
  case inr =>
    have hexec := exec_mtval_mtvec hx
    simp only [quiesce_csr, latch_csr, afterRead_csr, quiesce_config, latch_config, afterRead_config] at hexec
    obtain ⟨hmtval, hmtvec⟩ := hexec
    constructor <;> intro hne
    · obtain ⟨a, hw, hn⟩ := hmtval hne
      exact ⟨w, i, a, hf, hd, hw, hn⟩
    · obtain ⟨a, hw, hn⟩ := hmtvec hne
      exact ⟨w, i, a, hf, hd, hw, hn⟩

end Sys2Proof.Machine
end

section
/-! Statements about the encoding (30_encoding.md): the decoder undoes the encoder format by format, and the rows of the opcode table are
told apart by the bits they look at. -/

namespace Sys2Proof.Machine

/-! ## Decoding an encoded word, format by format (R132) -/

theorem decodeWord_encode_of_formatR {i : Instr} {f7 : BitVec 7} {f3 : BitVec 3} {op : BitVec 7} {rd rs1 rs2 : RegIdx}
    (he : encode i = encodeR f7 f3 op rd rs1 rs2)
    (hd : ∀ w, opcodeOf w = op → funct3Of w = f3 → funct7Of w = f7 → rdOf w = rd → rs1Of w = rs1 → rs2Of w = rs2 →
      decodeWord w = .ok i) : decodeWord (encode i) = .ok i := by
  obtain ⟨hop, hf3, hf7, hrd, hrs1, hrs2⟩ := fields_encodeR f7 f3 op rd rs1 rs2
  rw [he]
  exact hd _ hop hf3 hf7 hrd hrs1 hrs2

theorem decodeWord_encode_of_formatI {i : Instr} {f3 : BitVec 3} {op : BitVec 7} {rd rs1 : RegIdx} {imm : BitVec 12}
    (he : encode i = encodeI f3 op rd rs1 imm)
    (hd : ∀ w, opcodeOf w = op → funct3Of w = f3 → rdOf w = rd → rs1Of w = rs1 → immIOf w = imm → csrOf w = imm →
      decodeWord w = .ok i) : decodeWord (encode i) = .ok i := by
  obtain ⟨hop, hf3, hrd, hrs1, himm, hcsr⟩ := fields_encodeI f3 op rd rs1 imm
  rw [he]
  exact hd _ hop hf3 hrd hrs1 himm hcsr

theorem decodeWord_encode_of_formatS {i : Instr} {f3 : BitVec 3} {op : BitVec 7} {rs1 rs2 : RegIdx} {imm : BitVec 12}
    (he : encode i = encodeS f3 op rs1 rs2 imm)
    (hd : ∀ w, opcodeOf w = op → funct3Of w = f3 → rs1Of w = rs1 → rs2Of w = rs2 → immSOf w = imm → decodeWord w = .ok i) :
    decodeWord (encode i) = .ok i := by
  obtain ⟨hop, hf3, hrs1, hrs2, himm⟩ := fields_encodeS f3 op rs1 rs2 imm
  rw [he]
  exact hd _ hop hf3 hrs1 hrs2 himm

theorem decodeWord_encode_of_formatB {i : Instr} {f3 : BitVec 3} {op : BitVec 7} {rs1 rs2 : RegIdx} {offset : BitVec 13}
    (heven : evenOffset offset = true) (he : encode i = encodeB f3 op rs1 rs2 offset)
    (hd : ∀ w, opcodeOf w = op → funct3Of w = f3 → rs1Of w = rs1 → rs2Of w = rs2 → immBOf w = offset →
      decodeWord w = .ok i) : decodeWord (encode i) = .ok i := by
  obtain ⟨hop, hf3, hrs1, hrs2, himm⟩ := fields_encodeB f3 op rs1 rs2 offset heven
  rw [he]
  exact hd _ hop hf3 hrs1 hrs2 himm

theorem decodeWord_encode_of_formatU {i : Instr} {op : BitVec 7} {rd : RegIdx} {imm : BitVec 20}
    (he : encode i = encodeU op rd imm)
    (hd : ∀ w, opcodeOf w = op → rdOf w = rd → immUOf w = imm → decodeWord w = .ok i) : decodeWord (encode i) = .ok i := by
  obtain ⟨hop, hrd, himm⟩ := fields_encodeU op rd imm
  rw [he]
  exact hd _ hop hrd himm

theorem decodeWord_encode_of_formatJ {i : Instr} {op : BitVec 7} {rd : RegIdx} {offset : BitVec 21}
    (heven : evenOffset offset = true) (he : encode i = encodeJ op rd offset)
    (hd : ∀ w, opcodeOf w = op → rdOf w = rd → immJOf w = offset → decodeWord w = .ok i) : decodeWord (encode i) = .ok i := by
  obtain ⟨hop, hrd, himm⟩ := fields_encodeJ op rd offset heven
  rw [he]
  exact hd _ hop hrd himm

/-- The read form of funct3 000 is what is left when the number is none of the three trap selectors (R147). -/
theorem decodeSystem_of_readForm {w : Word} (hf3 : funct3Of w = 0b000) (hcsr : isTrapSelector (csrOf w) = false) :
    decodeSystem w = .csrReadF000 (rdOf w) (csrOf w) (rs1Of w) := by
  simp only [isTrapSelector, Bool.or_eq_false_iff, beq_eq_false_iff_ne] at hcsr
  obtain ⟨⟨h0, h1⟩, h2⟩ := hcsr
  simp only [decodeSystem, hf3, BitVec.ofNat_eq_ofNat]
  split
  · rename_i h; exact absurd h h0
  · rename_i h; exact absurd h h1
  · rename_i h; exact absurd h h2
  · rfl

/-- Settles O1: each constructor has one of the six formats, and the decoder reads it from the format's fields. -/
theorem decodeOfEncode : Obligations.DecodeOfEncode := by
  intro i hw
  cases i
  case lui | auipc =>
    refine decodeWord_encode_of_formatU rfl ?_
    intro w hop hrd himm
    simp only [decodeWord, hop, hrd, himm]
    rfl
  case jal =>
    refine decodeWord_encode_of_formatJ hw rfl ?_
    intro w hop hrd himm
    simp only [decodeWord, hop, hrd, himm]
    rfl
  case beq | bne | blt | bge | bltu | bgeu =>
    refine decodeWord_encode_of_formatB hw rfl ?_
    intro w hop hf3 hrs1 hrs2 himm
    simp only [decodeWord, decodeBranch, hop, hf3, hrs1, hrs2, himm]
    rfl
  case sb | sh | sw =>
    refine decodeWord_encode_of_formatS rfl ?_
    intro w hop hf3 hrs1 hrs2 himm
    simp only [decodeWord, decodeStore, hop, hf3, hrs1, hrs2, himm]
    rfl
  case slli | srli | srai | add | sub | sll | slt | sltu | xor | srl | sra | or | and =>
    refine decodeWord_encode_of_formatR rfl ?_
    intro w hop hf3 hf7 hrd hrs1 hrs2
    simp only [decodeWord, decodeOp, decodeOpImm, hop, hf3, hf7, hrd, hrs1, hrs2]
    rfl
  case jalr | lb | lh | lw | lbu | lhu | addi | slti | sltiu | xori | ori | andi =>
    refine decodeWord_encode_of_formatI rfl ?_
    intro w hop hf3 hrd hrs1 himm _
    simp only [decodeWord, decodeLoad, decodeOpImm, hop, hf3, hrd, hrs1, himm]
    rfl
  case fence fm pred succ rs1 rd =>
    refine decodeWord_encode_of_formatI rfl ?_
    intro w hop hf3 hrd hrs1 himm _
    obtain ⟨hfm, hpred, hsucc⟩ := fields_fence w fm pred succ himm
    simp only [decodeWord, decodeMiscMem, hop, hf3, hrd, hrs1, hfm, hpred, hsucc]
    rfl
  case ecall | ebreak | mret | csrrw | csrrs | csrrc | csrrwi | csrrsi | csrrci | csrReadF100 =>
    refine decodeWord_encode_of_formatI rfl ?_
    intro w hop hf3 hrd hrs1 _ hcsr
    simp only [decodeWord_of_system hop, decodeSystem, hf3, hrd, hrs1, hcsr]
    rfl
  case csrReadF000 rd csr rs1 =>
    refine decodeWord_encode_of_formatI rfl ?_
    intro w hop hf3 hrd hrs1 _ hcsr
    have hsel : isTrapSelector csr = false := by simpa [Instr.wellFormed] using hw
    rw [decodeWord_of_system hop, decodeSystem_of_readForm hf3 (by rw [hcsr]; exact hsel), hrd, hcsr, hrs1]

end Sys2Proof.Machine
end

section
/-! Statements about the decoder (30_encoding.md R140 to R151): a word is spelled by the instruction decoded, class by class; which words
each class refuses; and the order of the opcode table. -/

namespace Sys2Proof.Machine

/-! ## Classes (R140) -/

theorem funct3_cases (f : BitVec 3) :
    f = 0b000 ∨ f = 0b001 ∨ f = 0b010 ∨ f = 0b011 ∨ f = 0b100 ∨ f = 0b101 ∨ f = 0b110 ∨ f = 0b111 := by
  revert f
  decide

theorem decodeWord_of_opImm {w : Word} (h : opcodeOf w = 0b0010011) : decodeWord w = decodeOpImm w := by
  simp only [decodeWord, h]
  rfl

/-! ## A word is its decoded instruction's -/

/-- The word is the one that the instruction spells. -/
def SpelledBy (w : Word) (i : Instr) : Prop := i.wellFormed = true ∧ encode i = w

theorem spelledBy_of_branch {w : Word} {i : Instr} (hop : opcodeOf w = 0b1100011) (h : decodeBranch w = .ok i) :
    SpelledBy w i := by
  have hw := encodeB_fields w
  unfold decodeBranch at h
  split at h <;> rename_i hf <;> cases h
  all_goals
    rw [hop, hf] at hw
    exact ⟨evenOffset_immBOf w, hw⟩

theorem spelledBy_of_load {w : Word} {i : Instr} (hop : opcodeOf w = 0b0000011) (h : decodeLoad w = .ok i) :
    SpelledBy w i := by
  have hw := encodeI_fields w
  unfold decodeLoad at h
  split at h <;> rename_i hf <;> cases h
  all_goals
    rw [hop, hf] at hw
    exact ⟨rfl, hw⟩

theorem spelledBy_of_store {w : Word} {i : Instr} (hop : opcodeOf w = 0b0100011) (h : decodeStore w = .ok i) :
    SpelledBy w i := by
  have hw := encodeS_fields w
  unfold decodeStore at h
  split at h <;> rename_i hf <;> cases h
  all_goals
    rw [hop, hf] at hw
    exact ⟨rfl, hw⟩

theorem spelledBy_of_miscMem {w : Word} {i : Instr} (hop : opcodeOf w = 0b0001111) (h : decodeMiscMem w = .ok i) :
    SpelledBy w i := by
  have hw := encodeI_fields w
  unfold decodeMiscMem at h
  split at h <;> rename_i hf <;> cases h
  rw [hop, hf, ← fenceFields w] at hw
  exact ⟨rfl, hw⟩

/-- An OP word by its funct7, which is 0000000 or 0100000 where the word is accepted (R142). -/
theorem spelledBy_of_op {w : Word} {i : Instr} (hop : opcodeOf w = 0b0110011) (h : decodeOp w = .ok i) : SpelledBy w i := by
  have hw := encodeR_fields w
  unfold decodeOp at h
  split at h <;> rename_i hf7
  case h_3 => cases h
  all_goals
    rcases funct3_cases (funct3Of w) with hf | hf | hf | hf | hf | hf | hf | hf
  all_goals
    rw [hop, hf7, hf] at hw
    rw [hf] at h
    cases h
  all_goals exact ⟨rfl, hw⟩

/-- An OP-IMM word, a shift by its upper bits too (R141). -/
theorem spelledBy_of_opImm {w : Word} {i : Instr} (hop : opcodeOf w = 0b0010011) (h : decodeOpImm w = .ok i) :
    SpelledBy w i := by
  have hR := encodeR_fields w
  have hI := encodeI_fields w
  rw [hop] at hR hI
  rcases funct3_cases (funct3Of w) with hf | hf | hf | hf | hf | hf | hf | hf
  all_goals
    rw [hf] at hR hI
    simp only [decodeOpImm, hf, BitVec.ofNat_eq_ofNat, BitVec.reduceEq, imp_self] at h
  case inr.inl | inr.inr.inr.inr.inr.inl =>
    split at h <;> rename_i hf7 <;> cases h
    all_goals
      rw [hf7] at hR
      exact ⟨rfl, hR⟩
  all_goals
    cases h
    exact ⟨rfl, hI⟩

/-- A SYSTEM word of funct3 000 by its number, every other by its funct3 (R147). -/
theorem spelledBy_decodeSystem {w : Word} (hop : opcodeOf w = 0b1110011) : SpelledBy w (decodeSystem w) := by
  have hw := encodeI_fields w
  rw [hop, show immIOf w = csrOf w from rfl] at hw
  rcases funct3_cases (funct3Of w) with hf | hf | hf | hf | hf | hf | hf | hf
  all_goals
    rw [hf] at hw
    simp only [decodeSystem, hf, BitVec.ofNat_eq_ofNat]
  case inl =>
    split
    case h_4 h0 h1 h2 =>
      refine ⟨?_, hw⟩
      simp only [Instr.wellFormed, isTrapSelector, Bool.not_eq_true', Bool.or_eq_false_iff, beq_eq_false_iff_ne]
      exact ⟨⟨h0, h1⟩, h2⟩
    all_goals
      rename_i hcsr
      rw [hcsr] at hw
      exact ⟨rfl, hw⟩
  all_goals exact ⟨rfl, hw⟩

/-- Settles O2: by the class of the word's opcode, each format being the word's own fields put back. -/
theorem encodeOfDecode : Obligations.EncodeOfDecode := by
  intro w i h
  have hU := encodeU_fields w
  have hJ := encodeJ_fields w
  have hI := encodeI_fields w
  unfold decodeWord at h
  split at h <;> rename_i hop
  case h_1 | h_2 =>
    rw [hop] at hU
    cases h
    exact ⟨rfl, hU⟩
  case h_3 => exact spelledBy_of_opImm hop h
  case h_4 => exact spelledBy_of_op hop h
  case h_5 =>
    rw [hop] at hJ
    cases h
    exact ⟨evenOffset_immJOf w, hJ⟩
  case h_6 =>
    split at h
    case h_2 => cases h
    case h_1 hf =>
      rw [hop, hf] at hI
      cases h
      exact ⟨rfl, hI⟩
  case h_7 => exact spelledBy_of_branch hop h
  case h_8 => exact spelledBy_of_load hop h
  case h_9 => exact spelledBy_of_store hop h
  case h_10 => exact spelledBy_of_miscMem hop h
  case h_11 =>
    cases h
    exact spelledBy_decodeSystem hop
  case h_12 => cases h

/-! ## What each class refuses (R151) -/

theorem decodeBranch_eq_error {w : Word} {stage : Stage} :
    decodeBranch w = .error stage ↔ stage = .funct3 ∧ funct3Of w ∈ [0b010, 0b011] := by
  rcases funct3_cases (funct3Of w) with hf | hf | hf | hf | hf | hf | hf | hf <;>
    simp [decodeBranch, hf, eq_comm]

theorem decodeLoad_eq_error {w : Word} {stage : Stage} :
    decodeLoad w = .error stage ↔ stage = .funct3 ∧ funct3Of w ∈ [0b011, 0b110, 0b111] := by
  rcases funct3_cases (funct3Of w) with hf | hf | hf | hf | hf | hf | hf | hf <;>
    simp [decodeLoad, hf, eq_comm]

theorem decodeStore_eq_error {w : Word} {stage : Stage} :
    decodeStore w = .error stage ↔ stage = .funct3 ∧ funct3Of w ∈ [0b011, 0b100, 0b101, 0b110, 0b111] := by
  rcases funct3_cases (funct3Of w) with hf | hf | hf | hf | hf | hf | hf | hf <;>
    simp [decodeStore, hf, eq_comm]

theorem decodeMiscMem_eq_error {w : Word} {stage : Stage} :
    decodeMiscMem w = .error stage ↔ stage = .funct3 ∧ funct3Of w ≠ 0b000 := by
  rcases funct3_cases (funct3Of w) with hf | hf | hf | hf | hf | hf | hf | hf <;>
    simp [decodeMiscMem, hf, eq_comm]

theorem decodeOp_eq_error {w : Word} {stage : Stage} :
    decodeOp w = .error stage ↔ stage = .funct7 ∧ funct7Of w ≠ 0b0000000 ∧
      ¬(funct7Of w = 0b0100000 ∧ funct3Of w ∈ [0b000, 0b101]) := by
  unfold decodeOp
  split
  case h_3 h0 h1 =>
    have hne : funct7Of w ≠ 0b0000000 ∧ ¬(funct7Of w = 0b0100000 ∧ funct3Of w ∈ [0b000, 0b101]) := ⟨h0, fun h => h1 h.1⟩
    rw [and_iff_left hne, Except.error.injEq, eq_comm]
  all_goals
    rename_i hf7
    rcases funct3_cases (funct3Of w) with hf | hf | hf | hf | hf | hf | hf | hf <;> simp [hf7, hf, eq_comm]

/-- SLLI asks for upper bits 0000000. -/
theorem decodeOpImm_left_eq_error {w : Word} {stage : Stage} (hf : funct3Of w = 0b001) :
    decodeOpImm w = .error stage ↔ stage = .shamt ∧ funct7Of w ≠ 0b0000000 := by
  simp only [decodeOpImm, hf, BitVec.ofNat_eq_ofNat]
  split
  case h_1 h0 => simp [h0]
  case h_2 h0 =>
    have hne : funct7Of w ≠ 0b0000000#7 := h0
    rw [and_iff_left hne, Except.error.injEq, eq_comm]

/-- SRLI asks for upper bits 0000000, SRAI for 0100000. -/
theorem decodeOpImm_right_eq_error {w : Word} {stage : Stage} (hf : funct3Of w = 0b101) :
    decodeOpImm w = .error stage ↔ stage = .shamt ∧ funct7Of w ≠ 0b0000000 ∧ funct7Of w ≠ 0b0100000 := by
  simp only [decodeOpImm, hf, BitVec.ofNat_eq_ofNat, BitVec.reduceEq, imp_self]
  split
  case h_1 h0 => simp [h0]
  case h_2 h0 => simp [h0]
  case h_3 h0 h1 =>
    have hne : funct7Of w ≠ 0b0000000#7 ∧ funct7Of w ≠ 0b0100000#7 := ⟨h0, h1⟩
    rw [and_iff_left hne, Except.error.injEq, eq_comm]

theorem decodeOpImm_eq_error {w : Word} {stage : Stage} :
    decodeOpImm w = .error stage ↔ stage = .shamt ∧
      ((funct3Of w = 0b001 ∧ funct7Of w ≠ 0b0000000) ∨
       (funct3Of w = 0b101 ∧ funct7Of w ≠ 0b0000000 ∧ funct7Of w ≠ 0b0100000)) := by
  rcases funct3_cases (funct3Of w) with hf | hf | hf | hf | hf | hf | hf | hf
  case inr.inl => rw [decodeOpImm_left_eq_error hf]; simp [hf]
  case inr.inr.inr.inr.inr.inl => rw [decodeOpImm_right_eq_error hf]; simp [hf]
  all_goals simp [decodeOpImm, hf]

/-- Settles O5: by the class of the opcode, each with its own list; JALR has one funct3, and no other class refuses. -/
theorem refusedWordsByStage : Obligations.RefusedWordsByStage := by
  intro w stage
  unfold decodeWord
  split <;> rename_i hop
  case h_3 => rw [decodeOpImm_eq_error, hop]; cases stage <;> simp
  case h_4 => rw [decodeOp_eq_error, hop]; cases stage <;> simp
  case h_7 => rw [decodeBranch_eq_error, hop]; cases stage <;> simp
  case h_8 => rw [decodeLoad_eq_error, hop]; cases stage <;> simp
  case h_9 => rw [decodeStore_eq_error, hop]; cases stage <;> simp
  case h_10 => rw [decodeMiscMem_eq_error, hop]; cases stage <;> simp
  case h_6 =>
    rw [hop]
    split
    case h_1 hf => rw [hf]; cases stage <;> simp
    case h_2 hf =>
      have hne : funct3Of w ≠ 0b000#3 := hf
      cases stage <;> simp [hne]
  case h_12 => cases stage <;> simp_all
  all_goals
    rw [hop]
    cases stage <;> simp

/-! ## The order of the table (R149) -/

/-- Settles O4: rows that cover one word agree on the bits that both look at, and the table has no other such pair. -/
theorem onlyReadFormRowOverlaps : Obligations.OnlyReadFormRowOverlaps := by
  have hpairs : ∀ r ∈ opcodeTable, ∀ r' ∈ opcodeTable, r'.pattern &&& r.mask = r.pattern &&& r'.mask → r ≠ r' →
      (r.mnemonic = "csr_read_f000" ∧ r'.mnemonic ∈ ["ecall", "ebreak", "mret"]) ∨
      (r'.mnemonic = "csr_read_f000" ∧ r.mnemonic ∈ ["ecall", "ebreak", "mret"]) := by decide
  intro w r hr r' hr' hc hc' hne
  exact hpairs r hr r' hr' (Row.agree_of_covers hc hc') hne

/-- A word has its row's bits in every field that the row looks at whole. -/
theorem field_of_covers {r : Row} {w : Word} {lo n : Nat} (hm : r.mask.extractLsb' lo n = BitVec.allOnes n)
    (hc : r.covers w = true) : w.extractLsb' lo n = r.pattern.extractLsb' lo n := by
  rw [← (r.covers_iff w).mp hc, BitVec.extractLsb'_and, hm, BitVec.and_allOnes]

/-- Every instruction's word is covered by a row of its mnemonic: the lemmas of Laws/PerInstr.lean, constructor by constructor. -/
theorem tableRow_encode : ∀ i : Instr, Laws.TableRow.Statement i
  | .lui .. => Laws.TableRow.lui .. | .auipc .. => Laws.TableRow.auipc ..
  | .jal .. => Laws.TableRow.jal .. | .jalr .. => Laws.TableRow.jalr ..
  | .beq .. => Laws.TableRow.beq .. | .bne .. => Laws.TableRow.bne ..
  | .blt .. => Laws.TableRow.blt .. | .bge .. => Laws.TableRow.bge ..
  | .bltu .. => Laws.TableRow.bltu .. | .bgeu .. => Laws.TableRow.bgeu ..
  | .lb .. => Laws.TableRow.lb .. | .lh .. => Laws.TableRow.lh ..
  | .lw .. => Laws.TableRow.lw .. | .lbu .. => Laws.TableRow.lbu ..
  | .lhu .. => Laws.TableRow.lhu .. | .sb .. => Laws.TableRow.sb ..
  | .sh .. => Laws.TableRow.sh .. | .sw .. => Laws.TableRow.sw ..
  | .addi .. => Laws.TableRow.addi .. | .slti .. => Laws.TableRow.slti ..
  | .sltiu .. => Laws.TableRow.sltiu .. | .xori .. => Laws.TableRow.xori ..
  | .ori .. => Laws.TableRow.ori .. | .andi .. => Laws.TableRow.andi ..
  | .slli .. => Laws.TableRow.slli .. | .srli .. => Laws.TableRow.srli ..
  | .srai .. => Laws.TableRow.srai .. | .add .. => Laws.TableRow.add ..
  | .sub .. => Laws.TableRow.sub .. | .sll .. => Laws.TableRow.sll ..
  | .slt .. => Laws.TableRow.slt .. | .sltu .. => Laws.TableRow.sltu ..
  | .xor .. => Laws.TableRow.xor .. | .srl .. => Laws.TableRow.srl ..
  | .sra .. => Laws.TableRow.sra .. | .or .. => Laws.TableRow.or ..
  | .and .. => Laws.TableRow.and .. | .fence .. => Laws.TableRow.fence ..
  | .ecall .. => Laws.TableRow.ecall .. | .ebreak .. => Laws.TableRow.ebreak ..
  | .mret .. => Laws.TableRow.mret .. | .csrrw .. => Laws.TableRow.csrrw ..
  | .csrrs .. => Laws.TableRow.csrrs .. | .csrrc .. => Laws.TableRow.csrrc ..
  | .csrrwi .. => Laws.TableRow.csrrwi .. | .csrrsi .. => Laws.TableRow.csrrsi ..
  | .csrrci .. => Laws.TableRow.csrrci .. | .csrReadF000 .. => Laws.TableRow.csrReadF000 ..
  | .csrReadF100 .. => Laws.TableRow.csrReadF100 ..

/-- A SYSTEM word of funct3 000 whose number selects no trap is covered by the read form's row first: the rows that overlap it each fix
a number that selects one. -/
theorem firstRow_readForm {w : Word} (hop : opcodeOf w = 0b1110011) (hf3 : funct3Of w = 0b000)
    (hcsr : isTrapSelector (csrOf w) = false) : firstRow w = some "csr_read_f000" := by
  have hselect : ∀ r ∈ opcodeTable, r.mnemonic ∈ ["ecall", "ebreak", "mret"] →
      r.mask.extractLsb' 20 12 = BitVec.allOnes 12 ∧ isTrapSelector (r.pattern.extractLsb' 20 12) = true := by decide
  have hread : (⟨"csr_read_f000", 0x0000707F, 0x00000073⟩ : Row).covers w = true := by
    rw [Row.covers_iff, mask_funct3, hop, hf3]
    decide
  have hmem : (⟨"csr_read_f000", 0x0000707F, 0x00000073⟩ : Row) ∈ opcodeTable := by decide
  obtain ⟨r, hfind⟩ := Option.isSome_iff_exists.mp (List.find?_isSome (p := (·.covers w)).mpr ⟨_, hmem, hread⟩)
  have hr := List.mem_of_find?_eq_some hfind
  have hc := List.find?_some hfind
  have hname : r.mnemonic = "csr_read_f000" := by
    by_contra hne
    obtain ⟨h, -⟩ | ⟨-, h⟩ := onlyReadFormRowOverlaps w r hr _ hmem hc hread (fun h => hne (congrArg Row.mnemonic h))
    · exact hne h
    · obtain ⟨hm, hs⟩ := hselect r hr h
      rw [← field_of_covers hm hc] at hs
      exact absurd hs (by rw [← csrOf, hcsr]; decide)
  rw [firstRow, hfind, Option.map_some, hname]

/-- The first row of a SYSTEM word of funct3 000. -/
theorem firstRow_system_zero {w : Word} (hop : opcodeOf w = 0b1110011) (hf3 : funct3Of w = 0b000) :
    firstRow w = some (decodeSystem w).mnemonic := by
  by_cases hcsr : isTrapSelector (csrOf w) = true
  case neg =>
    rw [Bool.not_eq_true] at hcsr
    rw [decodeSystem_of_readForm hf3 hcsr]
    exact firstRow_readForm hop hf3 hcsr
  case pos =>
    simp only [isTrapSelector, Bool.or_eq_true, beq_iff_eq] at hcsr
    obtain (hcsr | hcsr) | hcsr := hcsr
    all_goals
      rw [← firstRow_masked, mask_csr, hop, hf3, hcsr, decodeSystem, hf3, hcsr]
      rfl

/-- The first row that covers an accepted word has the mnemonic of the decoded instruction. -/
theorem firstRow_of_decodeWord {w : Word} {i : Instr} (h : decodeWord w = .ok i) : firstRow w = some i.mnemonic := by
  by_cases hz : opcodeOf w = 0b1110011 ∧ funct3Of w = 0b000
  case pos =>
    rw [decodeWord_of_system hz.1] at h
    cases h
    exact firstRow_system_zero hz.1 hz.2
  case neg =>
    obtain ⟨-, rfl⟩ := encodeOfDecode w i h
    exact firstRow_encode (tableRow_encode i) (not_and_or.mp hz)

/-! ## No row covers a refused word -/

/-- A row looks at every field that can have its word refused, and its own pattern is not refused (R151). -/
theorem accepted_of_covers {r : Row} {w : Word} {stage : Stage} (hr : r ∈ opcodeTable) (hc : r.covers w = true) :
    decodeWord w ≠ .error stage := by
  have hpattern : ∀ r ∈ opcodeTable, ∀ stage ∈ [Stage.opcode, .funct3, .funct7, .shamt],
      ¬decodeWord r.pattern = .error stage := by decide
  have hlooks : ∀ r ∈ opcodeTable, r.mask.extractLsb' 0 7 = BitVec.allOnes 7 ∧
      (r.mask.extractLsb' 12 3 = BitVec.allOnes 3 ∨ opcodeOf r.pattern ∈ [0b0110111, 0b0010111, 0b1101111]) ∧
      (opcodeOf r.pattern = 0b0110011 ∨ opcodeOf r.pattern = 0b0010011 ∧ funct3Of r.pattern ∈ [0b001, 0b101] →
        r.mask.extractLsb' 25 7 = BitVec.allOnes 7) := by decide
  intro h
  refine hpattern r hr stage (by cases stage <;> decide) ?_
  rw [refusedWordsByStage w stage] at h
  rw [refusedWordsByStage r.pattern stage]
  obtain ⟨hm, hm3, hm7⟩ := hlooks r hr
  have hop : opcodeOf w = opcodeOf r.pattern := field_of_covers hm hc
  have hf7 := fun hl => field_of_covers (hm7 hl) hc
  rw [hop] at h
  rcases hm3 with hm3 | hm3
  case inl =>
    have hf3 : funct3Of w = funct3Of r.pattern := field_of_covers hm3 hc
    rw [hf3] at h
    cases stage
    case opcode | funct3 => exact h
    case funct7 =>
      rw [show funct7Of w = funct7Of r.pattern from hf7 (.inl h.1)] at h
      exact h
    case shamt =>
      have hshift : funct3Of r.pattern ∈ [0b001, 0b101] := by
        obtain ⟨-, ⟨hf, -⟩ | ⟨hf, -⟩⟩ := h <;> simp [hf]
      rw [show funct7Of w = funct7Of r.pattern from hf7 (.inr ⟨h.1, hshift⟩)] at h
      exact h
  case inr =>
    simp only [List.mem_cons, List.not_mem_nil, or_false] at hm3
    rcases hm3 with hm3 | hm3 | hm3
    all_goals
      rw [hm3] at h
      cases stage <;> simp at h

/-- Settles O3: an accepted word has its row first (`firstRow_of_decodeWord`), a refused one has none. -/
theorem decoderFollowsTheTable : Obligations.DecoderFollowsTheTable := by
  intro w
  cases h : decodeWord w with
  | ok i => exact firstRow_of_decodeWord h
  | error stage =>
    have hnone : opcodeTable.find? (·.covers w) = none :=
      List.find?_eq_none.mpr fun r hr hc => accepted_of_covers hr hc h
    rw [firstRow, hnone]
    rfl

/-- Settles O6: the decoder evaluates on each word. -/
theorem sampleWordsDecode : Obligations.SampleWordsDecode := by
  unfold Obligations.SampleWordsDecode
  decide

/-! ## The ALU function code (R148) -/

/-- Bit 30 of a word is bit 5 of its funct7. -/
theorem modifier_eq (w : Word) : w.extractLsb' 30 1 = (funct7Of w).extractLsb' 5 1 := by
  rw [funct7Of]
  refine BitVec.eq_of_getLsbD_eq fun k hk => ?_
  simp [hk, show 5 + k < 7 by omega, show 25 + (5 + k) = 30 + k by omega]

theorem op_computes {w : Word} {i : Instr} {op : AluOp} (s : State) (h : decodeOp w = .ok i)
    (hfn : aluOpOf (funct3Of w) (w.extractLsb' 30 1) = some op) :
    WritesRegister i s (rdOf w) (alu op (getReg s (rs1Of w)) (getReg s (rs2Of w))) (s.pc + 4) := by
  rw [modifier_eq] at hfn
  unfold decodeOp at h
  split at h <;> rename_i hf7
  case h_3 => cases h
  all_goals
    rcases funct3_cases (funct3Of w) with hf | hf | hf | hf | hf | hf | hf | hf
  all_goals
    rw [hf7, hf] at hfn
    rw [hf] at h
    cases h <;> cases hfn
  all_goals exact writesRegister_of_commit rfl rfl

theorem opImm_shift_computes {w : Word} {i : Instr} {op : AluOp} (s : State) (h : decodeOpImm w = .ok i)
    (hf : funct3Of w = 0b101) (hfn : aluOpOf (funct3Of w) (w.extractLsb' 30 1) = some op) :
    WritesRegister i s (rdOf w) (alu op (getReg s (rs1Of w)) ((rs2Of w).setWidth 32)) (s.pc + 4) := by
  rw [modifier_eq, hf] at hfn
  simp only [decodeOpImm, hf, BitVec.ofNat_eq_ofNat, BitVec.reduceEq, imp_self] at h
  split at h <;> rename_i hf7 <;> cases h
  all_goals
    rw [hf7] at hfn
    cases hfn
    exact writesRegister_of_commit rfl rfl

theorem opImm_computes {w : Word} {i : Instr} {op : AluOp} (s : State) (h : decodeOpImm w = .ok i)
    (hf : funct3Of w ≠ 0b101) (hfn : aluOpOf (funct3Of w) 0 = some op) :
    WritesRegister i s (rdOf w) (alu op (getReg s (rs1Of w)) ((immIOf w).signExtend 32)) (s.pc + 4) := by
  unfold decodeOpImm at h
  rcases funct3_cases (funct3Of w) with hf | hf | hf | hf | hf | hf | hf | hf
  case inr.inr.inr.inr.inr.inl => contradiction
  case inr.inl => rw [hf] at hfn; cases hfn -- no selector names a left shift (R192)
  all_goals
    rw [hf] at hfn h
    cases h
    cases hfn
    exact writesRegister_of_commit rfl rfl

/-- Settles O7: in each class the decoder picks the instruction by the bits that the function code is made of (R148). -/
theorem aluFunctionCode : Obligations.AluFunctionCode := by
  intro w i op s h
  refine ⟨fun hop hfn => ?_, fun hop hf hfn => ?_, fun hop hf hfn => ?_⟩
  · rw [decodeWord_of_op hop] at h
    exact op_computes s h hfn
  · rw [decodeWord_of_opImm hop] at h
    exact opImm_shift_computes s h hf hfn
  · rw [decodeWord_of_opImm hop] at h
    exact opImm_computes s h hf hfn

end Sys2Proof.Machine
end

section
/-! Statements about the integer instructions, the jumps and the SYSTEM instructions: each by the value it writes and the target it goes
to. -/

namespace Sys2Proof.Machine

/-! ## Spelling (30_encoding.md R132) -/

/-- An instruction that a word spells is spelled by the opcode and the funct3 of that word (`decodeOfEncode`,
`firstRow_of_decodeWord`). -/
theorem spelledAs_of_wellFormed {i : Instr} {op : BitVec 7} {f3 : Option (BitVec 3)} (hw : i.wellFormed = true)
    (hop : opcodeOf (encode i) = op) (hf3 : ∀ f, f3 = some f → funct3Of (encode i) = f) : SpelledAs i i.mnemonic op f3 :=
  ⟨hop, hf3, firstRow_of_decodeWord (decodeOfEncode i hw), decodeOfEncode i hw⟩

theorem spelledAs_formatI {i : Instr} {f3 : BitVec 3} {op : BitVec 7} {rd rs1 : RegIdx} {imm : BitVec 12}
    (hw : i.wellFormed = true) (he : encode i = encodeI f3 op rd rs1 imm) : SpelledAs i i.mnemonic op (some f3) := by
  obtain ⟨hop, hf3, -⟩ := fields_encodeI f3 op rd rs1 imm
  rw [← he] at hop hf3
  exact spelledAs_of_wellFormed hw hop fun _ h => hf3.trans (Option.some.inj h)

theorem spelledAs_formatS {i : Instr} {f3 : BitVec 3} {op : BitVec 7} {rs1 rs2 : RegIdx} {imm : BitVec 12}
    (hw : i.wellFormed = true) (he : encode i = encodeS f3 op rs1 rs2 imm) : SpelledAs i i.mnemonic op (some f3) := by
  obtain ⟨hop, hf3, -⟩ := fields_encodeS f3 op rs1 rs2 imm
  rw [← he] at hop hf3
  exact spelledAs_of_wellFormed hw hop fun _ h => hf3.trans (Option.some.inj h)

theorem spelledAs7_formatR {i : Instr} {f7 : BitVec 7} {f3 : BitVec 3} {op : BitVec 7} {rd rs1 rs2 : RegIdx}
    (hw : i.wellFormed = true) (he : encode i = encodeR f7 f3 op rd rs1 rs2) : SpelledAs7 i i.mnemonic op f3 f7 := by
  obtain ⟨hop, hf3, hf7, -⟩ := fields_encodeR f7 f3 op rd rs1 rs2
  rw [← he] at hop hf3 hf7
  exact ⟨spelledAs_of_wellFormed hw hop fun _ h => hf3.trans (Option.some.inj h), hf7⟩

/-! ## Values (41_integer.md R191 to R204) -/

theorem toInt_immI (imm : BitVec 12) : (immI imm).toInt = imm.toInt := BitVec.toInt_signExtend_of_le (by decide)

/-- AUIPC's sum modulo 2^32. -/
theorem pc_add_immU (pc : Word) (imm : BitVec 20) : pc + immU imm = BitVec.ofNat 32 (pc.toNat + imm.toNat * 4096) := by
  rw [immU_eq, BitVec.ofNat_add, BitVec.ofNat_toNat, BitVec.setWidth_eq]

/-- ADDI is the sum of the signed numbers modulo 2^32. -/
theorem alu_add_immI (a : Word) (imm : BitVec 12) : alu .add a (immI imm) = BitVec.ofInt 32 (a.toInt + imm.toInt) := by
  apply BitVec.eq_of_toInt_eq
  rw [alu, BitVec.toInt_add, BitVec.toInt_ofInt, toInt_immI]

/-- Settles O21: AUIPC commits `pc + immU`, ADDI the ALU's sum. -/
theorem auipcAndAddiResults : Obligations.AuipcAndAddiResults := by
  intro s rd rs1 upper imm
  refine ⟨?auipc, writesRegister_of_commit rfl (pc_add_immU s.pc upper), spelledAs_formatI rfl rfl,
    writesRegister_of_commit rfl (alu_add_immI _ imm)⟩
  case auipc => exact spelledAs_of_wellFormed rfl (fields_encodeU 0b0010111 rd upper).1 nofun

/-- Settles O22: each commits what the ALU, or the shift by reversal, computes of x[rs1] and the immediate or the shift amount. -/
theorem opImmResults : Obligations.OpImmResults := by
  intro s rd rs1 imm shamt
  have hslt := alu_slt (getReg s rs1) (immI imm)
  have hsll := shiftLeft_toNat (getReg s rs1) (shamtWord shamt)
  have hsrl := alu_srl (getReg s rs1) (shamtWord shamt)
  have hsra := alu_sra (getReg s rs1) (shamtWord shamt)
  rw [toInt_immI] at hslt
  rw [shamtWord_mod] at hsll hsrl hsra
  exact ⟨⟨spelledAs_formatI rfl rfl, writesRegister_of_commit rfl hslt⟩,
    ⟨spelledAs_formatI rfl rfl, writesRegister_of_commit rfl (alu_sltu _ _)⟩,
    ⟨spelledAs_formatI rfl rfl, writesRegister_of_commit rfl rfl⟩,
    ⟨spelledAs_formatI rfl rfl, writesRegister_of_commit rfl rfl⟩,
    ⟨spelledAs_formatI rfl rfl, writesRegister_of_commit rfl rfl⟩,
    ⟨spelledAs7_formatR rfl rfl, writesRegister_of_commit rfl hsll⟩,
    ⟨spelledAs7_formatR rfl rfl, writesRegister_of_commit rfl hsrl⟩,
    ⟨spelledAs7_formatR rfl rfl, writesRegister_of_commit rfl hsra⟩⟩

/-- Settles O24: the middle of `shiftLeft` is its definition (R192). -/
theorem leftShiftByReversal : Obligations.LeftShiftByReversal := fun a b => ⟨shiftLeft_eq a b, getLsbD_rev a⟩

/-- The three shifts see a shift amount through `shiftAmount` alone. -/
theorem shifts_congr (a : Word) {b c : Word} (h : shiftAmount b = shiftAmount c) :
    alu .srl a b = alu .srl a c ∧ alu .sra a b = alu .sra a c ∧ shiftLeft a b = shiftLeft a c := by
  refine ⟨?_, ?_, ?_⟩ <;> simp only [shiftLeft, alu, h]

/-- A shift by 0 gives the operand back. -/
theorem shifts_zero (a : Word) : alu .srl a 0 = a ∧ alu .sra a 0 = a ∧ shiftLeft a 0 = a := by
  refine ⟨?_, ?_, ?_⟩
  · simp [alu, shiftAmount]
  · simp [alu, shiftAmount]
  · simp [shiftLeft_eq]

/-- Settles O25: 32 and 0, and 33 and 1, have the same low five bits; a word of funct7 0000001 is on no list of OP (R142). -/
theorem aluLaws : Obligations.AluLaws := by
  refine ⟨?add, ?sub, alu_slt, alu_sltu, fun a b => ?low, fun a => ?wrap, fun w hop hf7 => ?mul⟩
  case add => exact fun a b => BitVec.toNat_add a b
  case sub =>
    intro a b
    rw [alu_sub, alu, BitVec.sub_eq_add_neg]
    rfl
  case low => exact shifts_congr a (shiftAmount_and b).symm
  case wrap =>
    obtain ⟨hsrl, hsra, hsll⟩ := shifts_congr a (show shiftAmount 32 = shiftAmount 0 by decide)
    obtain ⟨zsrl, zsra, zsll⟩ := shifts_zero a
    exact ⟨hsrl.trans zsrl, hsra.trans zsra, hsll.trans zsll, shifts_congr a (by decide)⟩
  case mul =>
    rw [decodeWord_of_op hop, decodeOp_eq_error, hf7]
    exact ⟨rfl, by decide, fun h => absurd h.1 (by decide)⟩

/-! ## Jumps (42_control_transfer.md R242, R243, R240) -/

theorem writesRegister_of_jumpAndLink {i : Instr} {s : State} {rd : RegIdx} {target : Word}
    (h : exec i s = jumpAndLink rd target s) : WritesRegister i s rd (s.pc + 4) target := by
  refine ⟨setPc (setReg s rd (s.pc + 4)) target, h, registerWritten_setReg s rd _, rfl, ?csrs, ?bytes, ?config⟩
  case csrs => intro a; rw [setPc_csr, setPc_config, setReg_csr, setReg_config]
  case bytes => intro a; rw [setPc_mem, setPc_flash, setReg_mem, setReg_flash]; exact ⟨rfl, rfl⟩
  case config => rw [setPc_config, setReg_config]

/-- Settles O26: both are `jumpAndLink`, JALR with the target taken from the registers before the link is written. -/
theorem jumpResults : Obligations.JumpResults := fun _ rd _ offset _ =>
  ⟨fun heven => spelledAs_of_wellFormed heven (fields_encodeJ 0b1101111 rd offset heven).1 nofun,
    writesRegister_of_jumpAndLink rfl, spelledAs_formatI rfl rfl, writesRegister_of_jumpAndLink rfl⟩

/-- A jump leaves the link in its destination; a branch has none. -/
theorem link_of_transfer {i : Instr} {s t : State} {rd : RegIdx} (hi : isTransfer i = true) (h : exec i s = .next t)
    (hd : dest i = some rd) (h0 : rd ≠ 0) : getReg t rd = s.pc + 4 := by
  cases i
  case jal | jalr =>
    cases hd
    cases h
    rw [getReg_setPc, getReg_setReg, if_pos ⟨rfl, h0⟩]
  case beq | bne | blt | bge | bltu | bgeu => cases hd
  all_goals cases hi

/-- Settles O28: the transfer leaves the ExecutionUnit in FETCH (`exec_micro`), where the step is TRAP ENTRY. -/
theorem misalignedTargetTrapsNext : Obligations.MisalignedTargetTrapsNext := by
  intro s t i hs hi h ha
  obtain ⟨heu, -⟩ := exec_micro h hs
  have ht : t.micro.eu.state = .fetch := by rw [heu, hs]
  refine ⟨_, step_of_fetch_misaligned ht ha, trapTaken_takeTrap _ t.pc t, fun rd hd h0 => ?_⟩
  rw [getReg_takeTrap]
  exact link_of_transfer hi h hd h0

/-! ## FENCE, the CSR instructions of no register and the read forms, ECALL and EBREAK (43_load_store.md R273, 44_system.md R294, R303
to R305) -/

/-- Settles O34: FENCE is `advance`, whatever its fields. -/
theorem fenceDoesNothing : Obligations.FenceDoesNothing := fun _ _ _ _ _ _ =>
  ⟨spelledAs_formatI rfl rfl, onlyMovesPc_of_setPc rfl⟩

/-- A CSR instruction that leaves the bank alone only writes its destination. -/
theorem writesRegister_of_csrInstruction {i : Instr} {s : State} {fn : CsrFn} {rd : RegIdx} {csr : CsrNum} {op : Word}
    (h : exec i s = csrInstruction fn rd csr op s) (hsame : csrApply s.config.csrAddr s.csr csr fn op = s.csr) :
    WritesRegister i s rd (csrRead s.config.csrAddr s.csr csr) (s.pc + 4) :=
  writesRegister_of_commit (v' := csrRead s.config.csrAddr s.csr csr) (by rw [h, csrInstruction, hsame]; rfl) rfl

/-- Settles O36: an unknown number reads 0 and is not written, by any write function (R290, R292). -/
theorem unknownCsrReadsZero : Obligations.UnknownCsrReadsZero := by
  intro s rd rs1 zimm csr hn
  have hread : csrRead s.config.csrAddr s.csr csr = 0 := by rw [csrRead, hn]
  have hsame : ∀ fn op, csrApply s.config.csrAddr s.csr csr fn op = s.csr := fun fn op => by rw [csrApply, hn]
  rw [← hread]
  exact ⟨writesRegister_of_csrInstruction rfl (hsame _ _), writesRegister_of_csrInstruction rfl (hsame _ _),
    writesRegister_of_csrInstruction rfl (hsame _ _), writesRegister_of_csrInstruction rfl (hsame _ _),
    writesRegister_of_csrInstruction rfl (hsame _ _), writesRegister_of_csrInstruction rfl (hsame _ _),
    writesRegister_of_csrInstruction rfl (hsame _ _), writesRegister_of_csrInstruction rfl (hsame _ _)⟩

/-- A read form with destination x0 only advances the pc. -/
theorem csrReadF000_zero_onlyMovesPc (s : State) (csr : CsrNum) (rs1 : RegIdx) :
    OnlyMovesPc (.csrReadF000 0 csr rs1) s (s.pc + 4) :=
  onlyMovesPc_of_setPc (by rw [← advance]; show csrInstruction .read 0 csr 0 s = _; rw [csrInstruction, csrApply_read]; rfl)

/-- Settles O37: function READ leaves the bank (`csrApply_read`), and WFI and SRET are the read form into x0. -/
theorem csrReadForms : Obligations.CsrReadForms := by
  intro s rd rs1 csr
  refine ⟨writesRegister_of_csrInstruction rfl (csrApply_read ..), writesRegister_of_csrInstruction rfl (csrApply_read ..),
    fun i h => ?_⟩
  have hwfi : decodeWord 0x10500073 = .ok (.csrReadF000 0 0x105 0) := by decide
  have hsret : decodeWord 0x10200073 = .ok (.csrReadF000 0 0x102 0) := by decide
  rw [hwfi, hsret] at h
  rcases h with h | h <;> cases h
  · exact csrReadF000_zero_onlyMovesPc s 0x105 0
  · exact csrReadF000_zero_onlyMovesPc s 0x102 0

/-- Settles O39: both are TRAP ENTRY at their own pc. -/
theorem ecallAndEbreakTrap : Obligations.EcallAndEbreakTrap := fun s _ _ =>
  ⟨⟨_, rfl, trapTaken_takeTrap .environmentCall s.pc s⟩, ⟨_, rfl, trapTaken_takeTrap .breakpoint s.pc s⟩⟩

/-! ## The trap vector (60_exceptions.md R337) -/

theorem toNat_trapVector (cause : Cause) (v : Mtvec) :
    (trapVector cause v).toNat = (4 * (v.base.toNat + if v.mode = 1 then cause.code.toNat else 0)) % 2 ^ 32 := by
  have hcode : cause.code.toNat < 2 ^ 31 := cause.code.isLt
  have hbase := v.base.isLt
  rw [trapVector, BitVec.toNat_shiftLeft, BitVec.toNat_add, BitVec.toNat_setWidth, Nat.shiftLeft_eq]
  split
  · rw [BitVec.toNat_setWidth]; omega
  · rw [show (0 : Word).toNat = 0 from rfl]; omega

/-- In vectored mode the vector is four times the code past the base's byte address. -/
theorem trapVector_vectored (cause : Cause) {v : Mtvec} (h : v.mode = 1) :
    trapVector cause v = place 32 2 v.base + BitVec.ofNat 32 (4 * cause.code.toNat) := by
  apply BitVec.eq_of_toNat_eq
  rw [toNat_trapVector, if_pos h, BitVec.toNat_add, toNat_place v.base (by decide), BitVec.toNat_ofNat]
  omega

theorem trapVector_direct (cause : Cause) {v : Mtvec} (h : v.mode = 0) : trapVector cause v = place 32 2 v.base := by
  apply BitVec.eq_of_toNat_eq
  have hne : v.mode ≠ 1 := by rw [h]; decide
  have hbase := v.base.isLt
  rw [toNat_trapVector, if_neg hne, toNat_place v.base (by decide)]
  omega

/-- Settles O42: the vector by its number, and in each mode as a sum. -/
theorem trapVectorAddress : Obligations.TrapVectorAddress := by
  intro cause v
  refine ⟨toNat_trapVector cause v, ?_, fun h B hB => ?_, trapVector_direct cause⟩
  · rw [toNat_trapVector]; omega
  · subst hB
    exact ⟨trapVector_vectored _ h, trapVector_vectored _ h, trapVector_vectored _ h, trapVector_vectored _ h,
      trapVector_vectored _ h⟩

end Sys2Proof.Machine
end

section
/-! Statements about loads, stores and where an access stops (43_load_store.md, 20_memory.md sections 3 to 9). -/

namespace Sys2Proof.Machine

/-! ## Where an access stops (20_memory.md R79, R83, R87, R89, R97) -/

theorem memRead_unmapped {s : State} {a : Word} (h : regionsEnd ≤ a.toNat) (bus : BusName) (n : Width) :
    memRead bus a n s = .error .hangNoResponder := by
  rw [memRead, route_eq_none.mpr h]

theorem not_inRam_of_unmapped {s : State} {a : Word} (h : regionsEnd ≤ a.toNat) : ¬InRam s a :=
  fun hin => absurd hin.2.1 (Nat.not_lt.mpr h)

theorem memWrite_unmapped {s : State} {a : Word} (h : regionsEnd ≤ a.toNat) (n : Width) (v : Word) :
    memWrite a n v s = .error .hangNoResponder := by
  rw [memWrite_stops (not_inRam_of_unmapped h), if_pos h]

theorem memWrite_outOfRam {s : State} {a : Word} (h1 : ramBase ≤ a.toNat) (h2 : a.toNat < regionsEnd) (h : ¬InRam s a)
    (n : Width) (v : Word) : memWrite a n v s = .error .ramOutOfRange := by
  rw [memWrite_stops h, if_neg (Nat.not_le.mpr h2), if_neg (Nat.not_lt.mpr h1)]

theorem memWrite_boot {s : State} {a : Word} (h : a.toNat < ramBase) (n : Width) (v : Word) :
    memWrite a n v s = .error .storeToBootStore := by
  have hn : ¬regionsEnd ≤ a.toNat := Nat.not_le.mpr (h.trans ramBase_lt_regionsEnd)
  rw [memWrite_stops (fun hin => absurd hin.1 (Nat.not_le.mpr h)), if_neg hn, if_pos h]

/-- The five loads stop where every read of their address stops. -/
theorem loads_fault {s : State} {r rs1 : RegIdx} {imm : BitVec 12} {f : Fault}
    (h : ∀ n, memRead .data (loadAddress s rs1 imm) n s = .error f) :
    exec (.lb r rs1 imm) s = .fault f ∧ exec (.lbu r rs1 imm) s = .fault f ∧
    ((loadAddress s rs1 imm).toNat % 4 ≠ 3 → exec (.lh r rs1 imm) s = .fault f ∧ exec (.lhu r rs1 imm) s = .fault f) ∧
    ((loadAddress s rs1 imm).toNat % 4 = 0 → exec (.lw r rs1 imm) s = .fault f) :=
  ⟨load_eq_fault (aligned_byte _) (h _), load_eq_fault (aligned_byte _) (h _),
    fun ha => ⟨load_eq_fault (aligned_half.mpr ha) (h _), load_eq_fault (aligned_half.mpr ha) (h _)⟩,
    fun ha => load_eq_fault (aligned_word.mpr ha) (h _)⟩

/-- The three stores stop where every write of their address stops. -/
theorem stores_fault {s : State} {rs1 rs2 : RegIdx} {imm : BitVec 12} {f : Fault}
    (h : ∀ n, memWrite (storeAddress s rs1 imm) n (getReg s rs2) s = .error f) :
    exec (.sb rs1 rs2 imm) s = .fault f ∧
    ((storeAddress s rs1 imm).toNat % 4 ≠ 3 → exec (.sh rs1 rs2 imm) s = .fault f) ∧
    ((storeAddress s rs1 imm).toNat % 4 = 0 → exec (.sw rs1 rs2 imm) s = .fault f) :=
  ⟨store_eq_fault (aligned_byte _) (h _), fun ha => store_eq_fault (aligned_half.mpr ha) (h _),
    fun ha => store_eq_fault (aligned_word.mpr ha) (h _)⟩

/-- Settles O17: no region holds the address, so the read or the write never answers. -/
theorem unmappedAccessHangs : Obligations.UnmappedAccessHangs := fun _ _ _ _ _ =>
  ⟨fun hs ha h => step_of_fetch_error hs ha (memRead_unmapped h .instruction .word),
    fun h => loads_fault fun n => memRead_unmapped h .data n, fun h => stores_fault fun n => memWrite_unmapped h n _⟩

/-- Settles O18: the read stops as `outOfRange` says, the write by the region of its address. -/
theorem outOfRangeAccessFaults : Obligations.OutOfRangeAccessFaults := fun _ _ _ _ _ _ =>
  ⟨fun hs ha h => step_of_fetch_error hs ha (memRead_outOfRange h .instruction .word),
    fun h => loads_fault fun n => memRead_outOfRange h .data n,
    fun h1 h2 h => stores_fault fun n => memWrite_outOfRam h1 h2 h n _,
    fun h => stores_fault fun n => memWrite_boot h n _⟩

/-! ## Loads (43_load_store.md R262, R265 to R269) -/

/-- A load that its store answers writes the extended value and leaves everything else that a program sees. -/
theorem writesRegister_of_load {i : Instr} {s : State} {n : Width} {signed : Bool} {rd : RegIdx} {a v : Word}
    (h : exec i s = load n signed rd a s) (ha : aligned a n = true) (hr : memRead .data a n s = .ok v) :
    WritesRegister i s rd (extendLoad signed n v) (s.pc + 4) := by
  refine ⟨_, h.trans (load_eq_next ha hr), ?registers, ?pc, ?csrs, ?bytes, ?config⟩
  case registers => exact registerWritten_of_regs (afterRead_regs .data a s) rfl
  case pc => rw [advance_pc, setReg_pc, afterRead_pc]
  case csrs => intro x; rw [advance_csr, advance_config, setReg_csr, setReg_config, afterRead_csr, afterRead_config]
  case bytes =>
    intro x
    rw [advance_mem, advance_flash, setReg_mem, setReg_flash, afterRead_mem, afterRead_flash]
    exact ⟨rfl, rfl⟩
  case config => rw [advance_config, setReg_config, afterRead_config]

theorem writesRegister_of_loads_byte {s : State} {rd rs1 : RegIdx} {imm : BitVec 12} {b : Byte}
    (h : memRead .data (loadAddress s rs1 imm) .byte s = .ok (b.setWidth 32)) :
    WritesRegister (.lb rd rs1 imm) s rd (b.signExtend 32) (s.pc + 4) ∧
    WritesRegister (.lbu rd rs1 imm) s rd (b.setWidth 32) (s.pc + 4) := by
  have hs := writesRegister_of_load (exec_lb rd rs1 imm s) (aligned_byte _) h
  have hu := writesRegister_of_load (exec_lbu rd rs1 imm s) (aligned_byte _) h
  rw [extendLoad, extractLsb'_setWidth b (by decide)] at hs hu
  exact ⟨hs, hu⟩

theorem writesRegister_of_loads_half {s : State} {rd rs1 : RegIdx} {imm : BitVec 12} {x : BitVec 16}
    (ha : aligned (loadAddress s rs1 imm) .half = true)
    (h : memRead .data (loadAddress s rs1 imm) .half s = .ok (x.setWidth 32)) :
    WritesRegister (.lh rd rs1 imm) s rd (x.signExtend 32) (s.pc + 4) ∧
    WritesRegister (.lhu rd rs1 imm) s rd (x.setWidth 32) (s.pc + 4) := by
  have hs := writesRegister_of_load (exec_lh rd rs1 imm s) ha h
  have hu := writesRegister_of_load (exec_lhu rd rs1 imm s) ha h
  rw [extendLoad, extractLsb'_setWidth x (by decide)] at hs hu
  exact ⟨hs, hu⟩

/-- Settles O29: `memRead_byte`, `memRead_half` and `memRead_word` give the bytes a program sees, which the load extends. -/
theorem loadResults : Obligations.LoadResults := by
  intro s rd rs1 imm a
  refine ⟨spelledAs_formatI rfl rfl, spelledAs_formatI rfl rfl, spelledAs_formatI rfl rfl, spelledAs_formatI rfl rfl,
    spelledAs_formatI rfl rfl, fun ha hans => ?_⟩
  have hload : loadAddress s rs1 imm = a := ha.symm
  subst hload
  refine ⟨?byte, fun h3 => ?half, fun h0 => ?word⟩
  case byte =>
    obtain ⟨b0, e0, hr⟩ := memRead_byte .data hans
    exact ⟨b0, e0, writesRegister_of_loads_byte hr⟩
  case half =>
    obtain ⟨b0, b1, e0, e1, hr⟩ := memRead_half .data hans (aligned_half.mpr h3)
    exact ⟨b0, b1, e0, e1, writesRegister_of_loads_half (aligned_half.mpr h3) hr⟩
  case word =>
    obtain ⟨b0, b1, b2, b3, e0, e1, e2, e3, hr⟩ := memRead_word .data hans (aligned_word.mpr h0)
    rw [wordOfBytes_append] at hr
    exact ⟨b0, b1, b2, b3, e0, e1, e2, e3, writesRegister_of_load (exec_lw rd rs1 imm s) (aligned_word.mpr h0) hr⟩

/-! ## Stores (43_load_store.md R263, R270 to R272) -/

/-- A store inside the RAM array replaces the bytes that it names and leaves everything else that a program sees. -/
theorem storesBytes_of_store {i : Instr} {s : State} {n : Width} {a v : Word} (hm : s.mem.wf)
    (h : exec i s = store n a v s) (ha : aligned a n = true) (hr : InRam s a) : StoresBytes i s a (storeBytes n v) := by
  refine ⟨_, h.trans (store_eq_next ha hr), fun k hk => ?_, fun x hx => ?_, fun _ => rfl, rfl, fun _ => rfl, fun _ => rfl, rfl⟩
  · rw [advance_mem, readByte_writeBytes _ _ _ _ hm, if_pos ⟨Nat.le_add_right _ _, Nat.add_lt_add_left hk _⟩,
      Nat.add_sub_cancel_left, List.getElem?_eq_getElem hk]
  · rw [advance_mem, readByte_writeBytes _ _ _ _ hm, if_neg (by omega)]

/-- Settles O31: each of the three is `store` at its width. -/
theorem storeResults : Obligations.StoreResults := by
  intro s rs1 rs2 imm a
  refine ⟨spelledAs_formatS rfl rfl, spelledAs_formatS rfl rfl, spelledAs_formatS rfl rfl, fun hinv ha hin => ?_⟩
  have hstore : storeAddress s rs1 imm = a := ha.symm
  subst hstore
  obtain ⟨hm, -⟩ := hinv
  exact ⟨storesBytes_of_store hm (exec_sb rs1 rs2 imm s) (aligned_byte _) hin,
    fun h3 => storesBytes_of_store hm (exec_sh rs1 rs2 imm s) (aligned_half.mpr h3) hin,
    fun h0 => storesBytes_of_store hm (exec_sw rs1 rs2 imm s) (aligned_word.mpr h0) hin⟩

/-! ## A load or a fetch after a store (R272, 20_memory.md R81, R103, R111) -/

/-- A read of the k-th byte address of a RAM word finds the word shifted down by k bytes. -/
theorem memRead_ram_lane {s : State} {a w : Word} {k : Nat} (h : InRam s a) (ha : a.toNat % 4 = 0) (hk : k < 4)
    (hw : s.mem.wordFrom a.toNat = some w) (bus : BusName) (n : Width) :
    memRead bus (a + BitVec.ofNat 32 k) n s = .ok (lowBytes n (w >>> (8 * k))) := by
  obtain ⟨h1, h2, h3⟩ := h
  have hsum : (a + BitVec.ofNat 32 k).toNat = a.toNat + k := by
    rw [regionsEnd] at h2
    rw [BitVec.toNat_add, BitVec.toNat_ofNat]
    omega
  have hend : regionsEnd % 4 = 0 := by decide
  have hbase : ramBase % 4 = 0 := by decide
  have hr : route s.config bus (a + BitVec.ofNat 32 k) = some (.ram, a.toNat - ramBase + k) :=
    route_eq_ram.mpr ⟨by omega, by omega⟩
  have hdiv : (a.toNat - ramBase + k) / 4 = (a.toNat - ramBase) / 4 := by omega
  have hword : storeWord s .ram (a.toNat - ramBase + k) = .ok w := by
    rw [storeWord, hdiv, if_neg (by omega), show ramBase + (a.toNat - ramBase) / 4 * 4 = a.toNat by omega, hw]
  refine memRead_eq_ok.mpr ⟨_, _, w, hr, hword, ?_⟩
  rw [laneShift, show (a.toNat - ramBase + k) % 4 = k by omega]

/-- SW at a multiple of 4 inside the RAM leaves the word there, with the registers and the parameters as they were. -/
theorem wordFrom_of_sw {s t : State} {rs1 rs2 : RegIdx} {imm : BitVec 12} (hm : s.mem.wf)
    (hin : InRam s (storeAddress s rs1 imm)) (ha : (storeAddress s rs1 imm).toNat % 4 = 0)
    (h : exec (.sw rs1 rs2 imm) s = .next t) :
    t.mem.wordFrom (storeAddress s rs1 imm).toNat = some (getReg s rs2) ∧ t.regs = s.regs ∧ t.config = s.config := by
  rw [exec_sw, store_eq_next (aligned_word.mpr ha) hin] at h
  cases h
  exact ⟨wordFrom_writeBytes _ _ _ hm, rfl, rfl⟩

theorem lowBytes_byte_shift (w : Word) (k : Nat) : lowBytes .byte (w >>> k) = (w.extractLsb' k 8).setWidth 32 := rfl

theorem lowBytes_half_shift (w : Word) (k : Nat) : lowBytes .half (w >>> k) = (w.extractLsb' k 16).setWidth 32 := rfl

/-- Settles O32: the loads read lanes of the one word that SW left (`memRead_ram_lane`). -/
theorem storeThenLoad : Obligations.StoreThenLoad := by
  intro s t rd rs1 rs2 imm k hinv hin h ha
  obtain ⟨hw, hregs, hconfig⟩ := wordFrom_of_sw hinv.1 hin ha h
  have hin' : InRam t (storeAddress s rs1 imm) := by rw [InRam, hconfig]; exact hin
  have hload : loadAddress t rs1 imm = storeAddress s rs1 imm := by
    rw [loadAddress, storeAddress, getReg_congr hregs]
    rfl
  refine ⟨?word, fun hk haddr => ⟨?byte, fun hk3 => ?half⟩⟩
  case word =>
    refine writesRegister_of_load (exec_lw rd rs1 imm t) ?_ (v := getReg s rs2) ?_
    · rw [hload, aligned_word]; exact ha
    · rw [hload]; exact memRead_ram_word hin' ha hw .data
  case byte =>
    have hr := memRead_ram_lane hin' ha hk hw .data .byte
    rw [← haddr, lowBytes_byte_shift] at hr
    exact (writesRegister_of_loads_byte hr).2
  case half =>
    have hr := memRead_ram_lane hin' ha hk hw .data .half
    rw [← haddr, lowBytes_half_shift] at hr
    have hlane : aligned (loadAddress t rs1 (imm + BitVec.ofNat 12 k)) .half = true := by
      rw [aligned_half, haddr, BitVec.toNat_add, BitVec.toNat_ofNat]
      omega
    exact (writesRegister_of_loads_half hlane hr).2

/-- Settles O33: the instruction bus reads the RAM word that SW left. -/
theorem fetchSeesStore : Obligations.FetchSeesStore := by
  intro s t rs1 rs2 imm hinv ha hin h
  obtain ⟨hw, -, hconfig⟩ := wordFrom_of_sw hinv.1 hin ha h
  have hin' : InRam { t with pc := storeAddress s rs1 imm } (storeAddress s rs1 imm) := by rw [InRam, hconfig]; exact hin
  exact memRead_ram_word hin' ha hw .instruction

end Sys2Proof.Machine
end

section
/-! Statements about reset and construction (70_reset_and_hazards.md R370, R371, R384; 20_memory.md R85, R86, R96). -/

namespace Sys2Proof.Machine

/-! ## Reset (R371) -/

theorem csrRead_reset (m : CsrAddr) (a : CsrNum) : csrRead m .reset a = 0 := by
  rw [csrRead]
  split
  case h_1 n _ => cases n <;> rfl
  case h_2 => rfl

/-- Settles O9: every register of the bank is 0 after reset, and an unknown number reads 0. -/
theorem resetCsrsReadZero : Obligations.ResetCsrsReadZero := csrRead_reset _

/-- After reset no bus carries anything and the SPI controller is in RESET, whatever the stores and the parameters. -/
theorem microInv_of_reset {s : State} (h : s.micro = .reset) : MicroInv s := by
  rw [MicroInv, BusesFollow, SpiFollows, h]
  exact ⟨⟨rfl, rfl⟩, trivial⟩

theorem microInv_assertReset (s : State) : MicroInv (assertReset s) := microInv_of_reset rfl

/-- The reset signal keeps both stores and clears the slot behind x0. -/
theorem runInv_assertReset {s : State} (h : RunInv s) : RunInv (assertReset s) := by
  obtain ⟨hm, hf, hma, hfa, -⟩ := h
  exact ⟨hm, hf, hma, hfa, rfl⟩

/-- Settles O10: `assertReset` is the reset state with the stores and the parameters of before. -/
theorem assertedReset : Obligations.AssertedReset := fun s =>
  ⟨getReg_reset, rfl, csrRead_reset _, ⟨rfl, rfl, rfl, rfl, rfl, rfl⟩, rfl, rfl, fun _ => ⟨rfl, rfl⟩, rfl, runInv_assertReset,
    microInv_assertReset s⟩

/-- Settles O11: with no cell listed and every register 0 the run invariant holds. -/
theorem resetSatisfiesInv : Obligations.ResetSatisfiesInv := ⟨⟨wf_nil, wf_nil, nofun, nofun, rfl⟩, microInv_of_reset rfl⟩

/-! ## Writing many words (R384) -/

theorem writeBytes_append (m : Memory) (a : Nat) (bs cs : List Byte) :
    m.writeBytes a (bs ++ cs) = (m.writeBytes a bs).writeBytes (a + bs.length) cs := by
  induction bs generalizing m a with
  | nil => rfl
  | cons b bs ih =>
    rw [List.cons_append, Memory.writeBytes, ih, Memory.writeBytes, List.length_cons, Nat.add_right_comm, Nat.add_assoc a]

theorem length_flatMap_wordBytes (ws : List Word) : (ws.flatMap wordBytes).length = 4 * ws.length := by
  induction ws with
  | nil => rfl
  | cons w ws ih => rw [List.flatMap_cons, List.length_append, ih, List.length_cons, wordBytes]; simp; omega

/-- A byte outside the ones written reads as before. -/
theorem readByte_writeBytes_outside {m : Memory} {a x : Nat} {bs : List Byte} (h : m.wf) (hx : x < a ∨ a + bs.length ≤ x) :
    (m.writeBytes a bs).readByte x = m.readByte x := by
  rw [readByte_writeBytes m a x bs h, if_neg (by omega)]

/-- The i-th of the words laid from `a` up is at `a + 4 * i`. -/
theorem wordFrom_writeBytes_flatMap {m : Memory} (h : m.wf) (ws : List Word) (a i : Nat) (hi : i < ws.length) :
    (m.writeBytes a (ws.flatMap wordBytes)).wordFrom (a + 4 * i) = some ws[i] := by
  induction ws generalizing m a i with
  | nil => exact absurd hi (Nat.not_lt_zero i)
  | cons w ws ih =>
    have hw := wf_writeBytes m a (wordBytes w) h
    rw [List.flatMap_cons, writeBytes_append]
    cases i with
    | zero =>
      refine (wordFrom_congr fun x _ hx => ?_).trans (wordFrom_writeBytes m a w h)
      exact readByte_writeBytes_outside hw (.inl hx)
    | succ i =>
      have hlen : (wordBytes w).length = 4 := rfl
      rw [hlen, show a + 4 * (i + 1) = a + 4 + 4 * i by omega]
      exact ih hw (a + 4) i (Nat.lt_of_succ_lt_succ hi)

/-! ## The RAM as it is constructed (20_memory.md R85) -/

theorem wf_ramContents {m : Memory} (h : m.wf) (init : Nat → Word) (n : Nat) : (ramContents m init n).wf := by
  induction n with
  | zero => exact h
  | succ n ih => exact wf_writeBytes _ _ _ ih

/-- Filling the RAM changes no byte below its region. -/
theorem readByte_ramContents_boot {m : Memory} (h : m.wf) (init : Nat → Word) (n : Nat) {x : Nat} (hx : x < ramBase) :
    (ramContents m init n).readByte x = m.readByte x := by
  induction n with
  | zero => rfl
  | succ n ih =>
    rw [ramContents, readByte_writeBytes_outside (wf_ramContents h init n) (.inl (by omega)), ih]

theorem wordFrom_ramContents {m : Memory} (h : m.wf) (init : Nat → Word) {i n : Nat} (hi : i < n) :
    (ramContents m init n).wordFrom (ramBase + 4 * i) = some (init i) := by
  induction n with
  | zero => exact absurd hi (Nat.not_lt_zero i)
  | succ n ih =>
    rw [ramContents]
    rcases Nat.lt_succ_iff_lt_or_eq.mp hi with hlt | rfl
    · refine (wordFrom_congr fun x _ hx => ?_).trans (ih hlt)
      exact readByte_writeBytes_outside (wf_ramContents h init n) (.inl (by omega))
    · exact wordFrom_writeBytes _ _ _ (wf_ramContents h init i)

theorem mem_ramContents {m : Memory} {init : Nat → Word} {n : Nat} {c : Host.Cell} (h : c ∈ ramContents m init n) :
    c.1 < ramBase + 4 * n ∨ c ∈ m := by
  induction n with
  | zero => exact .inr h
  | succ n ih =>
    rcases mem_writeBytes h with ⟨-, hlt⟩ | h
    · have hlen : (wordBytes (init n)).length = 4 := rfl
      exact .inl (by omega)
    · rcases ih h with h | h
      · exact .inl (by omega)
      · exact .inr h

/-! ## The stores of a constructed machine -/

theorem wordFrom_eq_none {m : Memory} {a : Nat} (h : m.readByte a = none) : m.wordFrom a = none := by
  rw [Memory.wordFrom, Memory.wordAt, h]

/-- An address of the boot region that no byte was written to has no value. -/
theorem readByte_writeBytes_nil_past {bs : List Byte} {x : Nat} (h : bs.length ≤ x) (hx : x < ramBase) :
    (Memory.writeBytes [] 0 bs).readByte x = none := by
  rw [readByte_writeBytes_outside wf_nil (.inr (by omega)), Memory.readByte, Memory.unlisted, if_neg (by omega)]

section
variable {c : Config} {rom : List Word} {flash : List Byte} {init : Nat → Word}

/-- ROM word i is at offset 4i (20_memory.md R86). -/
theorem storeWord_construct_rom (hrom : 4 * rom.length ≤ ramBase) {i : Nat} (hi : i < rom.length) :
    storeWord (construct c rom flash init) .rom (4 * i) = .ok rom[i] := by
  have hw := wordFrom_writeBytes_flatMap wf_nil rom 0 i hi
  have hmem : (construct c rom flash init).mem.wordFrom (4 * i) = some rom[i] := by
    rw [← hw, Nat.zero_add]
    exact wordFrom_congr fun x _ hx => readByte_ramContents_boot (wf_writeBytes _ _ _ wf_nil) init c.ramWords (by omega)
  rw [storeWord, show 4 * i / 4 * 4 = 4 * i by omega, hmem]

/-- The ROM has no word past its image (R87). -/
theorem storeWord_construct_rom_past {o : Nat} (h : 4 * rom.length ≤ o) (ho : o < ramBase) :
    storeWord (construct c rom flash init) .rom o = .error .romOutOfRange := by
  have hbyte : (construct c rom flash init).mem.readByte (o / 4 * 4) = none := by
    refine (readByte_ramContents_boot (wf_writeBytes _ _ _ wf_nil) init c.ramWords (by omega)).trans ?_
    exact readByte_writeBytes_nil_past (by rw [length_flatMap_wordBytes]; omega) (by omega)
  rw [storeWord, wordFrom_eq_none hbyte]

theorem storeWord_construct_ram {i : Nat} (hi : i < c.ramWords) :
    storeWord (construct c rom flash init) .ram (4 * i) = .ok (init i) := by
  have hmem : (construct c rom flash init).mem.wordFrom (ramBase + 4 * i) = some (init i) :=
    wordFrom_ramContents (wf_writeBytes _ _ _ wf_nil) init hi
  have hc : (construct c rom flash init).config.ramWords = c.ramWords := rfl
  rw [storeWord, hc, show 4 * i / 4 = i by omega, if_neg (by omega), Nat.mul_comm i 4, hmem]

theorem storeWord_construct_ram_past {o : Nat} (h : 4 * c.ramWords ≤ o) :
    storeWord (construct c rom flash init) .ram o = .error .ramOutOfRange := by
  have hc : (construct c rom flash init).config.ramWords = c.ramWords := rfl
  rw [storeWord, hc, if_pos (by omega)]

theorem readByte_construct_flash {j : Nat} (h : j < flash.length) :
    (construct c rom flash init).flash.readByte j = some flash[j] := by
  refine (readByte_writeBytes [] 0 j flash wf_nil).trans ?_
  rw [if_pos ⟨Nat.zero_le j, by omega⟩, Nat.sub_zero, List.getElem?_eq_getElem h]

theorem runInv_construct (hrom : 4 * rom.length ≤ ramBase) (hram : 4 * c.ramWords ≤ ramBase) (hflash : flash.length ≤ 2 ^ 24) :
    RunInv (construct c rom flash init) := by
  have hend : ramBase + ramBase = regionsEnd := rfl
  refine ⟨wf_ramContents (wf_writeBytes _ _ _ wf_nil) _ _, wf_writeBytes _ _ _ wf_nil, fun x hx => ?_, fun x hx => ?_, rfl⟩
  · rcases mem_ramContents hx with h | h
    · omega
    · rcases mem_writeBytes h with ⟨-, h⟩ | h
      · rw [length_flatMap_wordBytes] at h
        omega
      · exact nomatch h
  · rcases mem_writeBytes hx with ⟨-, h⟩ | h
    · omega
    · exact nomatch h

end

/-- Settles O12: the stores one by one; construction leaves the microarchitectural part of reset. -/
theorem constructedStores : Obligations.ConstructedStores := by
  intro c rom flash init hrom hram hflash
  exact ⟨fun i hi => storeWord_construct_rom hrom hi, fun o h ho => storeWord_construct_rom_past h ho,
    fun i hi => storeWord_construct_ram hi, fun o h => storeWord_construct_ram_past h,
    fun j h => readByte_construct_flash h,
    fun j h hj => readByte_writeBytes_nil_past h (hj.trans (by decide)), runInv_construct hrom hram hflash,
    microInv_of_reset rfl⟩

end Sys2Proof.Machine
end

section
/-! Statements about every step (40_execution_cycle.md R171 to R179): what it runs, what it keeps, and where a register, a byte, the pc, mcause
and minstret can change. -/

namespace Sys2Proof.Machine

/-! ## What every instruction keeps -/

/-- The run invariant speaks of the stores and the registers alone. -/
theorem runInv_congr {s t : State} (h : RunInv s) (hr : t.regs = s.regs) (hm : t.mem = s.mem) (hf : t.flash = s.flash) :
    RunInv t := by
  rw [RunInv, hr, hm, hf]
  exact h

/-- A register write leaves the slot behind x0 (10_state.md R31). -/
theorem setReg_slot_zero {s : State} (h : s.regs[0] = 0) (rd : RegIdx) (v : Word) : (setReg s rd v).regs[0] = 0 := by
  by_cases h0 : rd = 0
  case pos => rw [h0]; exact h
  case neg =>
    have hne : rd.toNat ≠ 0 := fun hz => h0 (BitVec.eq_of_toNat_eq hz)
    simp only [setReg, if_neg h0]
    rw [Vector.getElem_set_ne _ _ hne]
    exact h

/-- An aligned access inside the RAM ends inside the RAM region. -/
theorem inRam_end {s : State} {a : Word} {n : Width} (hin : InRam s a) (ha : aligned a n = true) :
    a.toNat + Width.bytes n ≤ regionsEnd := by
  have hw := aligned_within ha
  have hlt := hin.2.1
  have hend : regionsEnd % 4 = 0 := by decide
  omega

/-- An aligned store inside the RAM keeps the memory canonical and inside its regions. -/
theorem writeBytes_keeps {s : State} (hm : s.mem.wf) (hma : ∀ c ∈ s.mem, c.1 < regionsEnd) {a : Word} {n : Width}
    (hin : InRam s a) (ha : aligned a n = true) (v : Word) :
    (s.mem.writeBytes a.toNat (storeBytes n v)).wf ∧ ∀ c ∈ s.mem.writeBytes a.toNat (storeBytes n v), c.1 < regionsEnd := by
  refine ⟨wf_writeBytes _ _ _ hm, fun c hc => ?_⟩
  rcases mem_writeBytes hc with ⟨-, hlt⟩ | hc
  · rw [length_storeBytes] at hlt
    exact hlt.trans_le (inRam_end hin ha)
  · exact hma c hc

/-- Every instruction keeps the run invariant: a store lists only addresses of the RAM region, and no write reaches the slot of x0. -/
theorem exec_keeps_runInv {i : Instr} {s t : State} (hinv : RunInv s) (h : exec i s = .next t) : RunInv t := by
  obtain ⟨hm, hf, hma, hfa, h0⟩ := hinv
  obtain ⟨hflash, -⟩ := exec_flash_config h
  have hregs : t.regs[0] = 0 := by
    obtain hr | ⟨rd, v, -, hr⟩ := exec_regs h
    · simp only [hr, h0]
    · simp only [hr, setReg_slot_zero h0]
  have hmem : t.mem.wf ∧ ∀ c ∈ t.mem, c.1 < regionsEnd := by
    obtain hr | ⟨n, a, v, -, ha, hin, hr⟩ := exec_mem h
    · rw [hr]
      exact ⟨hm, hma⟩
    · rw [hr]
      exact writeBytes_keeps hm hma hin ha v
  rw [RunInv, hflash]
  exact ⟨hmem.1, hf, hmem.2, hfa, hregs⟩

/-- No instruction writes mpie (10_state.md R42). -/
theorem exec_mpie {i : Instr} {s t : State} (h : exec i s = .next t) : t.csr.mstatus.mpie = s.csr.mstatus.mpie := by
  obtain hcsr | ⟨a, fn, op, -, hcsr⟩ | ⟨c, -, rfl⟩ | rfl := exec_csr h
  · rw [hcsr]
  · rw [hcsr]
    exact (csrApply_same s.config.csrAddr s.csr a fn op).2.2.2.2
  · rfl
  · rfl

/-- No instruction writes a byte below the RAM region. -/
theorem exec_readByte_boot {i : Instr} {s t : State} (hm : s.mem.wf) (h : exec i s = .next t) {x : Nat} (hx : x < ramBase) :
    t.mem.readByte x = s.mem.readByte x := by
  obtain hr | ⟨n, a, v, -, -, hin, hr⟩ := exec_mem h
  · rw [hr]
  · rw [hr]
    exact readByte_writeBytes_outside hm (.inl (hx.trans_le hin.1))

/-! ## What every step keeps -/

/-- Settles O45: TRAP ENTRY touches neither store nor register, and an instruction keeps the invariant (`exec_keeps_runInv`). -/
theorem stepKeepsInv : Obligations.StepKeepsInv := by
  intro s t hinv h
  obtain ⟨-, -, rfl⟩ | ⟨c, -, rfl⟩ | ⟨i, u, hu, -, hx⟩ := step_cases h
  · exact runInv_congr hinv rfl rfl rfl
  · exact runInv_congr hinv rfl rfl rfl
  · obtain ⟨hregs, -, hmem, hflash, -⟩ := executes_same hu
    exact exec_keeps_runInv (s := quiesce u) (runInv_congr hinv hregs hmem hflash) hx

/-- Settles O46: an instruction changes neither flash nor parameters (`exec_flash_config`), nor mpie, nor a byte of the boot region. -/
theorem neverChanged : Obligations.NeverChanged := by
  intro s t hinv h
  obtain ⟨-, -, rfl⟩ | ⟨c, -, rfl⟩ | ⟨i, u, hu, -, hx⟩ := step_cases h
  · exact ⟨rfl, rfl, fun _ => rfl, fun _ _ => rfl⟩
  · exact ⟨rfl, rfl, fun _ => rfl, fun _ _ => rfl⟩
  · obtain ⟨-, -, hmem, hflash, hconfig, hmstatus, -⟩ := executes_same hu
    obtain ⟨hflash', hconfig'⟩ := exec_flash_config hx
    have hm : (quiesce u).mem.wf := by rw [quiesce_mem, hmem]; exact hinv.1
    refine ⟨?_, ?_, fun a => ?_, fun a ha => ?_⟩
    · rw [exec_mpie hx, quiesce_csr, hmstatus]
    · rw [hconfig', quiesce_config, hconfig]
    · rw [hflash', quiesce_flash, hflash]
    · rw [exec_readByte_boot hm hx ha, quiesce_mem, hmem]

/-- Settles O51: `quiesce` leaves the machine idle before the instruction, and the instruction leaves that part alone (`exec_micro`). -/
theorem stepLeavesTheMachineIdle : Obligations.StepLeavesTheMachineIdle := by
  intro s t hidle h
  obtain ⟨-, rfl⟩ | ⟨w, i, -, -, -, hx⟩ := step_cases_fetch hidle.1 h
  · obtain ⟨-, hcnt, hi, hd, hram, hrom⟩ := hidle
    exact ⟨rfl, hcnt, hi, hd, hram, hrom⟩
  · obtain ⟨heu, hi, hd, hram, hrom⟩ := exec_micro hx rfl
    rw [Idle, heu, hi, hd, hram, hrom]
    exact ⟨rfl, rfl, rfl, rfl, rfl, rfl⟩

/-! ## What a step changes, and when -/

theorem storesTo_congr {s u : State} (h : u.regs = s.regs) (i : Instr) : storesTo i u = storesTo i s := by
  have hg := fun j => getReg_congr h j
  cases i <;> simp only [storesTo, storeAddress, hg]

/-- In FETCH at an aligned pc a fetched word that the decoder refuses is refused by its stage. -/
theorem step_of_fetch_refused {s : State} {w : Word} {stage : Stage} (hs : s.micro.eu.state = .fetch)
    (ha : s.pc.toNat % 4 = 0) (hf : fetch s = .ok w) (hd : decodeWord w = .error stage) :
    step s = .refused (.unenumerated stage) := by
  simp only [step, runToRetire, hs, aligned_word.mpr ha, if_true, fetchAndExecute, hf, executeLatched, latch_micro, hd]

/-- Settles O19: `executeLatched` refuses the latched word by the decoder's stage. -/
theorem unenumeratedWordRefused : Obligations.UnenumeratedWordRefused := fun _ _ _ hs ha hf hd =>
  step_of_fetch_refused hs ha hf hd

/-- The state that a fetched word's instruction runs in: the word latched and counted, the machine idle. -/
def fetched (w : Word) (s : State) : State := quiesce (latch w (afterRead .instruction s.pc s))

@[simp] theorem fetched_regs (w : Word) (s : State) : (fetched w s).regs = s.regs := afterRead_regs ..
@[simp] theorem fetched_pc (w : Word) (s : State) : (fetched w s).pc = s.pc := afterRead_pc ..
@[simp] theorem fetched_mem (w : Word) (s : State) : (fetched w s).mem = s.mem := afterRead_mem ..
@[simp] theorem fetched_flash (w : Word) (s : State) : (fetched w s).flash = s.flash := afterRead_flash ..
@[simp] theorem fetched_config (w : Word) (s : State) : (fetched w s).config = s.config := afterRead_config ..
@[simp] theorem fetched_csr (w : Word) (s : State) :
    (fetched w s).csr = { s.csr with minstret := { instrs := s.csr.minstret.instrs + 1 } } := by
  rw [fetched, quiesce_csr, latch_csr, afterRead_csr]

theorem idle_fetched (w : Word) (s : State) : Idle (fetched w s) := ⟨rfl, rfl, rfl, rfl, rfl, rfl⟩

theorem ir_fetched (w : Word) (s : State) : (fetched w s).micro.eu.ir = w := rfl

/-- Settles O47: the instruction is the store of `exec_mem`, and outside its bytes nothing reads otherwise. -/
theorem memoryChangesOnlyByStores : Obligations.MemoryChangesOnlyByStores := by
  intro s t x hinv hs h hne
  obtain ⟨-, rfl⟩ | ⟨w, i, -, hf, hd, hx⟩ := step_cases_fetch hs h
  · exact absurd rfl hne
  · obtain hr | ⟨n, a, v, hto, -, hin, hr⟩ := exec_mem (s := fetched w s) hx
    · rw [hr, fetched_mem] at hne
      exact absurd rfl hne
    · rw [hr, fetched_mem] at hne
      rw [storesTo_congr (fetched_regs w s)] at hto
      rw [InRam, fetched_config] at hin
      refine ⟨w, i, a, Width.bytes n, hf, hd, hto, ?_, ?_, hin⟩
      all_goals
        by_contra hout
        refine hne (readByte_writeBytes_outside hinv.1 ?_)
        rw [length_storeBytes]
        omega

/-- Settles O48: the instruction writes one register, the one that it names, and `getReg` never sees x0 written. -/
theorem registersChangeOnlyAsDestination : Obligations.RegistersChangeOnlyAsDestination := by
  intro s t j hs h hne
  obtain ⟨-, rfl⟩ | ⟨w, i, -, hf, hd, hx⟩ := step_cases_fetch hs h
  · exact absurd rfl hne
  · obtain hr | ⟨rd, v, hdest, hr⟩ := exec_regs (s := fetched w s) hx
    · exact absurd (getReg_congr (hr.trans (fetched_regs w s)) j) hne
    · rw [getReg_congr hr, getReg_setReg, getReg_congr (fetched_regs w s)] at hne
      have hj : j = rd ∧ rd ≠ 0 := by
        by_contra hn
        exact hne (if_neg hn)
      obtain ⟨rfl, h0⟩ := hj
      exact ⟨h0, w, i, hf, hd, hdest⟩

/-- Settles O44: mcause is written by a trap of a raised cause, or by the CSR write that names it (`exec_csr`). -/
theorem onlyFiveCausesAreRaised : Obligations.OnlyFiveCausesAreRaised := by
  intro s hs
  refine ⟨fun t h hne => ?changes, fun w stage ha hf hd => step_of_fetch_refused hs ha hf hd⟩
  case changes =>
    obtain ⟨-, rfl⟩ | ⟨w, i, -, hf, hd, hx⟩ := step_cases_fetch hs h
    · exact .inr ⟨rfl, by rw [takeTrap_mcause]; decide⟩
    · obtain hcsr | ⟨a, fn, op, hw, hcsr⟩ | ⟨c, hc, rfl⟩ | rfl := exec_csr (s := fetched w s) hx
      · rw [hcsr, fetched_csr] at hne
        exact absurd rfl hne
      · refine .inl ⟨w, i, a, hf, hd, hw, ?_⟩
        by_contra hn
        obtain ⟨-, hmcause, -⟩ := csrApply_same (fetched w s).config.csrAddr (fetched w s).csr a fn op
        rw [fetched_config] at hmcause hcsr
        rw [hcsr, hmcause hn, fetched_csr] at hne
        exact absurd rfl hne
      · refine .inr ⟨rfl, ?_⟩
        rw [takeTrap_mcause]
        rcases hc with rfl | rfl | rfl | rfl <;> decide
      · exact absurd (congrArg CsrBank.mcause (fetched_csr w s)) hne

/-- Settles O16: the count is made before the instruction runs, and of the ways to change the bank (`exec_csr`) only a CSR write that
names minstret changes it again. -/
theorem minstretCountsFetches : Obligations.MinstretCountsFetches := by
  intro s t hs h
  obtain ⟨ha, rfl⟩ | ⟨w, i, ha, hf, hd, hx⟩ := step_cases_fetch hs h
  · refine ⟨fun _ => rfl, fun h0 => ?_⟩
    rw [aligned_word.mpr h0] at ha
    cases ha
  · refine ⟨fun h0 => absurd (aligned_word.mp ha) h0, fun _ => ⟨w, i, hf, hd, fun hn => ?_⟩⟩
    have hsame : t.csr.minstret = (fetched w s).csr.minstret := by
      obtain hcsr | ⟨a, fn, op, hw, hcsr⟩ | ⟨c, -, rfl⟩ | rfl := exec_csr (s := fetched w s) hx
      · rw [hcsr]
      · obtain ⟨hminstret, -⟩ := csrApply_same (fetched w s).config.csrAddr (fetched w s).csr a fn op
        rw [hcsr]
        exact hminstret (by rw [fetched_config]; exact hn a hw)
      · rfl
      · rfl
    rw [hsame, fetched_csr]
    exact BitVec.toNat_add s.csr.minstret.instrs 1

/-- A pc that is laid at bit 2, and the pc after a word, are multiples of 4. -/
theorem toNat_trapReturn_pc (s : State) : (trapReturn s).pc.toNat = 4 * s.csr.mepc.epc.toNat := by
  rw [trapReturn_pc, toNat_place s.csr.mepc.epc (by decide)]
  exact Nat.mul_comm _ 4

/-- Where the pc goes from FETCH at an aligned pc, by the instruction fetched (`exec_pc`). -/
theorem pc_of_fetched {s t : State} {w : Word} {i : Instr} (h : exec i (fetched w s) = .next t) :
    t.pc = s.pc + 4 ∨ isTransfer i = true ∨
    ((∃ rd rs1, i = .mret rd rs1) ∧ t.pc.toNat = 4 * s.csr.mepc.epc.toNat) ∨
    (∃ cause : Cause, cause ≠ .illegalInstruction ∧ t.pc = trapVector cause s.csr.mtvec ∧ t.csr.mcause.ecode = cause.code) := by
  obtain hpc | hi | ⟨c, hc, rfl⟩ | ⟨hi, rfl⟩ := exec_pc h
  · exact .inl (by rw [hpc, fetched_pc])
  · exact .inr (.inl hi)
  · refine .inr (.inr (.inr ⟨c, ?_, by rw [takeTrap_pc, fetched_csr], rfl⟩))
    rcases hc with rfl | rfl | rfl | rfl <;> decide
  · exact .inr (.inr (.inl ⟨hi, by rw [toNat_trapReturn_pc, fetched_csr]⟩))

theorem toNat_add_four_mod (a : Word) : (a + 4).toNat % 4 = a.toNat % 4 := by
  rw [BitVec.toNat_add, show (4 : Word).toNat = 4 from rfl]
  omega

/-- Settles O49: every other way but a transfer leaves a multiple of 4, the next word because the pc was one. -/
theorem whereThePcGoes : Obligations.WhereThePcGoes := by
  intro s t hs h
  obtain ⟨-, rfl⟩ | ⟨w, i, ha, hf, hd, hx⟩ := step_cases_fetch hs h
  · have hvector := (trapVectorAddress .instructionAddressMisaligned s.csr.mtvec).2.1
    exact ⟨.inr (.inr (.inr ⟨.instructionAddressMisaligned, by decide, rfl, rfl⟩)), absurd hvector⟩
  · rw [aligned_word] at ha
    obtain hpc | hi | ⟨⟨rd, rs1, rfl⟩, hpc⟩ | ⟨c, hc, hpc, hcode⟩ := pc_of_fetched hx
    · exact ⟨.inl hpc, absurd (by rw [hpc, toNat_add_four_mod, ha])⟩
    · exact ⟨.inr (.inl ⟨w, i, hf, hd, hi⟩), fun _ => ⟨ha, w, i, hf, hd, hi⟩⟩
    · exact ⟨.inr (.inr (.inl ⟨w, rd, rs1, hf, hd, hpc⟩)), absurd (by rw [hpc]; omega)⟩
    · have hvector := (trapVectorAddress c s.csr.mtvec).2.1
      exact ⟨.inr (.inr (.inr ⟨c, hc, hpc, hcode⟩)), absurd (by rw [hpc, hvector])⟩

/-! ## What a step runs (R179, 20_memory.md R102, R103) -/

/-- Settles O13: `memRead_word` finds the four bytes at the pc, and the step runs what they spell. -/
theorem stepRunsDecodedInstruction : Obligations.StepRunsDecodedInstruction := by
  intro s b0 b1 b2 b3 i rest hs ha hans e0 e1 e2 e3 hdecode
  obtain ⟨c0, c1, c2, c3, f0, f1, f2, f3, hread⟩ := memRead_word .instruction hans (aligned_word.mpr ha)
  rw [e0] at f0; rw [e1] at f1; rw [e2] at f2; rw [e3] at f3
  cases f0; cases f1; cases f2; cases f3
  have hd : decodeWord (wordOfBytes b0 b1 b2 b3) = .ok i := by
    rw [decodeBytes] at hdecode
    split at hdecode
    · rename_i hd
      cases hdecode
      exact hd
    · cases hdecode
  exact ⟨fetched (wordOfBytes b0 b1 b2 b3) s, step_of_fetch hs ha hread hd, fetched_regs .., fetched_pc .., fetched_mem ..,
    fetched_flash .., fetched_config .., fetched_csr .., ir_fetched .., idle_fetched ..⟩

/-- Placing a word changes the stores and the ExecutionUnit's state alone. -/
theorem placeInstruction_same (w : Word) (s : State) :
    (placeInstruction w s).regs = s.regs ∧ (placeInstruction w s).pc = s.pc ∧ (placeInstruction w s).csr = s.csr ∧
      (placeInstruction w s).config = s.config ∧ (placeInstruction w s).micro.eu.state = .fetch := by
  unfold placeInstruction
  split <;> exact ⟨rfl, rfl, rfl, rfl, rfl⟩

/-- Settles O14: the next fetch reads the placed word, from each store. -/
theorem placedWordRuns : Obligations.PlacedWordRuns := by
  intro s w i k o hinv ha hr hb hd
  obtain ⟨hm, hf, -⟩ := hinv
  have hplaced : s.withFetchWord 32 w.toNat = placeInstruction w s := by
    rw [State.withFetchWord, Nat.mod_eq_of_lt w.isLt, BitVec.ofNat_toNat, BitVec.setWidth_eq]
  have hfetch : fetch (placeInstruction w s) = .ok w := by
    by_cases hk : k = .flash
    · rw [hk] at hr
      exact fetch_placed_flash hf hr
    · exact fetch_placed_mem hm ha hr hk hb
  obtain ⟨hregs, hpc, hcsr, hconfig, hstate⟩ := placeInstruction_same w s
  rw [hplaced]
  refine ⟨fetched w (placeInstruction w s), step_of_fetch hstate (by rw [hpc]; exact ha) hfetch hd, ?_, ?_, ?_, ?_, rfl⟩
  · rw [fetched_regs, hregs]
  · rw [fetched_pc, hpc]
  · rw [fetched_config, hconfig]
  · rw [fetched_csr, hcsr]

end Sys2Proof.Machine
end

section
/-! What a program can see of an outcome (10_state.md section 6): two states that agree on it step alike. -/

namespace Sys2Proof.Machine

/-! ## Outcomes up to the microarchitectural part -/

/-- An outcome with the microarchitectural part of its next state forgotten. -/
def archOf : Result → Result
  | .next t => .next (arch t)
  | .fault f => .fault f
  | .refused x => .refused x

theorem sameOutcome_iff {r r' : Result} : SameOutcome r r' ↔ archOf r = archOf r' := by
  cases r <;> cases r' <;> simp [SameOutcome, archOf]

theorem sameOutcome_refl (r : Result) : SameOutcome r r := sameOutcome_iff.mpr rfl

theorem SameOutcome.symm {r r' : Result} (h : SameOutcome r r') : SameOutcome r' r :=
  sameOutcome_iff.mpr (sameOutcome_iff.mp h).symm

theorem SameOutcome.trans {r r' r'' : Result} (h : SameOutcome r r') (h' : SameOutcome r' r'') : SameOutcome r r'' :=
  sameOutcome_iff.mpr ((sameOutcome_iff.mp h).trans (sameOutcome_iff.mp h'))

theorem SameOutcome.eq_fault {r : Result} {f : Fault} (h : SameOutcome r (.fault f)) : r = .fault f := by
  cases r with
  | fault g => exact congrArg _ h
  | next t => exact h.elim
  | refused x => exact h.elim

theorem SameOutcome.eq_refused {r : Result} {x : Refusal} (h : SameOutcome r (.refused x)) : r = .refused x := by
  cases r with
  | refused y => exact congrArg _ h
  | next t => exact h.elim
  | fault f => exact h.elim

theorem sameOutcome_next {s t : State} (h : arch s = arch t) : SameOutcome (.next s) (.next t) := h

/-! ## States that a program cannot tell apart -/

theorem sameInputs_of_arch {s t : State} (h : arch s = arch t) : SameInputs s t := by
  obtain ⟨hr, hp, hc, -, -, hg⟩ := arch_eq_iff.mp h
  exact ⟨hr, hp, hc, by rw [hg]⟩

theorem arch_quiesce (s : State) : arch (quiesce s) = arch s := rfl

theorem arch_advance {s t : State} (h : arch s = arch t) : arch (advance s) = arch (advance t) := by
  obtain ⟨hr, hp, hc, hm, hf, hg⟩ := arch_eq_iff.mp h
  exact arch_eq_iff.mpr ⟨hr, by rw [advance_pc, advance_pc, hp], hc, hm, hf, hg⟩

theorem arch_setReg {s t : State} (h : arch s = arch t) (rd : RegIdx) (v : Word) :
    arch (setReg s rd v) = arch (setReg t rd v) := by
  obtain ⟨hr, hp, hc, hm, hf, hg⟩ := arch_eq_iff.mp h
  refine arch_eq_iff.mpr ⟨setReg_regs_congr hr rd v, ?_, ?_, ?_, ?_, ?_⟩ <;> simpa

theorem arch_takeTrap {s t : State} (h : arch s = arch t) (c : Cause) (f : Word) :
    arch (takeTrap c f s) = arch (takeTrap c f t) := by
  obtain ⟨hr, -, hc, hm, hf, hg⟩ := arch_eq_iff.mp h
  refine arch_eq_iff.mpr ⟨hr, ?_, ?_, hm, hf, hg⟩
  · rw [takeTrap_pc, takeTrap_pc, hc]
  · rw [takeTrap, takeTrap, hc]

theorem arch_latch {s t : State} (h : arch s = arch t) (w : Word) : arch (latch w s) = arch (latch w t) := by
  obtain ⟨hr, hp, hc, hm, hf, hg⟩ := arch_eq_iff.mp h
  exact arch_eq_iff.mpr ⟨hr, hp, by rw [latch_csr, latch_csr, hc], hm, hf, hg⟩

theorem memRead_arch {s t : State} (h : arch s = arch t) (bus : BusName) (a : Word) (n : Width) :
    memRead bus a n t = memRead bus a n s := by
  obtain ⟨-, -, -, hm, hf, hg⟩ := arch_eq_iff.mp h
  exact memRead_congr hm hf hg bus a n

theorem inRam_arch {s t : State} (h : arch s = arch t) (a : Word) : InRam t a ↔ InRam s a := by
  obtain ⟨-, -, -, -, -, hg⟩ := arch_eq_iff.mp h
  rw [InRam, InRam, hg]

theorem fetch_arch {s t : State} (h : arch s = arch t) : fetch t = fetch s := by
  obtain ⟨-, hp, -⟩ := arch_eq_iff.mp h
  rw [fetch, fetch, hp, memRead_arch h]

/-! ## They run alike -/

theorem load_arch {s t : State} (h : arch s = arch t) (n : Width) (signed : Bool) (rd : RegIdx) (a : Word) :
    SameOutcome (load n signed rd a s) (load n signed rd a t) := by
  obtain ⟨-, hp, -⟩ := arch_eq_iff.mp h
  cases ha : aligned a n with
  | false =>
    rw [load, load, ha, hp]
    exact sameOutcome_next (arch_takeTrap h _ _)
  | true =>
    cases hr : memRead .data a n s with
    | error f =>
      rw [load_eq_fault ha hr, load_eq_fault ha ((memRead_arch h ..).trans hr)]
      exact sameOutcome_refl _
    | ok v =>
      rw [load_eq_next ha hr, load_eq_next ha ((memRead_arch h ..).trans hr)]
      have hread : arch (afterRead .data a s) = arch (afterRead .data a t) := by rw [afterRead_arch, afterRead_arch, h]
      exact sameOutcome_next (arch_advance (arch_setReg hread rd _))

theorem store_arch {s t : State} (h : arch s = arch t) (n : Width) (a v : Word) :
    SameOutcome (store n a v s) (store n a v t) := by
  obtain ⟨hr, hp, hc, hm, hf, hg⟩ := arch_eq_iff.mp h
  cases ha : aligned a n with
  | false =>
    rw [store, store, ha, hp]
    exact sameOutcome_next (arch_takeTrap h _ _)
  | true =>
    by_cases hin : InRam s a
    · rw [store_eq_next ha hin, store_eq_next ha ((inRam_arch h a).mpr hin)]
      exact sameOutcome_next (arch_advance (arch_eq_iff.mpr ⟨hr, hp, hc, by rw [hm], hf, hg⟩))
    · rw [store_eq_fault ha (memWrite_stops hin), store_eq_fault ha (memWrite_stops (mt (inRam_arch h a).mp hin))]
      exact sameOutcome_refl _

/-- Two states that a program cannot tell apart run an instruction alike. -/
theorem exec_arch {s t : State} (h : arch s = arch t) (i : Instr) : SameOutcome (exec i s) (exec i t) := by
  cases hm : memAccess i s with
  | none =>
    obtain ⟨r, p, c, hu⟩ := exec_without_access hm
    obtain ⟨s', hs, hrs⟩ := hu s (SameInputs.refl s)
    obtain ⟨t', ht, hrt⟩ := hu t (sameInputs_of_arch h)
    obtain ⟨-, -, -, hmem, hflash, hconfig⟩ := arch_eq_iff.mp h
    obtain ⟨sr, sp, sc, sm, sf, sg⟩ := hrs
    obtain ⟨tr, tp, tc, tm, tf, tg⟩ := hrt
    rw [hs, ht]
    exact sameOutcome_next (arch_eq_iff.mpr ⟨tr.trans sr.symm, tp.trans sp.symm, tc.trans sc.symm, by rw [tm, sm, hmem],
      by rw [tf, sf, hflash], by rw [tg, sg, hconfig]⟩)
  | some m =>
    rw [exec_access hm (SameInputs.refl s), exec_access hm (sameInputs_of_arch h)]
    cases m with
    | load n signed rd a => exact load_arch h n signed rd a
    | store n a v => exact store_arch h n a v

theorem executeLatched_arch {s t : State} (h : arch s = arch t) (hir : t.micro.eu.ir = s.micro.eu.ir) :
    SameOutcome (executeLatched s) (executeLatched t) := by
  rw [executeLatched, executeLatched, hir]
  split
  · exact sameOutcome_refl _
  · exact exec_arch (s := quiesce s) (t := quiesce t) h _

theorem fetchAndExecute_arch {s t : State} (h : arch s = arch t) : SameOutcome (fetchAndExecute s) (fetchAndExecute t) := by
  obtain ⟨-, hp, -⟩ := arch_eq_iff.mp h
  rw [fetchAndExecute, fetchAndExecute, fetch_arch h]
  split
  · exact sameOutcome_refl _
  · refine executeLatched_arch (arch_latch ?_ _) rfl
    rw [afterRead_arch, afterRead_arch, h]

/-- From FETCH a step is the alignment check and the fetch. -/
theorem step_of_state_fetch {s : State} (hs : s.micro.eu.state = .fetch) :
    step s = if aligned s.pc .word then fetchAndExecute s
      else .next (takeTrap .instructionAddressMisaligned s.pc s) := by
  simp only [step, runToRetire, hs]

/-- Settles O50: the alignment check, the fetch and the instruction each see only what a program sees. -/
theorem microarchitectureIsInvisible : Obligations.MicroarchitectureIsInvisible := by
  intro s t h hs ht
  obtain ⟨-, hp, -⟩ := arch_eq_iff.mp h
  rw [step_of_state_fetch hs, step_of_state_fetch ht, hp]
  split
  · exact fetchAndExecute_arch h
  · exact sameOutcome_next (arch_takeTrap h _ _)

end Sys2Proof.Machine
end

section
/-! A flash-backed machine beside a ROM-backed one of the same bytes (20_memory.md R99): they see the same bytes, so what one does the other
does. -/

namespace Sys2Proof.Machine

/-! ## Twins -/

/-- The flash device has a byte at every address. -/
def FullDevice (f : State) : Prop := ∀ A, A < 2 ^ 24 → ∃ b, f.flash.readByte A = some b

/-- Twins stay twins when both get the same registers, pc and CSR bank and keep their stores and parameters. -/
theorem Twin.update {s f t g : State} (h : Twin s f) (hr : g.regs = t.regs) (hp : g.pc = t.pc) (hc : g.csr = t.csr)
    (hm : t.mem = s.mem) (hg : t.config = s.config) (hm' : g.mem = f.mem) (hf' : g.flash = f.flash)
    (hg' : g.config = f.config) : Twin t g := by
  obtain ⟨hboot, hconfig, -, -, -, hram, hrom⟩ := h
  rw [Twin, hm, hg, hm', hf', hg']
  exact ⟨hboot, hconfig, hr, hp, hc, hram, hrom⟩

theorem Twin.sameInputs {s f : State} (h : Twin s f) : SameInputs s f := by
  obtain ⟨-, hconfig, hr, hp, hc, -, -⟩ := h
  exact ⟨hr, hp, hc, by rw [hconfig]⟩

theorem Twin.inRam_iff {s f : State} (h : Twin s f) (a : Word) : InRam f a ↔ InRam s a := by
  obtain ⟨-, hconfig, -⟩ := h
  rw [InRam, InRam, hconfig]

theorem Twin.bootStore_flash {s f : State} (h : Twin s f) : f.config.bootStore = .flash := by
  obtain ⟨-, hconfig, -⟩ := h
  rw [hconfig]

/-- Every byte that the ROM-backed machine shows, the flash-backed one shows too. -/
theorem Twin.byteSeen {s f : State} (h : Twin s f) {a : Word} {b : Byte} (hb : byteSeen s a = some b) :
    byteSeen f a = some b := by
  have hflash := h.bootStore_flash
  obtain ⟨hboot, -, -, -, -, hram, hrom⟩ := h
  by_cases h1 : a.toNat < ramBase
  · have hr : route s.config .data a = some (.rom, a.toNat) :=
      (route_eq_boot (by decide)).mpr ⟨h1, backing_rom.mpr hboot, rfl⟩
    have hr' : route f.config .data a = some (.flash, a.toNat) :=
      (route_eq_boot (by decide)).mpr ⟨h1, backing_flash.mpr hflash, rfl⟩
    rw [Machine.byteSeen, hr] at hb
    rw [Machine.byteSeen, hr']
    exact hrom a.toNat b h1 hb
  · by_cases h2 : a.toNat < regionsEnd
    · have hr : ∀ c, route c .data a = some (.ram, a.toNat - ramBase) := fun c => route_eq_ram.mpr ⟨by omega, h2⟩
      rw [Machine.byteSeen, hr] at hb
      rw [Machine.byteSeen, hr]
      exact (hram a.toNat (Nat.le_of_not_lt h1)).trans hb
    · rw [Machine.byteSeen, route_eq_none.mpr (Nat.le_of_not_lt h2)] at hb
      cases hb

/-- An aligned read is made of the bytes that a program sees, so where both machines answer they answer the same. -/
theorem Twin.memRead_of_answers {s f : State} (h : Twin s f) {bus : BusName} {a v : Word} {n : Width}
    (ha : aligned a n = true) (hr : memRead bus a n s = .ok v) (hans : Answers f a) : memRead bus a n f = .ok v := by
  have hans' : Answers s a := answers_iff.mpr ⟨bus, n, v, hr⟩
  cases n
  case byte =>
    obtain ⟨b0, e0, hs⟩ := memRead_byte bus hans'
    obtain ⟨c0, g0, hf⟩ := memRead_byte bus hans
    rw [h.byteSeen e0] at g0
    cases g0
    rw [hf, ← hr, hs]
  case half =>
    obtain ⟨b0, b1, e0, e1, hs⟩ := memRead_half bus hans' ha
    obtain ⟨c0, c1, g0, g1, hf⟩ := memRead_half bus hans ha
    rw [h.byteSeen e0] at g0; rw [h.byteSeen e1] at g1
    cases g0; cases g1
    rw [hf, ← hr, hs]
  case word =>
    obtain ⟨b0, b1, b2, b3, e0, e1, e2, e3, hs⟩ := memRead_word bus hans' ha
    obtain ⟨c0, c1, c2, c3, g0, g1, g2, g3, hf⟩ := memRead_word bus hans ha
    rw [h.byteSeen e0] at g0; rw [h.byteSeen e1] at g1; rw [h.byteSeen e2] at g2; rw [h.byteSeen e3] at g3
    cases g0; cases g1; cases g2; cases g3
    rw [hf, ← hr, hs]

/-- A full device has every word. -/
theorem flashWord_of_fullDevice {f : State} (h : FullDevice f) (A : Nat) : ∃ w, flashWord f.flash A = some w := by
  have hlt : ∀ x : Nat, x % 2 ^ 24 < 2 ^ 24 := fun x => Nat.mod_lt x (by decide)
  obtain ⟨b0, e0⟩ := h _ (hlt A)
  obtain ⟨b1, e1⟩ := h _ (hlt (A + 1))
  obtain ⟨b2, e2⟩ := h _ (hlt (A + 2))
  obtain ⟨b3, e3⟩ := h _ (hlt (A + 3))
  exact ⟨_, wordAt_eq_some.mpr ⟨b0, b1, b2, b3, e0, e1, e2, e3, rfl⟩⟩

/-- Where the ROM-backed machine's read answers, the flash-backed one's answers the same or misses a byte that a full device has. -/
theorem Twin.memRead {s f : State} (h : Twin s f) {bus : BusName} {a v : Word} {n : Width} (ha : aligned a n = true)
    (hr : memRead bus a n s = .ok v) :
    memRead bus a n f = .ok v ∨ (memRead bus a n f = .error .flashOutOfRange ∧ ¬FullDevice f) := by
  obtain ⟨k, o, w, hroute, hw, -⟩ := memRead_eq_ok.mp hr
  by_cases h1 : a.toNat < ramBase
  · have hr' : ∀ bus', route f.config bus' a = some (.flash, a.toNat) := fun _ =>
      (route_eq_boot (by decide)).mpr ⟨h1, backing_flash.mpr h.bootStore_flash, rfl⟩
    cases hword : flashWord f.flash (flashAddress f.config a.toNat) with
    | some x =>
      have hsw : storeWord f .flash a.toNat = .ok x := by rw [storeWord, hword]
      exact .inl (h.memRead_of_answers ha hr ⟨.flash, a.toNat, x, hr' _, hsw⟩)
    | none =>
      refine .inr ⟨?_, fun hfull => ?_⟩
      · simp only [Machine.memRead, hr', storeWord, hword]
      · obtain ⟨x, hx⟩ := flashWord_of_fullDevice hfull (flashAddress f.config a.toNat)
        rw [hx] at hword
        cases hword
  · have hin : InRam s a := by
      have h2 : a.toNat < regionsEnd := by
        by_contra h2
        rw [route_eq_none.mpr (Nat.le_of_not_lt h2)] at hroute
        cases hroute
      rw [route_eq, if_neg h1, if_pos h2] at hroute
      cases hroute
      simp only [storeWord] at hw
      split at hw
      · cases hw
      · exact ⟨Nat.le_of_not_lt h1, h2, by omega⟩
    exact .inl (h.memRead_of_answers ha hr (answers_ram ((h.inRam_iff a).mpr hin)))

/-! ## Lock-step -/

/-- What the flash-backed machine `f` does where its twin goes on to `t`: it goes on to a twin of `t`, or it misses a byte that a full
device has. -/
def Follows (f t : State) (r : Result) : Prop :=
  (∃ g, r = .next g ∧ Twin t g) ∨ (r = .fault .flashOutOfRange ∧ ¬FullDevice f)

theorem fullDevice_congr {f g : State} (h : g.flash = f.flash) : FullDevice g ↔ FullDevice f := by
  rw [FullDevice, FullDevice, h]

theorem load_follows {s f t : State} (h : Twin s f) {n : Width} {signed : Bool} {rd : RegIdx} {a : Word}
    (hx : load n signed rd a s = .next t) : Follows f t (load n signed rd a f) := by
  have hi := h.sameInputs
  cases ha : aligned a n with
  | false =>
    rw [load, ha] at hx
    cases hx
    rw [load, ha]
    exact .inl ⟨_, rfl, h.update hi.r (by rw [takeTrap_pc, takeTrap_pc, hi.c]) (by rw [takeTrap, takeTrap, hi.c, hi.p])
      rfl rfl rfl rfl rfl⟩
  | true =>
    cases hr : memRead .data a n s with
    | error e =>
      rw [load_eq_fault ha hr] at hx
      cases hx
    | ok v =>
      rw [load_eq_next ha hr] at hx
      cases hx
      rcases h.memRead ha hr with hr' | ⟨hr', hfull⟩
      · rw [load_eq_next ha hr']
        refine .inl ⟨_, rfl, h.update ?_ ?_ ?_ ?_ ?_ ?_ ?_ ?_⟩
        · exact setReg_regs_congr (by rw [afterRead_regs, afterRead_regs, hi.r]) _ _
        all_goals simp [hi.p, hi.c]
      · rw [load_eq_fault ha hr']
        exact .inr ⟨rfl, hfull⟩

/-- A store goes to the RAM, which the twins share. -/
theorem store_follows {s f t : State} (h : Twin s f) (hm : s.mem.wf) (hm' : f.mem.wf) {n : Width} {a v : Word}
    (hx : store n a v s = .next t) : Follows f t (store n a v f) := by
  have hi := h.sameInputs
  cases ha : aligned a n with
  | false =>
    rw [store, ha] at hx
    cases hx
    rw [store, ha]
    exact .inl ⟨_, rfl, h.update hi.r (by rw [takeTrap_pc, takeTrap_pc, hi.c]) (by rw [takeTrap, takeTrap, hi.c, hi.p])
      rfl rfl rfl rfl rfl⟩
  | true =>
    by_cases hin : InRam s a
    case neg =>
      rw [store_eq_fault ha (memWrite_stops hin)] at hx
      cases hx
    case pos =>
      rw [store_eq_next ha hin] at hx
      cases hx
      rw [store_eq_next ha ((h.inRam_iff a).mpr hin)]
      obtain ⟨hboot, hconfig, -, -, -, hram, hrom⟩ := h
      refine .inl ⟨_, rfl, hboot, hconfig, hi.r, by rw [advance_pc, advance_pc]; exact congrArg (· + 4) hi.p, hi.c,
        fun x hx => ?_, fun o b ho hb => ?_⟩
      · rw [advance_mem, advance_mem, readByte_writeBytes _ _ _ _ hm, readByte_writeBytes _ _ _ _ hm', hram x hx]
      · rw [advance_mem, readByte_writeBytes_outside hm (.inl (ho.trans_le hin.1))] at hb
        exact hrom o b ho hb

theorem exec_follows {s f t : State} (h : Twin s f) (hm : s.mem.wf) (hm' : f.mem.wf) {i : Instr}
    (hx : exec i s = .next t) : Follows f t (exec i f) := by
  cases hacc : memAccess i s with
  | none =>
    obtain ⟨r, p, c, hu⟩ := exec_without_access hacc
    obtain ⟨t', hs, sr, sp, sc, sm, sf, sg⟩ := hu s (SameInputs.refl s)
    obtain ⟨g, hf, tr, tp, tc, tm, tf, tg⟩ := hu f h.sameInputs
    rw [hs] at hx
    cases hx
    exact .inl ⟨g, hf, h.update (tr.trans sr.symm) (tp.trans sp.symm) (tc.trans sc.symm) sm sg tm tf tg⟩
  | some m =>
    rw [exec_access hacc (SameInputs.refl s)] at hx
    rw [exec_access hacc h.sameInputs]
    cases m with
    | load n signed rd a => exact load_follows h hx
    | store n a v => exact store_follows h hm hm' hx

theorem Twin.fetched {s f : State} (h : Twin s f) (w : Word) : Twin (fetched w s) (fetched w f) := by
  have hi := h.sameInputs
  refine h.update ?_ ?_ ?_ ?_ ?_ ?_ ?_ ?_ <;> simp [hi.r, hi.p, hi.c]

/-- A step from FETCH: both trap at a misaligned pc, or both fetch the same word and run it. -/
theorem step_follows {s f t : State} (h : Twin s f) (hs : s.micro.eu.state = .fetch) (hf : f.micro.eu.state = .fetch)
    (hm : s.mem.wf) (hm' : f.mem.wf) (hx : step s = .next t) : Follows f t (step f) := by
  have hi := h.sameInputs
  obtain ⟨ha, rfl⟩ | ⟨w, i, ha, hfetch, hd, hx⟩ := step_cases_fetch hs hx
  · rw [step_of_state_fetch hf, hi.p, ha]
    exact .inl ⟨_, rfl, h.update hi.r (by rw [takeTrap_pc, takeTrap_pc, hi.c]) (by rw [takeTrap, takeTrap, hi.c])
      rfl rfl rfl rfl rfl⟩
  · have ha' : f.pc.toNat % 4 = 0 := by rw [hi.p]; exact aligned_word.mp ha
    rcases h.memRead ha hfetch with hr' | ⟨hr', hfull⟩
    · rw [step_of_fetch hf ha' (by rw [fetch, hi.p]; exact hr') hd]
      have hfollows := exec_follows (h.fetched w) (by rw [fetched_mem]; exact hm) (by rw [fetched_mem]; exact hm') hx
      rw [Follows, fullDevice_congr (fetched_flash w f)] at hfollows
      exact hfollows
    · rw [step_of_fetch_error hf ha' (by rw [fetch, hi.p]; exact hr')]
      exact .inr ⟨rfl, hfull⟩

/-- Settles O52: `step_follows`, where a full device leaves only the first way. -/
theorem romAndFlashRunInLockstep : Obligations.RomAndFlashRunInLockstep := by
  intro s f t h hs hf hinv hinv' hx
  rcases step_follows h hs hf hinv.1 hinv'.1 hx with hnext | ⟨hfault, hfull⟩
  · exact ⟨.inl hnext, fun _ => hnext⟩
  · exact ⟨.inr hfault, fun hdevice => absurd hdevice hfull⟩

end Sys2Proof.Machine
end

section
/-! Everything a tick of the whole machine can do, said once: a request waits, is answered or stops, or, with none outstanding, the
ExecutionUnit acts (40_execution_cycle.md R170 to R178). -/

namespace Sys2Proof.Machine

/-! ## The data access of MEM_WAIT -/

/-- What retiring the access does, from the state with the data bus idle again; `w` is the bus's answer. -/
def MemAccess.retire (m : MemAccess) (w : Word) (s : State) : State :=
  match m with
  | .load n signed rd _ => advance (setReg s rd (extendLoad signed n w))
  | .store _ _ _ => advance s

/-- The trap of an access that fails its alignment check. -/
def MemAccess.misalignedCause : MemAccess → Cause
  | .load .. => .loadAddressMisaligned
  | .store .. => .storeAddressMisaligned

theorem memWaitTick_idle {m : MemAccess} {s : State} (h : s.micro.dbus = .idle) (t : State) :
    memWaitTick m s t = if m.isAligned then setBus .data m.request t else setEu (.trapEntry ⟨m.misalignedCause, s.pc⟩) t := by
  have hc : s.micro.dbus.cycle = false := by rw [h]; rfl
  cases m <;> simp only [memWaitTick, hc, Bool.false_eq_true, if_false] <;> rfl

theorem memWaitTick_acknowledged {m : MemAccess} {s : State} {w : Word}
    (h : s.micro.dbus = { m.request with acknowledge := true, dataOut := w }) (t : State) :
    memWaitTick m s t = m.retire w (setEu .fetch (setBus .data .idle t)) := by
  cases m <;> simp only [memWaitTick, h] <;> rfl

/-! ## The ExecutionUnit acting -/

/-- What the ExecutionUnit can do in a tick that begins at `s` with no request outstanding, `t` being the stores' part of the state
after it. -/
inductive Acts (s t : State) : Result → Prop
  /-- FETCH at an aligned pc. -/
  | requestsFetch (he : s.micro.eu.state = .fetch) (hd : s.micro.dbus = .idle) (ha : aligned s.pc .word = true) :
      Acts s t (.next (setEu .fetchWait (setBus .instruction (readRequest .word s.pc) t)))
  /-- FETCH at a misaligned pc. -/
  | refusesFetch (he : s.micro.eu.state = .fetch) (hi : s.micro.ibus = .idle) (hd : s.micro.dbus = .idle)
      (ha : aligned s.pc .word = false) :
      Acts s t (.next (setEu (.trapEntry ⟨.instructionAddressMisaligned, s.pc⟩) t))
  /-- FETCH_WAIT with the word acknowledged. -/
  | latches (w : Word) (he : s.micro.eu.state = .fetchWait) (hi : s.micro.ibus.cycle = true)
      (hack : s.micro.ibus.acknowledge = true) (hd : s.micro.dbus = .idle) (hf : fetch s = .ok w) :
      Acts s t (.next (setWaitCnt 1 (setBus .instruction .idle (latch w t))))
  /-- FETCH_WAIT with the word latched, the wait counter not done. -/
  | counts (he : s.micro.eu.state = .fetchWait) (hi : s.micro.ibus = .idle) (hd : s.micro.dbus = .idle)
      (hc : s.micro.eu.waitCnt < s.config.waitTicks) : Acts s t (.next (setWaitCnt (s.micro.eu.waitCnt + 1) t))
  /-- FETCH_WAIT with the wait counter done. -/
  | decodes (he : s.micro.eu.state = .fetchWait) (hi : s.micro.ibus = .idle) (hd : s.micro.dbus = .idle) :
      Acts s t (.next (setEu .decodeExecute (setWaitCnt 0 t)))
  /-- DECODE_EXECUTE of a word that is no row. -/
  | refuses (stage : Stage) (he : s.micro.eu.state = .decodeExecute) (hw : decodeWord s.micro.eu.ir = .error stage) :
      Acts s t (.refused (.unenumerated stage))
  /-- DECODE_EXECUTE of a load or store. -/
  | opensAccess (i : Instr) (m : MemAccess) (he : s.micro.eu.state = .decodeExecute) (hi : s.micro.ibus = .idle)
      (hd : s.micro.dbus = .idle) (hw : decodeWord s.micro.eu.ir = .ok i) (hm : memAccess i s = some m) :
      Acts s t (.next (setEu .memWait t))
  /-- DECODE_EXECUTE of ECALL and EBREAK. -/
  | opensTrap (i : Instr) (c : TrapContext) (he : s.micro.eu.state = .decodeExecute) (hi : s.micro.ibus = .idle)
      (hd : s.micro.dbus = .idle) (hw : decodeWord s.micro.eu.ir = .ok i) (hc : decodedTrap i s = some c) :
      Acts s t (.next (setEu (.trapEntry c) t))
  /-- DECODE_EXECUTE of any other instruction. -/
  | executes (i : Instr) (r : Result) (he : s.micro.eu.state = .decodeExecute) (hi : s.micro.ibus = .idle)
      (hd : s.micro.dbus = .idle) (hw : decodeWord s.micro.eu.ir = .ok i) (hx : exec i (setEu .fetch t) = r) : Acts s t r
  /-- MEM_WAIT with an aligned access. -/
  | requestsAccess (i : Instr) (m : MemAccess) (he : s.micro.eu.state = .memWait) (hi : s.micro.ibus = .idle)
      (hd : s.micro.dbus = .idle) (hw : decodeWord s.micro.eu.ir = .ok i) (hm : memAccess i s = some m)
      (ha : m.isAligned = true) : Acts s t (.next (setBus .data m.request t))
  /-- MEM_WAIT with a misaligned access. -/
  | refusesAccess (i : Instr) (m : MemAccess) (he : s.micro.eu.state = .memWait) (hi : s.micro.ibus = .idle)
      (hd : s.micro.dbus = .idle) (hw : decodeWord s.micro.eu.ir = .ok i) (hm : memAccess i s = some m)
      (ha : m.isAligned = false) : Acts s t (.next (setEu (.trapEntry ⟨m.misalignedCause, s.pc⟩) t))
  /-- MEM_WAIT with the access acknowledged. -/
  | retiresAccess (i : Instr) (m : MemAccess) (w : Word) (he : s.micro.eu.state = .memWait) (hi : s.micro.ibus = .idle)
      (hw : decodeWord s.micro.eu.ir = .ok i) (hm : memAccess i s = some m) (ha : m.isAligned = true)
      (hans : Answered s .data m.request w) : Acts s t (.next (m.retire w (setEu .fetch (setBus .data .idle t))))
  /-- TRAP_ENTRY. -/
  | entersTrap (c : TrapContext) (he : s.micro.eu.state = .trapEntry c) (hi : s.micro.ibus = .idle) (hd : s.micro.dbus = .idle) :
      Acts s t (.next (takeTrap c.cause c.faultingPc t))

theorem busesFollow_fetchWait {s : State} (h : BusesFollow s) (he : s.micro.eu.state = .fetchWait) : s.micro.dbus = .idle ∧
    (s.micro.ibus = .idle ∨ aligned s.pc .word = true ∧ Carries s .instruction (readRequest .word s.pc)) := by
  simpa only [BusesFollow, he] using h

theorem busesFollow_memWait {s : State} (h : BusesFollow s) (he : s.micro.eu.state = .memWait) : s.micro.ibus = .idle ∧
    ∃ i m, decodeWord s.micro.eu.ir = .ok i ∧ memAccess i s = some m ∧
      (s.micro.dbus = .idle ∨ m.isAligned = true ∧ Carries s .data m.request) := by
  simpa only [BusesFollow, he] using h

/-- DECODE_EXECUTE, by what the latched word is. -/
theorem decodeTick_acts {s : State} (he : s.micro.eu.state = .decodeExecute) (hi : s.micro.ibus = .idle)
    (hd : s.micro.dbus = .idle) (t : State) : Acts s t (decodeTick s t) := by
  cases hw : decodeWord s.micro.eu.ir with
  | error stage =>
    simp only [decodeTick, hw]
    exact .refuses stage he hw
  | ok i =>
    cases hm : memAccess i s with
    | some m =>
      simp only [decodeTick, hw, hm]
      exact .opensAccess i m he hi hd hw hm
    | none =>
      cases hc : decodedTrap i s with
      | some c =>
        simp only [decodeTick, hw, hm, hc]
        exact .opensTrap i c he hi hd hw hc
      | none =>
        simp only [decodeTick, hw, hm, hc]
        exact .executes i _ he hi hd hw rfl

/-- With no request outstanding the ExecutionUnit acts, in one of the ways listed. -/
theorem eu_acts {s : State} (h : BusesFollow s) (h1 : s.micro.ibus.requests = false) (h2 : s.micro.dbus.requests = false)
    (t : State) : Acts s t (euTick s t) := by
  cases he : s.micro.eu.state with
  | fetch =>
    obtain ⟨hi, hd⟩ : s.micro.ibus = .idle ∧ s.micro.dbus = .idle := by simpa only [BusesFollow, he] using h
    cases ha : aligned s.pc .word with
    | true =>
      simp only [euTick, he, fetchTick, ha, if_true]
      exact .requestsFetch he hd ha
    | false =>
      simp only [euTick, he, fetchTick, ha, Bool.false_eq_true, if_false]
      exact .refusesFetch he hi hd ha
  | fetchWait =>
    obtain ⟨hd, hi | ⟨-, hc | ⟨w, hc, hans⟩⟩⟩ := busesFollow_fetchWait h he
    · have hcycle : s.micro.ibus.cycle = false := by rw [hi]; rfl
      by_cases hc : s.micro.eu.waitCnt < s.config.waitTicks
      · simp only [euTick, he, fetchWaitTick, hcycle, Bool.false_eq_true, if_false, hc, if_true]
        exact .counts he hi hd hc
      · simp only [euTick, he, fetchWaitTick, hcycle, Bool.false_eq_true, if_false, hc]
        exact .decodes he hi hd
    · rw [busOf_instruction] at hc
      rw [hc] at h1
      cases h1
    · rw [busOf_instruction] at hc
      simp only [euTick, he, fetchWaitTick, hc]
      exact .latches w he (by rw [hc]; rfl) (by rw [hc]) hd hans
  | decodeExecute =>
    obtain ⟨hi, hd⟩ : s.micro.ibus = .idle ∧ s.micro.dbus = .idle := by simpa only [BusesFollow, he] using h
    simp only [euTick, he]
    exact decodeTick_acts he hi hd t
  | memWait =>
    obtain ⟨hi, i, m, hw, hm, hd | ⟨ha, hc | ⟨w, hc, hans⟩⟩⟩ := busesFollow_memWait h he
    · simp only [euTick, he, hw, hm, memWaitTick_idle hd]
      cases ha : m.isAligned with
      | true => exact .requestsAccess i m he hi hd hw hm ha
      | false => exact .refusesAccess i m he hi hd hw hm ha
    · rw [busOf_data] at hc
      rw [hc, requests_request] at h2
      cases h2
    · rw [busOf_data] at hc
      simp only [euTick, he, hw, hm, memWaitTick_acknowledged hc]
      exact .retiresAccess i m w he hi hw hm ha hans
  | trapEntry c =>
    obtain ⟨hi, hd⟩ : s.micro.ibus = .idle ∧ s.micro.dbus = .idle := by simpa only [BusesFollow, he] using h
    simp only [euTick, he]
    exact .entersTrap c he hi hd

/-! ## The whole tick -/

/-- `t` is `s` but for the acknowledge counters, the SPI controller and the flash device. -/
structure Unmoved (s t : State) : Prop extends Kept s t where
  m : t.mem = s.mem
  i : t.micro.ibus = s.micro.ibus
  d : t.micro.dbus = s.micro.dbus

theorem Unmoved.arch {s t : State} (h : Unmoved s t) : arch s = arch t := arch_eq_iff.mpr ⟨h.r, h.p, h.c, h.m, h.f, h.g⟩

/-- The four outcomes of a tick. -/
inductive TickOutcome (s : State) : Result → Prop
  /-- The request outstanding waits. -/
  | waits (t : State) (n : BusName) (r : Bus) (hp : Pending s n r) (hu : Unmoved s t) (hs : SpiFollows t)
      (hticks : ∀ k o, route s.config .data r.address = some (k, o) → ticksToAnswer t < ticksToAnswer s) :
      TickOutcome s (.next t)
  /-- The request outstanding is answered. -/
  | answers (t : State) (n : BusName) (r : Bus) (w : Word) (hp : Pending s n r) (hk : Kept s t)
      (hb : busOf t n = { r with acknowledge := true, dataOut := w }) (ho : busOf t (otherBus n) = .idle)
      (ha : Answered t n r w)
      (hm : if r.writeEnable then ∃ s', memWrite r.address r.width r.dataIn s = .ok s' ∧ t.mem = s'.mem else t.mem = s.mem)
      (hs : SpiFollows t)
      (hfl : ∀ o, route s.config .data r.address = some (.flash, o) → t.micro.spi.state = .waiting ∧ t.micro.spi.cs = false) :
      TickOutcome s (.next t)
  /-- The request outstanding stops the machine. -/
  | stops (n : BusName) (r : Bus) (f : Fault) (hp : Pending s n r)
      (hroute : ∃ k o, route s.config .data r.address = some (k, o))
      (hf : if r.writeEnable then memWrite r.address r.width r.dataIn s = .error f
        else memRead n r.address r.width s = .error f) : TickOutcome s (.fault f)
  /-- No request is outstanding, and the ExecutionUnit acts. -/
  | acts (t : State) (r : Result) (h1 : s.micro.ibus.requests = false) (h2 : s.micro.dbus.requests = false)
      (hu : Unmoved s t) (hs : SpiFollows t) (hspi : t.micro.spi.state ≠ .tx ∧ t.micro.spi.state ≠ .rx) (ha : Acts s t r) : TickOutcome s r

theorem tick_outcome {s : State} (hinv : RunInv s) (h : MicroInv s) : TickOutcome s (tick s) := by
  have hout := stores_outcome_of hinv h
  rw [tick]
  generalize storesTick s = x at hout
  cases hout with
  | waits t hk hm hi hd hs hidle hticks =>
    have hu : Unmoved s t := { hk with m := hm, i := hi, d := hd }
    rcases quiet_or_pending h.1 with ⟨h1, h2⟩ | ⟨n, r, hp⟩
    · exact .acts t _ h1 h2 hu hs (hidle h1 h2) (eu_acts h.1 h1 h2 t)
    · simp only [eu_waits h.1 hp]
      exact .waits t n r hp hu hs fun k o hroute => hticks ⟨n, r, k, o, hp, hroute⟩
  | answers t n r w hp hk hb ho ha hm hs hfl =>
    simp only [eu_waits h.1 hp]
    exact .answers t n r w hp hk hb ho ha hm hs.1 fun o hroute => ⟨(hfl o hroute).1, (hfl o hroute).2.2⟩
  | stops n r f hp hroute hf => exact .stops n r f hp hroute hf

/-! ## Whose request is outstanding -/

/-- The request `r` on the bus `n` is the fetch's or the latched instruction's. -/
inductive Asks (s : State) : BusName → Bus → Prop
  | fetch (he : s.micro.eu.state = .fetchWait) (ha : aligned s.pc .word = true) :
      Asks s .instruction (readRequest .word s.pc)
  | access (i : Instr) (m : MemAccess) (he : s.micro.eu.state = .memWait) (hw : decodeWord s.micro.eu.ir = .ok i)
      (hm : memAccess i s = some m) (ha : m.isAligned = true) : Asks s .data m.request

theorem asks_of_pending {s : State} (h : BusesFollow s) {n : BusName} {r : Bus} (hp : Pending s n r) : Asks s n r := by
  cases he : s.micro.eu.state with
  | fetch | decodeExecute | trapEntry =>
    obtain ⟨hi, hd⟩ : s.micro.ibus = .idle ∧ s.micro.dbus = .idle := by simpa only [BusesFollow, he] using h
    exact (not_pending (by rw [hi]; rfl) (by rw [hd]; rfl) hp).elim
  | fetchWait =>
    obtain ⟨hd, hi | ⟨ha, hc | ⟨w, hc, -⟩⟩⟩ := busesFollow_fetchWait h he
    · exact (not_pending (by rw [hi]; rfl) (by rw [hd]; rfl) hp).elim
    · obtain ⟨rfl, rfl⟩ := pending_unique ⟨hc, hd, rfl, fun h => by cases h⟩ hp
      exact .fetch he ha
    · rw [busOf_instruction] at hc
      exact (not_pending (by rw [hc]; exact requests_acknowledged _ _) (by rw [hd]; rfl) hp).elim
  | memWait =>
    obtain ⟨hi, i, m, hw, hm, hd | ⟨ha, hc | ⟨w, hc, -⟩⟩⟩ := busesFollow_memWait h he
    · exact (not_pending (by rw [hi]; rfl) (by rw [hd]; rfl) hp).elim
    · obtain ⟨rfl, rfl⟩ := pending_unique ⟨hc, hi, requests_request m, fun _ => rfl⟩ hp
      exact .access i m he hw hm ha
    · rw [busOf_data] at hc
      exact (not_pending (by rw [hi]; rfl) (by rw [hc]; exact requests_acknowledged _ _) hp).elim

theorem Kept.sameInputs {s t : State} (h : Kept s t) : SameInputs s t := ⟨h.r, h.p, h.c, by rw [h.g]⟩

theorem Asks.kept {s t : State} {n : BusName} {r : Bus} (h : Asks s n r) (hk : Kept s t) : Asks t n r := by
  cases h with
  | fetch he ha =>
    rw [← hk.p]
    exact .fetch (by rw [hk.e, he]) (by rw [hk.p, ha])
  | access i m he hw hm ha =>
    exact .access i m (by rw [hk.e, he]) (by rw [hk.e, hw]) (by rw [memAccess_congr hk.sameInputs, hm]) ha

/-! ## What the buses carry after a tick -/

theorem busesFollow_of_asks {s : State} {n : BusName} {r : Bus} (h : Asks s n r) (ho : busOf s (otherBus n) = .idle)
    (hc : Carries s n r) : BusesFollow s := by
  cases h with
  | fetch he ha =>
    simp only [BusesFollow, he]
    exact ⟨ho, .inr ⟨ha, hc⟩⟩
  | access i m he hw hm ha =>
    simp only [BusesFollow, he]
    exact ⟨ho, i, m, hw, hm, .inr ⟨ha, hc⟩⟩

theorem busesFollow_of_idle {s : State} (hi : s.micro.ibus = .idle) (hd : s.micro.dbus = .idle)
    (he : s.micro.eu.state ≠ .memWait) : BusesFollow s := by
  cases hs : s.micro.eu.state with
  | memWait => exact absurd hs he
  | fetchWait =>
    simp only [BusesFollow, hs]
    exact ⟨hd, .inl hi⟩
  | fetch | decodeExecute | trapEntry =>
    simp only [BusesFollow, hs]
    exact ⟨hi, hd⟩

/-! ## Every tick keeps both invariants -/

/-- What an instruction leaves of the SPI controller and the device: all, or a read served, after which they wait. -/
theorem exec_keeps_spiFollows {i : Instr} {s t : State} (h : exec i s = .next t) (hs : SpiFollows s)
    (hspi : s.micro.spi.state ≠ .tx ∧ s.micro.spi.state ≠ .rx) : SpiFollows t := by
  obtain ⟨hflash, hconfig⟩ := exec_flash_config h
  have hread : ∀ bus a, ((afterRead bus a s).micro.spi = s.micro.spi ∧ (afterRead bus a s).micro.flashDev = s.micro.flashDev) ∨
      ∃ w, (afterRead bus a s).micro.spi = .served w := by
    intro bus a
    unfold afterRead
    split
    · split
      · exact .inr ⟨_, rfl⟩
      · exact .inl ⟨rfl, rfl⟩
    · exact .inl ⟨rfl, rfl⟩
  have hsame : (t.micro.spi = s.micro.spi ∧ t.micro.flashDev = s.micro.flashDev) ∨ ∃ w, t.micro.spi = .served w := by
    cases exec_effect h with
    | loads n rd a v w hd hc hs ha hr => simpa using hread .data a
    | _ => exact .inl ⟨by simp, by simp⟩
  rcases hsame with ⟨h1, h2⟩ | ⟨w, h1⟩
  · exact spiFollows_congr h1 h2 hflash hconfig (.inl hspi) hs
  · simp only [SpiFollows, h1, SpiController.served]
    exact ⟨trivial, trivial⟩

/-- A next state of the ExecutionUnit's that leaves the registers, the stores and the SPI controller as `t` has them. -/
theorem invariants_of_same {t u : State} (hinv : RunInv t) (hs : SpiFollows t)
    (hspi : t.micro.spi.state ≠ .tx ∧ t.micro.spi.state ≠ .rx) (hr : u.regs = t.regs) (hm : u.mem = t.mem)
    (hf : u.flash = t.flash) (hg : u.config = t.config) (h1 : u.micro.spi = t.micro.spi)
    (h2 : u.micro.flashDev = t.micro.flashDev) (hb : BusesFollow u) : RunInv u ∧ MicroInv u :=
  ⟨runInv_congr hinv hr hm hf, hb, spiFollows_congr h1 h2 hf hg (.inl hspi) hs⟩

theorem runInv_setReg {s : State} (h : RunInv s) (rd : RegIdx) (v : Word) : RunInv (setReg s rd v) := by
  obtain ⟨hm, hf, hma, hfa, h0⟩ := h
  rw [RunInv, setReg_mem, setReg_flash]
  exact ⟨hm, hf, hma, hfa, setReg_slot_zero h0 rd v⟩

theorem retire_same (m : MemAccess) (w : Word) (s : State) : (m.retire w s).mem = s.mem ∧ (m.retire w s).flash = s.flash ∧
    (m.retire w s).config = s.config ∧ (m.retire w s).micro = s.micro := by
  cases m <;> simp [MemAccess.retire]

theorem runInv_retire {s : State} (h : RunInv s) (m : MemAccess) (w : Word) : RunInv (m.retire w s) := by
  cases m with
  | load n signed rd a => exact runInv_congr (runInv_setReg h rd _) rfl rfl rfl
  | store n a v => exact h

/-- The ExecutionUnit, acting, keeps both invariants. -/
theorem acts_keeps {s t u : State} (hu : Unmoved s t) (hinv : RunInv t) (hs : SpiFollows t)
    (hspi : t.micro.spi.state ≠ .tx ∧ t.micro.spi.state ≠ .rx) (ha : Acts s t (.next u)) : RunInv u ∧ MicroInv u := by
  cases ha with
  | requestsFetch he hd ha =>
    refine invariants_of_same hinv hs hspi rfl rfl rfl rfl rfl rfl ?_
    refine busesFollow_of_asks (n := .instruction) (r := readRequest .word s.pc) ?_ (hu.d.trans hd) (.inl rfl)
    rw [← hu.p] at ha ⊢
    exact .fetch rfl ha
  | refusesFetch he hi hd ha =>
    exact invariants_of_same hinv hs hspi rfl rfl rfl rfl rfl rfl
      (busesFollow_of_idle (hu.i.trans hi) (hu.d.trans hd) (by simp))
  | latches w he hi hack hd hf =>
    refine invariants_of_same hinv hs hspi rfl rfl rfl rfl rfl rfl (busesFollow_of_idle rfl (hu.d.trans hd) ?_)
    simp [hu.e, he]
  | counts he hi hd hc =>
    refine invariants_of_same hinv hs hspi rfl rfl rfl rfl rfl rfl (busesFollow_of_idle (hu.i.trans hi) (hu.d.trans hd) ?_)
    simp [hu.e, he]
  | decodes he hi hd =>
    exact invariants_of_same hinv hs hspi rfl rfl rfl rfl rfl rfl
      (busesFollow_of_idle (hu.i.trans hi) (hu.d.trans hd) (by simp))
  | opensAccess i m he hi hd hw hm =>
    refine invariants_of_same hinv hs hspi rfl rfl rfl rfl rfl rfl ⟨hu.i.trans hi, i, m, ?_, ?_, .inl (hu.d.trans hd)⟩
    · rw [setEu_micro, hu.e, hw]
    · rw [← hm]
      exact memAccess_congr hu.sameInputs i
  | opensTrap i c he hi hd hw hc =>
    exact invariants_of_same hinv hs hspi rfl rfl rfl rfl rfl rfl
      (busesFollow_of_idle (hu.i.trans hi) (hu.d.trans hd) (by simp))
  | executes i _ he hi hd hw hx =>
    obtain ⟨heu, hib, hdb, -, -⟩ := exec_micro hx rfl
    refine ⟨exec_keeps_runInv (s := setEu .fetch t) hinv hx, ?_, exec_keeps_spiFollows hx hs hspi⟩
    exact busesFollow_of_idle (hib.trans (hu.i.trans hi)) (hdb.trans (hu.d.trans hd)) (by rw [heu]; simp)
  | requestsAccess i m he hi hd hw hm ha =>
    refine invariants_of_same hinv hs hspi rfl rfl rfl rfl rfl rfl ?_
    refine busesFollow_of_asks (n := .data) (r := m.request) (.access i m ?_ ?_ ?_ ha) (hu.i.trans hi) (.inl rfl)
    · exact (congrArg ExecUnit.state hu.e).trans he
    · rw [setBus_data_micro, hu.e, hw]
    · rw [← hm]
      exact memAccess_congr hu.sameInputs i
  | refusesAccess i m he hi hd hw hm ha =>
    exact invariants_of_same hinv hs hspi rfl rfl rfl rfl rfl rfl
      (busesFollow_of_idle (hu.i.trans hi) (hu.d.trans hd) (by simp))
  | retiresAccess i m w he hi hw hm ha hans =>
    obtain ⟨-, hf, hg, hmicro⟩ := retire_same m w (setEu .fetch (setBus .data .idle t))
    refine ⟨runInv_retire (s := setEu .fetch (setBus .data .idle t)) hinv m w, ?_,
      spiFollows_congr (s := t) (by rw [hmicro]; rfl) (by rw [hmicro]; rfl) hf hg (.inl hspi) hs⟩
    exact busesFollow_of_idle (by rw [hmicro]; exact hu.i.trans hi) (by rw [hmicro]; rfl) (by rw [hmicro]; simp)
  | entersTrap c he hi hd =>
    exact invariants_of_same hinv hs hspi rfl rfl rfl rfl rfl rfl
      (busesFollow_of_idle (hu.i.trans hi) (hu.d.trans hd) (by simp))

/-- The answer to a request leaves the registers, and the memory as it was or with an aligned store inside the RAM done. -/
theorem runInv_of_answer {s t : State} (hinv : RunInv s) {r : Bus} (ha : aligned r.address r.width = true) (hk : Kept s t)
    (hm : if r.writeEnable then ∃ s', memWrite r.address r.width r.dataIn s = .ok s' ∧ t.mem = s'.mem else t.mem = s.mem) :
    RunInv t := by
  split at hm
  · obtain ⟨s', hw, hm⟩ := hm
    obtain ⟨hin, rfl⟩ := memWrite_eq_ok.mp hw
    obtain ⟨hwf, hf, hma, hfa, h0⟩ := hinv
    obtain ⟨hwf', hma'⟩ := writeBytes_keeps hwf hma hin ha r.dataIn
    rw [RunInv, hk.r, hk.f, hm]
    exact ⟨hwf', hf, hma', hfa, h0⟩
  · exact runInv_congr hinv hk.r hm hk.f

theorem tick_keeps {s t : State} (hinv : RunInv s) (h : MicroInv s) (ht : tick s = .next t) : RunInv t ∧ MicroInv t := by
  have hout := tick_outcome hinv h
  rw [ht] at hout
  cases hout with
  | waits _ n r hp hu hs hticks =>
    have hb : ∀ m, busOf t m = busOf s m := by
      intro m
      cases m
      · exact hu.i
      · exact hu.d
    refine ⟨runInv_congr hinv hu.r hu.m hu.f, ?_, hs⟩
    exact busesFollow_of_asks ((asks_of_pending h.1 hp).kept hu.toKept) ((hb _).trans hp.idle) (.inl ((hb n).trans hp.bus))
  | answers _ n r w hp hk hb ho ha hm hs hfl =>
    exact ⟨runInv_of_answer hinv (pending_aligned h.1 hp) hk hm,
      busesFollow_of_asks ((asks_of_pending h.1 hp).kept hk) ho (.inr ⟨w, hb, ha⟩), hs⟩
  | acts t' _ h1 h2 hu hs hspi ha => exact acts_keeps hu (runInv_congr hinv hu.r hu.m hu.f) hs hspi ha

/-- Settles O58: `tick_keeps`. -/
theorem tickKeepsInvariants : Obligations.TickKeepsInvariants := fun _ _ hinv h ht => tick_keeps hinv h ht

end Sys2Proof.Machine
end

section
/-! The cycle-level machine refines the architectural step (00_scope.md R9; the spec's decision D28): each outcome of a tick, held against
what the step does from the state before it. -/

namespace Sys2Proof.Machine

/-! ## The step, by the state of the ExecutionUnit -/

theorem step_of_fetching {s : State} (he : s.micro.eu.state = .fetchWait) (hc : s.micro.ibus.cycle = true) :
    step s = fetchAndExecute s := by
  simp only [step, runToRetire, he, hc, if_true]

theorem step_of_fetchWait_idle {s : State} (he : s.micro.eu.state = .fetchWait) (hc : s.micro.ibus.cycle = false) :
    step s = executeLatched s := by
  simp only [step, runToRetire, he, hc, Bool.false_eq_true, if_false]

theorem step_of_decodeExecute {s : State} (he : s.micro.eu.state = .decodeExecute) : step s = executeLatched s := by
  simp only [step, runToRetire, he]

theorem step_of_memWait {s : State} (he : s.micro.eu.state = .memWait) : step s = executeLatched s := by
  simp only [step, runToRetire, he]

theorem step_of_trapEntry {s : State} {c : TrapContext} (he : s.micro.eu.state = .trapEntry c) :
    step s = .next (takeTrap c.cause c.faultingPc (quiesce s)) := by
  simp only [step, runToRetire, he]

/-- Of the microarchitectural part a step sees where the ExecutionUnit stands, the latch, and whether the fetch is still to complete. -/
theorem step_congr {s t : State} (h : arch s = arch t) (he : t.micro.eu.state = s.micro.eu.state)
    (hir : t.micro.eu.ir = s.micro.eu.ir) (hc : t.micro.ibus.cycle = s.micro.ibus.cycle) : SameOutcome (step s) (step t) := by
  obtain ⟨-, hp, -⟩ := arch_eq_iff.mp h
  cases hs : s.micro.eu.state with
  | fetch =>
    rw [step_of_state_fetch hs, step_of_state_fetch (he.trans hs), hp]
    split
    · exact fetchAndExecute_arch h
    · exact sameOutcome_next (arch_takeTrap h _ _)
  | fetchWait =>
    cases hcs : s.micro.ibus.cycle with
    | true =>
      rw [step_of_fetching hs hcs, step_of_fetching (he.trans hs) (hc.trans hcs)]
      exact fetchAndExecute_arch h
    | false =>
      rw [step_of_fetchWait_idle hs hcs, step_of_fetchWait_idle (he.trans hs) (hc.trans hcs)]
      exact executeLatched_arch h hir
  | decodeExecute =>
    rw [step_of_decodeExecute hs, step_of_decodeExecute (he.trans hs)]
    exact executeLatched_arch h hir
  | memWait =>
    rw [step_of_memWait hs, step_of_memWait (he.trans hs)]
    exact executeLatched_arch h hir
  | trapEntry c =>
    rw [step_of_trapEntry hs, step_of_trapEntry (he.trans hs)]
    exact sameOutcome_next (arch_takeTrap (s := quiesce s) (t := quiesce t) h _ _)

/-! ## The access -/

theorem executeLatched_access {s : State} {i : Instr} {m : MemAccess} (hw : decodeWord s.micro.eu.ir = .ok i)
    (hm : memAccess i s = some m) : SameOutcome (executeLatched s) (perform m s) := by
  simp only [executeLatched, hw]
  rw [← exec_access hm (SameInputs.refl s)]
  exact exec_arch (s := quiesce s) (arch_quiesce s) i

theorem step_access {s : State} {i : Instr} {m : MemAccess} (he : s.micro.eu.state = .memWait)
    (hw : decodeWord s.micro.eu.ir = .ok i) (hm : memAccess i s = some m) : SameOutcome (step s) (perform m s) := by
  rw [step_of_memWait he]
  exact executeLatched_access hw hm

theorem perform_misaligned {m : MemAccess} (ha : m.isAligned = false) (s : State) :
    perform m s = .next (takeTrap m.misalignedCause s.pc s) := by
  cases m with
  | load n signed rd a =>
    rw [MemAccess.isAligned] at ha
    simp only [perform, load, ha, Bool.false_eq_true, if_false, MemAccess.misalignedCause]
  | store n a v =>
    rw [MemAccess.isAligned] at ha
    simp only [perform, store, ha, Bool.false_eq_true, if_false, MemAccess.misalignedCause]

theorem perform_error {m : MemAccess} (ha : m.isAligned = true) {s : State} {f : Fault}
    (hf : if m.request.writeEnable then memWrite m.request.address m.request.width m.request.dataIn s = .error f
      else memRead .data m.request.address m.request.width s = .error f) : perform m s = .fault f := by
  cases m with
  | load n signed rd a => exact load_eq_fault ha hf
  | store n a v => exact store_eq_fault ha hf

/-- An access that the bus has answered does what retiring it does. -/
theorem perform_answered {m : MemAccess} (ha : m.isAligned = true) {s : State} {w : Word}
    (hans : Answered s .data m.request w) : SameOutcome (perform m s) (.next (m.retire w s)) := by
  cases m with
  | load n signed rd a =>
    have hread : memRead .data a n s = .ok (lowBytes n w) := hans
    rw [perform, load_eq_next ha hread, extendLoad_lowBytes]
    exact sameOutcome_next (arch_advance (arch_setReg (afterRead_arch _ _ _) _ _))
  | store n a v =>
    have hwrite : memWrite a n v s = .ok s := hans
    have ha : aligned a n = true := ha
    simp only [perform, store, ha, if_true, hwrite]
    exact sameOutcome_refl _

theorem arch_retire {s t : State} (h : arch s = arch t) (m : MemAccess) (w : Word) :
    arch (m.retire w s) = arch (m.retire w t) := by
  cases m with
  | load n signed rd a => exact arch_advance (arch_setReg h _ _)
  | store n a v => exact arch_advance h

/-- ECALL and EBREAK take the trap that DECODE_EXECUTE raises. -/
theorem exec_of_decodedTrap {i : Instr} {s : State} {c : TrapContext} (h : decodedTrap i s = some c) (u : State)
    (hp : u.pc = s.pc) : exec i u = .next (takeTrap c.cause c.faultingPc u) := by
  cases i
  case ecall | ebreak =>
    cases h
    simp only [← hp]
    rfl
  all_goals cases h

/-! ## Refinement -/

/-- What O59 asks of the outcome `r` of a tick at `s`. -/
def Refines (s : State) (r : Result) : Prop :=
  match r with
  | .next t =>
    if s.micro.eu.state ≠ .fetch ∧ t.micro.eu.state = .fetch then SameOutcome (step s) (.next t)
    else SameOutcome (step s) (step t)
  | .fault f => step s = .fault f
  | .refused x => step s = .refused x

theorem refines_of_sameOutcome {s : State} {r : Result} (he : s.micro.eu.state ≠ .fetch)
    (ht : ∀ t, r = .next t → t.micro.eu.state = .fetch) (h : SameOutcome (step s) r) : Refines s r := by
  cases r with
  | next t => exact (if_pos ⟨he, ht t rfl⟩).mpr h
  | fault f => exact h.eq_fault
  | refused x => exact h.eq_refused

theorem refines_of_goesOn {s t : State} (he : t.micro.eu.state ≠ .fetch) (h : SameOutcome (step s) (step t)) :
    Refines s (.next t) :=
  (if_neg fun hret => he hret.2).mpr h

/-- Each action of the ExecutionUnit refines the step. -/
theorem acts_refines {s t : State} {r : Result} (hu : Unmoved s t) (ha : Acts s t r) : Refines s r := by
  have harch := hu.arch
  have hir : t.micro.eu.ir = s.micro.eu.ir := by rw [hu.e]
  have hcycle : t.micro.ibus.cycle = s.micro.ibus.cycle := by rw [hu.i]
  cases ha with
  | requestsFetch he hd ha =>
    refine refines_of_goesOn (by simp) ?_
    rw [step_of_state_fetch he, if_pos ha, step_of_fetching rfl rfl]
    exact fetchAndExecute_arch harch
  | refusesFetch he hi hd ha =>
    refine refines_of_goesOn (by simp) ?_
    rw [step_of_state_fetch he, ha, step_of_trapEntry rfl]
    exact sameOutcome_next (arch_takeTrap (s := s) (t := quiesce t) harch _ _)
  | latches w he hi hack hd hf =>
    refine refines_of_goesOn (by simp [hu.e, he]) ?_
    rw [step_of_fetching he hi, step_of_fetchWait_idle (by simp [hu.e, he]) rfl, fetchAndExecute, hf]
    exact executeLatched_arch (arch_latch ((afterRead_arch _ _ _).trans harch) w) rfl
  | counts he hi hd hc =>
    exact refines_of_goesOn (by simp [hu.e, he]) (step_congr harch (by simp [hu.e]) hir hcycle)
  | decodes he hi hd =>
    refine refines_of_goesOn (by simp) ?_
    rw [step_of_fetchWait_idle he (by rw [hi]; rfl), step_of_decodeExecute rfl]
    exact executeLatched_arch harch hir
  | refuses stage he hw =>
    rw [Refines, step_of_decodeExecute he]
    simp only [executeLatched, hw]
  | opensAccess i m he hi hd hw hm =>
    refine refines_of_goesOn (by simp) ?_
    rw [step_of_decodeExecute he, step_of_memWait rfl]
    exact executeLatched_arch harch hir
  | opensTrap i c he hi hd hw hc =>
    refine refines_of_goesOn (by simp) ?_
    rw [step_of_decodeExecute he, step_of_trapEntry rfl]
    simp only [executeLatched, hw]
    rw [exec_of_decodedTrap hc (quiesce s) rfl]
    exact sameOutcome_next (arch_takeTrap (s := quiesce s) (t := quiesce t) harch _ _)
  | executes i _ he hi hd hw hx =>
    refine refines_of_sameOutcome (by simp [he]) (fun u hr => ?_) ?_
    · rw [hr] at hx
      obtain ⟨heu, -⟩ := exec_micro hx rfl
      rw [heu]
      rfl
    · rw [step_of_decodeExecute he, ← hx]
      simp only [executeLatched, hw]
      exact exec_arch (s := quiesce s) (t := setEu .fetch t) harch i
  | requestsAccess i m he hi hd hw hm ha =>
    refine refines_of_goesOn (by simp [hu.e, he]) (step_congr harch ?_ hir hcycle)
    simp [hu.e]
  | refusesAccess i m he hi hd hw hm ha =>
    refine refines_of_goesOn (by simp) ((step_access he hw hm).trans ?_)
    rw [perform_misaligned ha, step_of_trapEntry rfl]
    exact sameOutcome_next (arch_takeTrap (s := s) (t := quiesce t) harch _ _)
  | retiresAccess i m w he hi hw hm ha hans =>
    obtain ⟨-, -, -, hmicro⟩ := retire_same m w (setEu .fetch (setBus .data .idle t))
    refine refines_of_sameOutcome (by simp [he]) (fun u hr => ?_) ?_
    · cases hr
      rw [hmicro]
      rfl
    · exact ((step_access he hw hm).trans (perform_answered ha hans)).trans
        (sameOutcome_next (arch_retire (t := setEu .fetch (setBus .data .idle t)) harch m w))
  | entersTrap c he hi hd =>
    refine refines_of_sameOutcome (by simp [he]) (fun u hr => ?_) ?_
    · cases hr
      rfl
    · rw [step_of_trapEntry he]
      exact sameOutcome_next (arch_takeTrap (s := quiesce s) harch _ _)

/-- A request that stops the machine stops the step. -/
theorem step_of_request_error {s : State} (hb : BusesFollow s) {n : BusName} {r : Bus} {f : Fault} (hp : Pending s n r)
    (hf : if r.writeEnable then memWrite r.address r.width r.dataIn s = .error f
      else memRead n r.address r.width s = .error f) : step s = .fault f := by
  cases asks_of_pending hb hp with
  | fetch he ha =>
    have hfetch : fetch s = .error f := hf
    have hbus : s.micro.ibus = readRequest .word s.pc := hp.bus
    rw [step_of_fetching he (by rw [hbus]; rfl), fetchAndExecute, hfetch]
  | access i m he hw hm ha =>
    have hstep := step_access he hw hm
    rw [perform_error ha hf] at hstep
    exact hstep.eq_fault

/-- An answer to the request outstanding leaves what the step does as it was. -/
theorem step_of_answer {s t : State} (hb : BusesFollow s) {n : BusName} {r : Bus} {w : Word} (hp : Pending s n r) (hk : Kept s t)
    (hbus : busOf t n = { r with acknowledge := true, dataOut := w }) (ho : busOf t (otherBus n) = .idle)
    (hans : Answered t n r w)
    (hm : if r.writeEnable then ∃ s', memWrite r.address r.width r.dataIn s = .ok s' ∧ t.mem = s'.mem else t.mem = s.mem) :
    SameOutcome (step s) (step t) := by
  have hread : r.writeEnable = false → SameOutcome (step s) (step t) := fun hw => by
    rw [hw] at hm
    refine step_congr (arch_eq_iff.mpr ⟨hk.r, hk.p, hk.c, hm, hk.f, hk.g⟩) (by rw [hk.e]) (by rw [hk.e]) ?_
    have hs := hp.bus
    have hs' := hp.idle
    cases n
    · rw [busOf_instruction] at hs hbus
      rw [hbus, hs]
    · exact congrArg Bus.cycle (ho.trans hs'.symm)
  cases asks_of_pending hb hp with
  | fetch he ha => exact hread rfl
  | access i m he hw hacc ha =>
    cases m with
    | load n signed rd a => exact hread rfl
    | store n a v =>
      have hacc' : memAccess i t = some (.store n a v) := by rw [memAccess_congr hk.sameInputs, hacc]
      have hstep' := step_access (s := t) (by rw [hk.e, he]) (by rw [hk.e, hw]) hacc'
      refine ((step_access he hw hacc).trans ?_).trans (hstep'.trans (perform_answered ha hans)).symm
      obtain ⟨s', hwrite, hmem⟩ := hm
      have hwrite : memWrite a n v s = .ok s' := hwrite
      have ha : aligned a n = true := ha
      obtain ⟨-, rfl⟩ := memWrite_eq_ok.mp hwrite
      simp only [perform, store, ha, if_true, hwrite]
      exact sameOutcome_next (arch_advance (arch_eq_iff.mpr ⟨hk.r, hk.p, hk.c, hmem, hk.f, hk.g⟩))

theorem tick_refines {s : State} (hinv : RunInv s) (h : MicroInv s) : Refines s (tick s) := by
  have hwaiting : ∀ {n r t}, Pending s n r → Kept s t → SameOutcome (step s) (step t) → Refines s (.next t) := by
    intro n r t hp hk hstep
    refine refines_of_goesOn ?_ hstep
    rw [hk.e]
    cases asks_of_pending h.1 hp with
    | fetch he _ | access _ _ he _ _ _ => simp [he]
  have hout := tick_outcome hinv h
  generalize tick s = x at hout
  cases hout with
  | waits t n r hp hu hs hticks =>
    exact hwaiting hp hu.toKept (step_congr hu.arch (by rw [hu.e]) (by rw [hu.e]) (by rw [hu.i]))
  | answers t n r w hp hk hb ho ha hm hs hfl => exact hwaiting hp hk (step_of_answer h.1 hp hk hb ho ha hm)
  | stops n r f hp hroute hf => exact step_of_request_error h.1 hp hf
  | acts t _ h1 h2 hu hs hspi ha => exact acts_refines hu ha

/-- Settles O59: `tick_refines`. -/
theorem tickRefinesStep : Obligations.TickRefinesStep := fun _ hinv h => tick_refines hinv h

end Sys2Proof.Machine
end

section
/-! How many ticks a step takes (70_reset_and_hazards.md section 4; logs 36, 37, 40, 41, 48). -/

namespace Sys2Proof.Machine

/-! ## Requests -/

theorem Unmoved.busOf {s t : State} (h : Unmoved s t) (n : BusName) : busOf t n = busOf s n := by
  cases n
  · exact h.i
  · exact h.d

theorem Pending.unmoved {s t : State} {n : BusName} {r : Bus} (hp : Pending s n r) (h : Unmoved s t) : Pending t n r :=
  ⟨(h.busOf n).trans hp.bus, (h.busOf _).trans hp.idle, hp.req, hp.wr⟩

/-- A request that no region holds stops neither store but for want of a responder. -/
theorem request_unmapped {s : State} {r : Bus} (h : regionsEnd ≤ r.address.toNat) (n : BusName) :
    if r.writeEnable then memWrite r.address r.width r.dataIn s = .error .hangNoResponder
      else memRead n r.address r.width s = .error .hangNoResponder := by
  split
  · exact memWrite_unmapped h _ _
  · exact memRead_unmapped h _ _

/-- Only a request to a store is answered. -/
theorem mapped_of_answered {t : State} {n : BusName} {r : Bus} {w : Word} (h : Answered t n r w) :
    r.address.toNat < regionsEnd := by
  by_contra hlt
  have herr := request_unmapped (s := t) (Nat.le_of_not_lt hlt) n
  rw [Answered] at h
  split at h <;> rename_i hw
  · rw [if_pos hw, h] at herr
    cases herr
  · rw [if_neg hw, h] at herr
    cases herr

/-! ## A request with no responder -/

theorem tick_of_unmapped {s : State} {n : BusName} {r : Bus} (hinv : RunInv s) (h : MicroInv s) (hp : Pending s n r)
    (ha : regionsEnd ≤ r.address.toNat) : ∃ t, tick s = .next t ∧ Unmoved s t := by
  have hout := tick_outcome hinv h
  generalize tick s = x at hout
  cases hout with
  | waits t n' r' hp' hu hs hticks => exact ⟨t, rfl, hu⟩
  | answers t n' r' w hp' hk hb ho hans hm hs hfl =>
    obtain ⟨-, rfl⟩ := pending_unique hp hp'
    exact absurd (mapped_of_answered hans) (Nat.not_lt.mpr ha)
  | stops n' r' f hp' hroute hf =>
    obtain ⟨-, rfl⟩ := pending_unique hp hp'
    obtain ⟨k, o, hroute⟩ := hroute
    rw [route_eq_none.mpr ha] at hroute
    cases hroute
  | acts t _ h1 h2 hu hs hspi ha => exact (not_pending h1 h2 hp).elim

theorem ticks_succ_of_next {s t : State} (h : tick s = .next t) (n : Nat) : ticks (n + 1) s = ticks n t := by
  rw [ticks, h]

theorem ticks_of_unmapped {n : BusName} {r : Bus} (ha : regionsEnd ≤ r.address.toNat) (k : Nat) :
    ∀ s : State, RunInv s → MicroInv s → Pending s n r →
      ∃ t, ticks k s = .next t ∧ busOf t n = busOf s n ∧ t.micro.eu = s.micro.eu ∧ arch t = arch s := by
  induction k with
  | zero => exact fun s _ _ _ => ⟨s, rfl, rfl, rfl, rfl⟩
  | succ k ih =>
    intro s hinv h hp
    obtain ⟨t, ht, hu⟩ := tick_of_unmapped hinv h hp ha
    obtain ⟨hinv', h'⟩ := tick_keeps hinv h ht
    obtain ⟨u, hticks, hbus, heu, harch⟩ := ih t hinv' h' (hp.unmoved hu)
    exact ⟨u, (ticks_succ_of_next ht k).trans hticks, hbus.trans (hu.busOf n), heu.trans hu.e, harch.trans hu.arch.symm⟩

/-- Settles O57: each tick leaves all but the SPI controller as it was. -/
theorem unmappedRequestWaitsForEver : Obligations.UnmappedRequestWaitsForEver := fun s _ k hinv h hreq ha =>
  ticks_of_unmapped ha k s hinv h (pending_of h.1 hreq)

/-! ## The ticks that are left -/

/-- The ticks from the answer on this bus to the end of the instruction, at most: the latch, three waits, DECODE_EXECUTE and MEM_WAIT's two
with a read of 96 ticks between, or MEM_WAIT's last. -/
def ticksFromAnswer : BusName → Nat
  | .instruction => 103
  | .data => 1

/-- The ticks to the end of the instruction, at most. -/
def ticksLeft (s : State) : Nat :=
  match s.micro.eu.state with
  | .fetch => 200
  | .fetchWait =>
    if s.micro.ibus.requests then ticksFromAnswer .instruction + ticksToAnswer s
    else if s.micro.ibus.cycle then ticksFromAnswer .instruction else 103 - s.micro.eu.waitCnt.toNat
  | .decodeExecute => 99
  | .memWait =>
    if s.micro.dbus.requests then ticksFromAnswer .data + ticksToAnswer s
    else if s.micro.dbus.cycle then ticksFromAnswer .data else 98
  | .trapEntry _ => 1

theorem ticksToAnswer_le {s : State} (hs : SpiFollows s) : ticksToAnswer s ≤ 96 := by
  have hspi : spiTicksToAnswer s ≤ 96 := by
    rw [SpiFollows] at hs
    rw [spiTicksToAnswer]
    split <;> rename_i hst <;> simp only [hst] at hs
    · exact le_rfl
    · obtain ⟨-, -, hcount, -⟩ := hs
      omega
    · decide
    · obtain ⟨n, o, j, -, -, -, -, hj, hcount, -⟩ := hs
      omega
    · omega
  rw [ticksToAnswer]
  split
  · split <;> decide
  · split <;> decide
  · exact hspi
  · exact Nat.zero_le _

theorem ticksLeft_pos (s : State) : 0 < ticksLeft s := by
  rw [ticksLeft]
  split
  · decide
  · split
    · exact Nat.add_pos_left (by decide) _
    · split
      · decide
      · have := s.micro.eu.waitCnt.isLt
        omega
  · decide
  · split
    · exact Nat.add_pos_left (by decide) _
    · split <;> decide
  · decide

theorem ticksLeft_le {s : State} (hs : SpiFollows s) : ticksLeft s ≤ 201 := by
  have hle := ticksToAnswer_le hs
  rw [ticksLeft]
  split
  · decide
  · split
    · rw [ticksFromAnswer]
      omega
    · split
      · decide
      · omega
  · decide
  · split
    · rw [ticksFromAnswer]
      omega
    · split <;> decide
  · decide

theorem ticksLeft_of_pending {s : State} {n : BusName} {r : Bus} (h : Asks s n r) (hp : Pending s n r) :
    ticksLeft s = ticksFromAnswer n + ticksToAnswer s := by
  have hreq := hp.req
  rw [← hp.bus] at hreq
  cases h with
  | fetch he ha =>
    rw [busOf_instruction] at hreq
    simp only [ticksLeft, he, hreq, if_true]
  | access i m he hw hm ha =>
    rw [busOf_data] at hreq
    simp only [ticksLeft, he, hreq, if_true]

theorem ticksLeft_of_answer {s : State} {n : BusName} {r : Bus} {w : Word} (h : Asks s n r) (hreq : r.requests = true)
    (hb : busOf s n = { r with acknowledge := true, dataOut := w }) : ticksLeft s = ticksFromAnswer n := by
  have hcycle : (busOf s n).cycle = true := by
    rw [hb]
    simp only [Bus.requests, Bool.and_eq_true] at hreq
    exact hreq.1.1
  have hno : (busOf s n).requests = false := by rw [hb, requests_acknowledged]
  cases h with
  | fetch he ha =>
    rw [busOf_instruction] at hcycle hno
    simp only [ticksLeft, he, hno, hcycle, Bool.false_eq_true, if_false, if_true]
  | access i m he hw hm ha =>
    rw [busOf_data] at hcycle hno
    simp only [ticksLeft, he, hno, hcycle, Bool.false_eq_true, if_false, if_true]

theorem ticksLeft_of_fetch {s : State} (he : s.micro.eu.state = .fetch) : ticksLeft s = 200 := by
  simp only [ticksLeft, he]

theorem ticksLeft_of_decodeExecute {s : State} (he : s.micro.eu.state = .decodeExecute) : ticksLeft s = 99 := by
  simp only [ticksLeft, he]

theorem ticksLeft_of_counting {s : State} (he : s.micro.eu.state = .fetchWait) (hi : s.micro.ibus = .idle) :
    ticksLeft s = 103 - s.micro.eu.waitCnt.toNat := by
  simp only [ticksLeft, he, hi]
  rfl

theorem ticksLeft_of_memWait_idle {s : State} (he : s.micro.eu.state = .memWait) (hd : s.micro.dbus = .idle) :
    ticksLeft s = 98 := by
  simp only [ticksLeft, he, hd]
  rfl

theorem ticksLeft_of_trapEntry {s : State} {c : TrapContext} (he : s.micro.eu.state = .trapEntry c) : ticksLeft s = 1 := by
  simp only [ticksLeft, he]

/-! ## Every tick that retires nothing leaves fewer -/

theorem acts_progress {s t u : State} (hu : Unmoved s t) (hs : SpiFollows u) (hgo : ¬retires s u) (ha : Acts s t (.next u)) :
    ticksLeft u < ticksLeft s := by
  have hle := ticksToAnswer_le hs
  cases ha with
  | requestsFetch he hd ha =>
    rw [← hu.p] at ha hle ⊢
    have hasks : Asks (setEu .fetchWait (setBus .instruction (readRequest .word t.pc) t)) .instruction
        (readRequest .word t.pc) := .fetch rfl ha
    rw [ticksLeft_of_pending hasks ⟨rfl, hu.d.trans hd, rfl, fun h => by cases h⟩, ticksLeft_of_fetch he, ticksFromAnswer]
    omega
  | refusesFetch he hi hd ha =>
    rw [ticksLeft_of_trapEntry rfl, ticksLeft_of_fetch he]
    decide
  | latches w he hi hack hd hf =>
    rw [ticksLeft_of_counting (s := setWaitCnt 1 _) (by simp [hu.e, he]) rfl, setWaitCnt_micro]
    simp only [ticksLeft, he, Bus.requests, hi, hack, Bool.not_true, Bool.and_false, Bool.false_eq_true, if_false, if_true]
    decide
  | counts he hi hd hc =>
    rw [ticksLeft_of_counting (s := setWaitCnt (s.micro.eu.waitCnt + 1) t) (by simp [hu.e, he]) (hu.i.trans hi),
      ticksLeft_of_counting he hi, setWaitCnt_micro]
    bv_omega
  | decodes he hi hd =>
    have := s.micro.eu.waitCnt.isLt
    rw [ticksLeft_of_counting he hi, ticksLeft_of_decodeExecute rfl]
    omega
  | opensAccess i m he hi hd hw hm =>
    rw [ticksLeft_of_memWait_idle (s := setEu .memWait t) rfl (hu.d.trans hd), ticksLeft_of_decodeExecute he]
    decide
  | opensTrap i c he hi hd hw hc =>
    rw [ticksLeft_of_trapEntry rfl, ticksLeft_of_decodeExecute he]
    decide
  | executes i _ he hi hd hw hx =>
    obtain ⟨heu, -⟩ := exec_micro hx rfl
    exact absurd ⟨by simp [he], by rw [heu]; rfl⟩ hgo
  | requestsAccess i m he hi hd hw hm ha =>
    have hasks : Asks (setBus .data m.request t) .data m.request := by
      refine .access i m ((congrArg ExecUnit.state hu.e).trans he) (by rw [setBus_data_micro, hu.e, hw]) ?_ ha
      rw [← hm]
      exact memAccess_congr hu.sameInputs i
    rw [ticksLeft_of_pending hasks ⟨rfl, hu.i.trans hi, requests_request m, fun _ => rfl⟩, ticksLeft_of_memWait_idle he hd,
      ticksFromAnswer]
    omega
  | refusesAccess i m he hi hd hw hm ha =>
    rw [ticksLeft_of_trapEntry rfl, ticksLeft_of_memWait_idle he hd]
    decide
  | retiresAccess i m w he hi hw hm ha hans =>
    obtain ⟨-, -, -, hmicro⟩ := retire_same m w (setEu .fetch (setBus .data .idle t))
    exact absurd ⟨by simp [he], by rw [hmicro]; rfl⟩ hgo
  | entersTrap c he hi hd => exact absurd ⟨by simp [he], rfl⟩ hgo

theorem tick_progress {s u : State} (hinv : RunInv s) (h : MicroInv s) (ht : tick s = .next u)
    (hhang : step s ≠ .fault .hangNoResponder) (hgo : ¬retires s u) : ticksLeft u < ticksLeft s := by
  obtain ⟨-, -, hs'⟩ := tick_keeps hinv h ht
  have hout := tick_outcome hinv h
  rw [ht] at hout
  cases hout with
  | waits _ n r hp hu hs hticks =>
    have hasks := asks_of_pending h.1 hp
    rw [ticksLeft_of_pending hasks hp, ticksLeft_of_pending (hasks.kept hu.toKept) (hp.unmoved hu)]
    cases hroute : route s.config .data r.address with
    | none => exact absurd (step_of_request_error h.1 hp (request_unmapped (route_eq_none.mp hroute) n)) hhang
    | some x => exact Nat.add_lt_add_left (hticks x.1 x.2 hroute) _
  | answers _ n r w hp hk hb ho ha hm hs hfl =>
    have hasks := asks_of_pending h.1 hp
    rw [ticksLeft_of_pending hasks hp, ticksLeft_of_answer (hasks.kept hk) hp.req hb]
    cases hroute : route s.config .data r.address with
    | none =>
      exact absurd (mapped_of_answered ha) (Nat.not_lt.mpr (route_eq_none.mp hroute))
    | some x => exact Nat.lt_add_of_pos_right (ticksToAnswer_pos hp hroute h.2)
  | acts t _ h1 h2 hu hs hspi ha => exact acts_progress hu hs' hgo ha

theorem ticks_one (s : State) : ticks 1 s = tick s := by
  rw [ticks]
  cases tick s <;> rfl

/-- A tick that does not go on to another has done what the step does. -/
theorem sameOutcome_of_tick {s : State} (hinv : RunInv s) (h : MicroInv s) (hret : ∀ t, tick s = .next t → retires s t) :
    SameOutcome (step s) (tick s) := by
  have href := tick_refines hinv h
  cases ht : tick s with
  | next t =>
    rw [ht] at href
    exact (if_pos (hret t ht)).mp href
  | fault f | refused x =>
    rw [ht, Refines] at href
    rw [href]
    exact sameOutcome_refl _

/-- The ticks complete the step, as many as are left at most. -/
theorem ticks_complete (k : Nat) : ∀ s : State, ticksLeft s ≤ k → RunInv s → MicroInv s → step s ≠ .fault .hangNoResponder →
    ∃ n, 0 < n ∧ n ≤ k ∧ SameOutcome (step s) (ticks n s) ∧ ∀ t, ticks n s = .next t → t.micro.eu.state = .fetch := by
  induction k with
  | zero => exact fun s hk => absurd (ticksLeft_pos s) (Nat.not_lt.mpr hk)
  | succ k ih =>
    intro s hk hinv h hhang
    by_cases hret : ∀ t, tick s = .next t → retires s t
    · refine ⟨1, Nat.one_pos, Nat.succ_le_succ (Nat.zero_le k), ?_, ?_⟩ <;> rw [ticks_one]
      · exact sameOutcome_of_tick hinv h hret
      · exact fun t ht => (hret t ht).2
    · obtain ⟨t, ht, hgo⟩ : ∃ t, tick s = .next t ∧ ¬retires s t := by simpa only [not_forall, exists_prop] using hret
      have href := tick_refines hinv h
      rw [ht] at href
      have hstep : SameOutcome (step s) (step t) := (if_neg hgo).mp href
      obtain ⟨hinv', h'⟩ := tick_keeps hinv h ht
      have hhang' : step t ≠ .fault .hangNoResponder := fun hstep' => by
        rw [hstep'] at hstep
        exact hhang hstep.eq_fault
      obtain ⟨n, hpos, hn, hsame, hfetch⟩ :=
        ih t (Nat.le_of_lt_succ ((tick_progress hinv h ht hhang hgo).trans_le hk)) hinv' h' hhang'
      refine ⟨n + 1, Nat.succ_pos n, Nat.succ_le_succ hn, ?_, ?_⟩ <;> rw [ticks_succ_of_next ht]
      · exact hstep.trans hsame
      · exact hfetch

/-- Settles O60: `ticks_complete`, with 201 ticks. -/
theorem ticksCompleteTheStep : Obligations.TicksCompleteTheStep := fun s hinv h hhang =>
  ticks_complete 201 s (ticksLeft_le h.2) hinv h hhang

end Sys2Proof.Machine
end

section
/-! The stores and the SPI controller tick by tick (20_memory.md R84, R88, R90 to R96; logs 37, 39, 40, 41). -/

namespace Sys2Proof.Machine

/-! ## The RAM's and the ROM's two ticks -/

/-- The first of the two ticks of a request to the RAM or the ROM only counts. -/
theorem storesTick_first {s : State} {n : BusName} {r : Bus} {k : Backing} {o : Nat} (hs : SpiFollows s) (hp : Pending s n r)
    (hr : route s.config .data r.address = some (k, o)) (hk : k ≠ .flash) (h1 : s.micro.ramAck = 0) (h2 : s.micro.romAck = 0) :
    ∃ t, storesTick s = .ok t ∧ Unmoved s t ∧ ticksToAnswer t = 1 := by
  have hreq : ∀ k', requester k' s = if k = k' then some (n, o) else none := fun k' => by rw [requester_pending hp k', hr]
  have hlt : 0 + 1 < ackLatency := by decide
  cases k with
  | flash => exact absurd rfl hk
  | ram =>
    have hrom : requester .rom (withAcks s 1 s.micro.romAck) = none := by rw [requester_withAck, hreq]; rfl
    obtain ⟨c, d, hspi, -⟩ := spiTick_unrequested (s := withAcks s 1 0) hs (by rw [requester_withAck, hreq]; rfl)
    refine ⟨_, ?_, { withSpi_kept s 1 0 c d with m := rfl, i := rfl, d := rfl }, ?_⟩
    · rw [withAcks] at hrom
      simp only [storesTick, ramTick, hreq, if_true, h1, hlt, romTick, hrom]
      exact hspi
    · rw [ticksToAnswer_ram (s := withSpi (withAcks s 1 0) c d) (x := (n, o)) ((hreq .ram).trans (if_pos rfl))]
      rfl
  | rom =>
    have hram : requester .ram s = none := by rw [hreq]; rfl
    have hrom : requester .rom (withAcks s 0 0) = some (n, o) := by rw [requester_withAck, hreq]; rfl
    obtain ⟨c, d, hspi, -⟩ := spiTick_unrequested (s := withAcks s 0 1) hs (by rw [requester_withAck, hreq]; rfl)
    refine ⟨_, ?_, { withSpi_kept s 0 1 c d with m := rfl, i := rfl, d := rfl }, ?_⟩
    · rw [withAcks] at hrom
      simp only [storesTick, ramTick, hram, romTick, hrom, h2, hlt, if_true]
      exact hspi
    · rw [ticksToAnswer_rom (s := withSpi (withAcks s 0 1) c d) (x := (n, o)) ((hreq .ram).trans (if_neg (by decide)))
        ((hreq .rom).trans (if_pos rfl))]
      rfl

/-- A request with one tick left is answered in that tick, if it goes on. -/
theorem answered_of_lastTick {s u : State} {n : BusName} {r : Bus} {k : Backing} {o : Nat} (hinv : RunInv s) (h : MicroInv s)
    (hp : Pending s n r) (hr : route s.config .data r.address = some (k, o)) (hlast : ticksToAnswer s = 1)
    (hu : tick s = .next u) : (busOf u n).acknowledge = true ∧ Answered u n r (busOf u n).dataOut := by
  have hout := tick_outcome hinv h
  rw [hu] at hout
  cases hout with
  | waits _ n' r' hp' hu hs hticks =>
    obtain ⟨-, rfl⟩ := pending_unique hp hp'
    have hless := hticks k o hr
    have hpos := ticksToAnswer_pos (hp.unmoved hu) (by rw [hu.g]; exact hr) hs
    omega
  | answers _ n' r' w hp' hk hb ho ha hm hs hfl =>
    obtain ⟨rfl, rfl⟩ := pending_unique hp hp'
    rw [hb]
    exact ⟨rfl, ha⟩
  | acts t _ h1 h2 hu hs hspi ha => exact (not_pending h1 h2 hp).elim

/-- Settles O56: `storesTick_first`, then `answered_of_lastTick`. -/
theorem acknowledgeAfterTwoTicks : Obligations.AcknowledgeAfterTwoTicks := by
  intro s n k o hinv h hreq hroute hk h1 h2
  have hp := pending_of h.1 hreq
  rw [route_bus _ n .data] at hroute
  obtain ⟨t, hstores, hu, hlast⟩ := storesTick_first h.2 hp hroute hk h1 h2
  have ht : tick s = .next t := by
    rw [tick, hstores]
    exact eu_waits h.1 hp t
  obtain ⟨hinv', h'⟩ := tick_keeps hinv h ht
  exact ⟨t, ht, hu.busOf n, fun u hu' =>
    answered_of_lastTick hinv' h' (hp.unmoved hu) (by rw [hu.g]; exact hroute) hlast hu'⟩

/-! ## A read of the flash -/

/-- A read request whose read gives a value is answered with it, within the ticks to the answer. -/
theorem ticks_answer {n : BusName} {r : Bus} {o : Nat} {v : Word} (hw : r.writeEnable = false) (k : Nat) :
    ∀ s : State, ticksToAnswer s ≤ k → RunInv s → MicroInv s → Pending s n r →
      route s.config .data r.address = some (.flash, o) → memRead n r.address r.width s = .ok v →
      ∃ j t w, j ≤ k ∧ ticks j s = .next t ∧ busOf t n = { r with acknowledge := true, dataOut := w } ∧
        lowBytes r.width w = v ∧ t.micro.spi.state = .waiting ∧ t.micro.spi.cs = false := by
  induction k with
  | zero => exact fun s hk _ h hp hr _ => absurd (ticksToAnswer_pos hp hr h.2) (Nat.not_lt.mpr hk)
  | succ k ih =>
    intro s hk hinv h hp hr hread
    have hout := tick_outcome hinv h
    cases ht : tick s with
    | refused x =>
      rw [ht] at hout
      cases hout with
      | acts t _ h1 h2 hu hs hspi ha => exact (not_pending h1 h2 hp).elim
    | fault f =>
      rw [ht] at hout
      cases hout with
      | stops n' r' _ hp' hroute hf =>
        obtain ⟨rfl, rfl⟩ := pending_unique hp hp'
        rw [hw, if_neg (by decide), hread] at hf
        cases hf
      | acts t _ h1 h2 hu hs hspi ha => exact (not_pending h1 h2 hp).elim
    | next t =>
      obtain ⟨hinv', h'⟩ := tick_keeps hinv h ht
      rw [ht] at hout
      cases hout with
      | waits _ n' r' hp' hu hs hticks =>
        obtain ⟨-, rfl⟩ := pending_unique hp hp'
        obtain ⟨j, u, w, hj, hu', hrest⟩ := ih t (Nat.le_of_lt_succ ((hticks _ o hr).trans_le hk)) hinv' h' (hp.unmoved hu)
          (by rw [hu.g]; exact hr) ((memRead_arch hu.arch ..).trans hread)
        exact ⟨j + 1, u, w, Nat.succ_le_succ hj, (ticks_succ_of_next ht j).trans hu', hrest⟩
      | answers _ n' r' w hp' hk' hb ho ha hm hs hfl =>
        obtain ⟨rfl, rfl⟩ := pending_unique hp hp'
        rw [hw] at hm
        rw [Answered, hw, if_neg (by decide), memRead_congr hm hk'.f hk'.g, hread] at ha
        cases ha
        exact ⟨1, t, w, Nat.succ_le_succ (Nat.zero_le k), ticks_succ_of_next ht 0, hb, rfl, hfl o hr⟩
      | acts t _ h1 h2 hu hs hspi ha => exact (not_pending h1 h2 hp).elim

/-- A waiting controller with no request stays as it is through a tick of the stores. -/
theorem storesTick_waiting {s : State} (h1 : s.micro.ibus.requests = false) (h2 : s.micro.dbus.requests = false)
    (hw : s.micro.spi.state = .waiting) : ∃ d, storesTick s = .ok (withSpi (withAcks s 0 0) s.micro.spi d) := by
  have hnone : ∀ k, requester k s = none := fun k => requester_none h1 h2
  have hrom : requester .rom (withAcks s 0 s.micro.romAck) = none := hnone .rom
  have hflash : requester .flash (withAcks s 0 0) = none := hnone .flash
  rw [withAcks] at hrom hflash
  simp only [storesTick, ramTick, hnone, romTick, hrom, spiTick, hw, hflash]
  exact ⟨_, rfl⟩

/-- Settles O55: FETCH's tick issues the request, and `ticks_answer` serves it in 65 more. -/
theorem spiReadReturnsFlashWord : Obligations.SpiReadReturnsFlashWord := by
  intro s b0 b1 b2 b3 hinv h he hboot hwait hpc hlt e0 e1 e2 e3
  obtain ⟨hi, hd⟩ : s.micro.ibus = .idle ∧ s.micro.dbus = .idle := by simpa only [MicroInv, BusesFollow, he] using h.1
  obtain ⟨d, hstores⟩ := storesTick_waiting (by rw [hi]; rfl) (by rw [hd]; rfl) hwait
  let u := setEu .fetchWait (setBus .instruction (readRequest .word s.pc) (withSpi (withAcks s 0 0) s.micro.spi d))
  have ht : tick s = .next u := by
    simp only [tick, hstores, euTick, he, fetchTick, aligned_word.mpr hpc, if_true]
    rfl
  obtain ⟨hinv', h'⟩ := tick_keeps hinv h ht
  have hp : Pending u .instruction (readRequest .word s.pc) := ⟨rfl, hd, rfl, fun h => by cases h⟩
  have hroute : ∀ bus, route u.config bus s.pc = some (.flash, s.pc.toNat) := fun _ =>
    (route_eq_boot (by decide)).mpr ⟨hlt, backing_flash.mpr hboot, rfl⟩
  have hticks : ticksToAnswer u = 65 := by
    have hreq : ∀ k, requester k u = if .flash = k then some (.instruction, s.pc.toNat) else none := fun k => by
      rw [requester_pending hp k, show (readRequest .word s.pc).address = s.pc from rfl, hroute]
    rw [ticksToAnswer_flash (hreq .ram) (hreq .rom) (hreq .flash), spiTicksToAnswer, show u.micro.spi.state = .waiting from hwait]
  have hword : flashWord s.flash (flashAddress s.config s.pc.toNat) = some (wordOfBytes b0 b1 b2 b3) := by
    refine wordAt_eq_some.mpr ⟨b0, b1, b2, b3, ?_, e1, e2, e3, rfl⟩
    rw [flashAddress, Nat.mod_mod]
    exact e0
  have hread : memRead .instruction s.pc .word u = .ok (wordOfBytes b0 b1 b2 b3) := by
    refine memRead_eq_ok.mpr ⟨.flash, _, wordOfBytes b0 b1 b2 b3, hroute _, ?_, by simp [laneShift, lowBytes]⟩
    show storeWord s .flash s.pc.toNat = _
    rw [storeWord, hword]
  obtain ⟨j, t, w, hj, hticks, hbus, hw, hspi⟩ := ticks_answer (o := s.pc.toNat) rfl 65 u hticks.le hinv' h' hp (hroute _) hread
  have hbus : t.micro.ibus = { readRequest .word s.pc with acknowledge := true, dataOut := w } := hbus
  have hw : w = wordOfBytes b0 b1 b2 b3 := hw
  refine ⟨j + 1, t, Nat.succ_le_succ hj, (ticks_succ_of_next ht j).trans hticks, by rw [hbus], ?_, hspi⟩
  rw [hbus, hw]
  exact wordOfBytes_append b0 b1 b2 b3

/-! ## The command of a read -/

/-- The read command of an address, as a word: the address plus FLASH_BASE, its low 24 bits. -/
theorem readCommand_eq (c : Config) (a : Word) :
    readCommand c a.toNat = 0x03000000 ||| ((a + c.flashBase.setWidth 32) &&& 0x00FFFFFF) := by
  have hmask : (0x00FFFFFF : Word) = BitVec.ofNat 32 (2 ^ 24 - 1) := rfl
  have haddr : BitVec.ofNat 32 (flashAddress c a.toNat) = (a + c.flashBase.setWidth 32) &&& 0x00FFFFFF := by
    apply BitVec.eq_of_toNat_eq
    rw [BitVec.toNat_and, BitVec.toNat_ofNat, BitVec.toNat_add, BitVec.toNat_setWidth,
      show (0x00FFFFFF : Word).toNat = 2 ^ 24 - 1 from rfl, Nat.and_two_pow_sub_one_eq_mod, flashAddress]
    have := c.flashBase.isLt
    omega
  rw [readCommand, haddr]

/-- Settles O54: in WAITING a tick of the controller keeps it, or starts the read requested. -/
theorem spiLatchesReadCommand : Obligations.SpiLatchesReadCommand := by
  intro s n h hboot hwait
  have hcs : s.micro.spi.clk = false ∧ s.micro.spi.cs = false := by simpa only [SpiFollows, hwait] using h.2
  refine ⟨hcs.2, fun hno => ?_, fun hreq _ hw ha => ?_⟩
  · simp only [spiTick, hwait, requester_none (hno .instruction) (hno .data)]
    exact ⟨_, rfl, rfl⟩
  · have hroute : route s.config .data (busOf s n).address = some (.flash, (busOf s n).address.toNat) :=
      (route_eq_boot (by decide)).mpr ⟨ha, backing_flash.mpr hboot, rfl⟩
    have hrequester : requester .flash s = some (n, (busOf s n).address.toNat) := by
      rw [requester_pending (pending_of h.1 hreq), hroute]
      rfl
    simp only [spiTick, hwait, hrequester, hw]
    exact ⟨_, rfl, rfl, rfl, rfl, readCommand_eq _ _⟩

/-! ## The wake command -/

/-- The controller after `k` ticks of POWERUP. -/
theorem powerupTick_iterate (m : SpiClocking) (c : SpiController) (k : Nat) (hk : k ≤ 30) :
    ((SpiController.powerupTick m)^[k] c.resetTick).state = (if k < 30 then SpiState.powerup else .waiting) ∧
    ((SpiController.powerupTick m)^[k] c.resetTick).countdown = 30 - k ∧
    ((SpiController.powerupTick m)^[k] c.resetTick).cs = decide (k < 8) ∧
    ((SpiController.powerupTick m)^[k] c.resetTick).clk = clkAt m k ∧
    ((SpiController.powerupTick m)^[k] c.resetTick).shift = 0xAB000000#32 <<< k ∧
    ((SpiController.powerupTick m)^[k] c.resetTick).mosi = (0xAB000000#32 <<< k).msb := by
  induction k with
  | zero => exact ⟨rfl, rfl, rfl, (clkAt_zero m).symm, rfl, rfl⟩
  | succ k ih =>
    obtain ⟨-, hcount, -, hclk, hshift, -⟩ := ih (Nat.le_of_succ_le hk)
    rw [Function.iterate_succ_apply']
    simp only [SpiController.powerupTick, sendTick_eq hclk, hcount, hshift, ← BitVec.shiftLeft_add]
    refine ⟨?_, ?_, ?_, trivial, trivial, trivial⟩
    · by_cases hlt : k + 1 < 30
      · rw [if_pos hlt, if_neg (by simp only [decide_eq_true_eq]; omega)]
      · rw [if_neg hlt, if_pos (by simp only [decide_eq_true_eq]; omega)]
    · omega
    · exact decide_eq_decide.mpr (by omega)

theorem clkAt_eq (m : SpiClocking) (k : Nat) : clkAt m k = (m == .edgePerTick && k % 2 == 1) := by
  cases m
  · rfl
  · rfl

/-- The device takes in the wake command's bits, the most significant first. -/
theorem clock_wakeBit : ∀ k < 8, FlashDevice.clock { command := 0xAB#32 >>> (8 - k), bits := k } (0xAB000000#32 <<< k).msb =
    { command := 0xAB#32 >>> (8 - (k + 1)), bits := k + 1 } := by decide

/-- A tick of POWERUP, of the controller and the device. -/
def wakeTick (m : SpiClocking) (p : SpiController × FlashDevice) : SpiController × FlashDevice :=
  (p.1.powerupTick m, p.2.next m p.1)

/-- For eight ticks of POWERUP the device takes in the wake command, a bit each. -/
theorem wakeTick_iterate (m : SpiClocking) (c : SpiController) (k : Nat) (hk : k ≤ 8) :
    (wakeTick m)^[k] (c.resetTick, .idle) =
      ((SpiController.powerupTick m)^[k] c.resetTick, { command := 0xAB#32 >>> (8 - k), bits := k }) := by
  induction k with
  | zero => rfl
  | succ k ih =>
    have hlt : k < 8 := hk
    obtain ⟨hstate, -, hcs, hclk, -, hmosi⟩ := powerupTick_iterate m c k (by omega)
    rw [if_pos (by omega)] at hstate
    rw [Function.iterate_succ_apply', Function.iterate_succ_apply', ih (Nat.le_of_succ_le hk), wakeTick,
      next_selected _ hclk (hcs.trans (decide_eq_true hlt)) (.inl hstate), hmosi]
    exact congrArg _ (clock_wakeBit k hlt)

/-- Settles O53: `powerupTick_iterate`, and the device's eight bits. -/
theorem spiWakesTheFlash : Obligations.SpiWakesTheFlash := by
  refine ⟨fun s hs => ?_, fun s hs => ?_, fun c => ⟨rfl, rfl⟩, fun m c k hk => ?_, fun m c => ?_⟩
  · simp only [spiTick, hs]
    exact ⟨_, rfl, rfl, rfl, rfl⟩
  · simp only [spiTick, hs]
    exact ⟨_, rfl, rfl, rfl, rfl, rfl⟩
  · obtain ⟨hstate, -, hcs, hclk, -, hmosi⟩ := powerupTick_iterate m c k hk
    refine ⟨hstate, hcs, hclk.trans (clkAt_eq m k), fun hlt => ?_⟩
    rw [hmosi]
    interval_cases k <;> rfl
  · exact congrArg Prod.snd (wakeTick_iterate m c 8 le_rfl)

end Sys2Proof.Machine
end
